-- ==== Sys2Proof/Word.lean ====
section
/-! DEFINITION. The word types of CORE (00_scope.md R6): every value is an unsigned integer. -/

namespace Sys2Proof

/-- An unsigned 8-bit value (R6). -/
abbrev Byte := BitVec 8

/-- A 32-bit command word, CRC or interface register (10_state.md R27, R31, R42). -/
abbrev Word := BitVec 32

end Sys2Proof
end

