-- ==== Sys2Proof/Config.lean ====
section
/-! DEFINITION. The implementation parameters of 00_scope.md R5, the buffer sizes of 20_memory.md
R61, and the values the spec leaves free (93_implementation_defined.md), which have no body. -/

namespace Sys2Proof

/-- The sink's answer to one offered byte (20_memory.md R64); a short write is a `fail`. -/
inductive SinkAnswer where
  | ok
  | fail
  deriving DecidableEq, Repr, Inhabited

namespace Config

/-- `DEFAULT_LEVEL` (R5, decision D6; log 17). -/
def defaultLevel : BitVec 4 := 6

/-- Bytes of RLE1 output one level stands for (R5, row `CAP`). -/
def levelUnit : Nat := 100000

/-- `CAP_MAX`, the entries of BLK_BUF, BWT_OUT and RANKS (R5, R61). -/
def capMax : Nat := 900000

/-- The entries of SYM (R61, 46_rle2.md R235). -/
def symMax : Nat := 900001

/-- The entries of SEL and SEL_RANK (R61, 47_huffman.md R241). -/
def selMax : Nat := 18001

/-- The entries of MTF_LIST (R61). -/
def byteValues : Nat := 256

/-- `GROUP`, RLE2 symbols per selector (R5). -/
def group : Nat := 50

/-- `MIN_TREES` (R5). -/
def minTrees : Nat := 2

/-- `MAX_TREES` (R5). -/
def maxTrees : Nat := 6

/-- `BW_MAX_WIDTH`, the widest bit-writer write (R5). -/
def bwMaxWidth : Nat := 64

/-- `RLE1_LIT`, literal bytes before a length byte (R5). -/
def rle1Lit : Nat := 4

/-- The longest RLE1 unit: `RLE1_LIT` literals and `RLE1_MAX_EXTRA` = 255 more (R5). -/
def rle1Unit : Nat := 259

/-- `MAX_CODE_LEN` (R5, decision D21). -/
def maxCodeLen : Nat := 20

/-- FREE VALUE (40_bit_writer.md R122, U5; log 7): BW_ACC after a failed sink byte. -/
opaque freeBwAcc : Nat → BitVec 7

/-- FREE VALUE (40_bit_writer.md R122, U5; log 7): BW_CNT after a failed sink byte. -/
opaque freeBwCnt : Nat → BitVec 3

/-- FREE VALUE (49_stream_commands.md R305, U4; log 8): the draw from which RESULT.count of a failed
WRITE is taken, reduced to 0..n. -/
opaque freeCount : Nat → Nat

end Config
end Sys2Proof
end

