-- ==== Sys2Proof/Syntax.lean ====
section
/-! DEFINITION. The instructions of CORE: the 5 host commands and the 17 micro-operations of
spec/opcode_table.json (30_encoding.md R81, R88), with the operands R82-R84 and R89 give them, and
the two forms in which an encoded instruction reaches CORE. -/

namespace Sys2Proof

/-- One constructor per row of spec/opcode_table.json. -/
inductive Instr where
  /-- CONFIG (R301): the level field `lv` = imm24[3:0]. -/
  | config (lv : BitVec 4)
  /-- WRITE (R303): the byte count `n` = imm24; the bytes stand on DIN. -/
  | write (n : BitVec 24)
  /-- FLUSH (R306). -/
  | flush
  /-- CLOSE (R307). -/
  | close
  /-- RESET (R309). -/
  | reset
  /-- BW_WRITEBITS (R121): the 7-bit width `n` and the 64-bit value `v`. -/
  | bwWriteBits (n : BitVec 7) (v : BitVec 64)
  /-- BW_PAD (R124). -/
  | bwPad
  /-- BW_RAWBYTES (R125): the `k` bytes `d`. -/
  | bwRawBytes (d : List Byte)
  /-- CRC_UPDATE (R142): the CRC so far and the bytes to fold in. -/
  | crcUpdate (crc : Word) (d : List Byte)
  /-- CRC_COMBINE (R144): the stream CRC `a` and the block CRC `b`. -/
  | crcCombine (a b : Word)
  /-- SYM_ANALYZE (R160). -/
  | symAnalyze
  /-- RLE1_ACCEPT (R174): its operand is the unconsumed input of the current WRITE. -/
  | rle1Accept
  /-- RLE1_FINISH (R179). -/
  | rle1Finish
  /-- BWT_SORT (R200). -/
  | bwtSort
  /-- MTF_RUN (R220). -/
  | mtfRun
  /-- RLE2_RUN (R230). -/
  | rle2Run
  /-- HUFF_BUILD (R240). -/
  | huffBuild
  /-- HUFF_CODES (R248). -/
  | huffCodes
  /-- SEL_MTF (R251). -/
  | selMtf
  /-- BLK_SERIALIZE (R270). -/
  | blkSerialize
  /-- STREAM_HEADER (R302). -/
  | streamHeader
  /-- STREAM_FOOTER (R308). -/
  | streamFooter
  deriving DecidableEq, Repr

/-- An encoded instruction: a command word on CMD (R80) or a transfer on the micro-op bus (R87),
whose byte layout is the model's (log 4). -/
inductive Encoded where
  | command (w : Word)
  | uop (bytes : List Byte)
  deriving DecidableEq, Repr

end Sys2Proof
end

