-- ==== Sys2Proof/WellFormed.lean ====
section
/-! DEFINITION. Which instructions have an encoding, and which a host may issue. The field widths of
R82, R83 and R89 are the types of `Instr`, and a byte count is any number (R89, "any `k >= 0`"), so no
check is left and every instruction is well-formed. -/

namespace Sys2Proof

/-- The instruction can be encoded. -/
def Instr.wellFormed : Instr → Bool
  | .config _ => true
  | .write _ => true
  | .flush => true
  | .close => true
  | .reset => true
  | .bwWriteBits _ _ => true
  | .bwPad => true
  | .bwRawBytes _ => true
  | .crcUpdate _ _ => true
  | .crcCombine _ _ => true
  | .symAnalyze => true
  | .rle1Accept => true
  | .rle1Finish => true
  | .bwtSort => true
  | .mtfRun => true
  | .rle2Run => true
  | .huffBuild => true
  | .huffCodes => true
  | .selMtf => true
  | .blkSerialize => true
  | .streamHeader => true
  | .streamFooter => true

/-- A command a host may issue (R81); every other instruction is a micro-operation, which "the host
cannot issue" (R87). -/
def Instr.isCommand : Instr → Bool
  | .config _ => true
  | .write _ => true
  | .flush => true
  | .close => true
  | .reset => true
  | .bwWriteBits _ _ => false
  | .bwPad => false
  | .bwRawBytes _ => false
  | .crcUpdate _ _ => false
  | .crcCombine _ _ => false
  | .symAnalyze => false
  | .rle1Accept => false
  | .rle1Finish => false
  | .bwtSort => false
  | .mtfRun => false
  | .rle2Run => false
  | .huffBuild => false
  | .huffCodes => false
  | .selMtf => false
  | .blkSerialize => false
  | .streamHeader => false
  | .streamFooter => false

end Sys2Proof
end

