-- ==== Sys2Proof/Decode.lean ====
section
/-! DEFINITION. The decoder of command words (30_encoding.md R80-R85) and of micro-op transfers
(R87-R89), total and rejecting by name, and after it the encoder.
The command word's layout is the spec's; how a uop's operands follow its code byte on the bus is the
model's (log 4): a width byte and 8 value bytes for BW_WRITEBITS, the bytes themselves for BW_RAWBYTES
and (after the 4-byte CRC) for CRC_UPDATE, their count being the number of bytes left in the transfer,
and two 4-byte values for CRC_COMBINE, every value most significant byte first. -/

namespace Sys2Proof

/-- Why an encoding is rejected. -/
inductive DecodeError where
  /-- A command word whose `op` R81 does not list (R85). -/
  | illegalOp
  /-- A command word with a bit set where R82 or R84 require 0 (R85). -/
  | mustBeZero
  /-- A uop code R88 does not list. -/
  | unknownUop
  /-- A uop transfer whose operands do not have the length its code gives (log 4). -/
  | badOperands
  deriving DecidableEq, Repr

/-! ### Byte order on the micro-op bus (log 4) -/

/-- The `k` low bytes of `v`, most significant first. -/
def bytesBE : Nat → Nat → List Byte
  | 0, _ => []
  | k + 1, v => BitVec.ofNat 8 (v >>> (8 * k)) :: bytesBE k v

/-- The number whose bytes, most significant first, are `l`. -/
def natOfBE (l : List Byte) : Nat := l.foldl (fun v b => v * 256 + b.toNat) 0

/-- Takes a `k`-byte value off the front of a transfer. -/
def readNat (k : Nat) (l : List Byte) : Option (Nat × List Byte) :=
  if k ≤ l.length then some (natOfBE (l.take k), l.drop k) else none

/-! ### The command word -/

/-- The field `op` = bits [31:24] of a command word (R80). -/
def cmdOp (w : Word) : BitVec 8 := w.extractLsb' 24 8

/-- The field `imm24` = bits [23:0] of a command word (R80). -/
def cmdImm (w : Word) : BitVec 24 := w.extractLsb' 0 24

/-- Decodes a command word (R81-R85). -/
def decodeCommand (w : Word) : Except DecodeError Instr :=
  let noOperand (i : Instr) : Except DecodeError Instr :=
    if cmdImm w = 0 then .ok i else .error .mustBeZero
  match (cmdOp w).toNat with
  | 0x01 =>
    if (cmdImm w).extractLsb' 4 20 = 0 then .ok (.config ((cmdImm w).extractLsb' 0 4))
    else .error .mustBeZero
  | 0x02 => .ok (.write (cmdImm w))
  | 0x03 => noOperand .flush
  | 0x04 => noOperand .close
  | 0x05 => noOperand .reset
  | _ => .error .illegalOp

/-! ### The micro-op transfer -/

/-- The operands of BW_WRITEBITS: `n` in [6:0] of its operand field (R89), whose bit 7 is 0 (log 4),
then `v`. -/
def decodeWriteBits (l : List Byte) : Except DecodeError Instr :=
  match readNat 1 l with
  | none => .error .badOperands
  | some (n, l) =>
    match readNat 8 l with
    | none => .error .badOperands
    | some (v, l) =>
      if l = [] ∧ n < 128 then .ok (.bwWriteBits (BitVec.ofNat 7 n) (BitVec.ofNat 64 v))
      else .error .badOperands

/-- The operands of BW_RAWBYTES: `k` bytes for any `k >= 0` (R87, R89); `k` is how many bytes the
transfer has left (log 4). -/
def decodeRawBytes (l : List Byte) : Except DecodeError Instr := .ok (.bwRawBytes l)

/-- The operands of CRC_UPDATE: the CRC, then the byte sequence, as long as it is (R89, log 4). -/
def decodeCrcUpdate (l : List Byte) : Except DecodeError Instr :=
  match readNat 4 l with
  | none => .error .badOperands
  | some (crc, l) => .ok (.crcUpdate (BitVec.ofNat 32 crc) l)

/-- The operands of CRC_COMBINE: `a`, then `b` (R89). -/
def decodeCrcCombine (l : List Byte) : Except DecodeError Instr :=
  match readNat 4 l with
  | none => .error .badOperands
  | some (a, l) =>
    match readNat 4 l with
    | none => .error .badOperands
    | some (b, l) =>
      if l = [] then .ok (.crcCombine (BitVec.ofNat 32 a) (BitVec.ofNat 32 b))
      else .error .badOperands

/-- Decodes one transfer of the micro-op bus: a code of R88 and its operands. -/
def decodeUop : List Byte → Except DecodeError Instr
  | [] => .error .badOperands
  | code :: l =>
    let noOperand (i : Instr) : Except DecodeError Instr :=
      if l = [] then .ok i else .error .badOperands
    match code.toNat with
    | 0x10 => decodeWriteBits l
    | 0x11 => noOperand .bwPad
    | 0x12 => decodeRawBytes l
    | 0x13 => decodeCrcUpdate l
    | 0x14 => decodeCrcCombine l
    | 0x15 => noOperand .symAnalyze
    | 0x16 => noOperand .rle1Accept
    | 0x17 => noOperand .rle1Finish
    | 0x18 => noOperand .bwtSort
    | 0x19 => noOperand .mtfRun
    | 0x1A => noOperand .rle2Run
    | 0x1B => noOperand .huffBuild
    | 0x1C => noOperand .huffCodes
    | 0x1D => noOperand .selMtf
    | 0x1E => noOperand .blkSerialize
    | 0x1F => noOperand .streamHeader
    | 0x20 => noOperand .streamFooter
    | _ => .error .unknownUop

/-- The decoder. -/
def decode : Encoded → Except DecodeError Instr
  | .command w => decodeCommand w
  | .uop bytes => decodeUop bytes

/-! ### The encoder -/

/-- A command word from its two fields (R80). -/
def commandWord (op : BitVec 8) (imm : BitVec 24) : Word := op ++ imm

/-- The words of an instruction (R81-R84, R88, R89). -/
def encode : Instr → Encoded
  | .config lv => .command (commandWord 0x01 ((0 : BitVec 20) ++ lv))
  | .write n => .command (commandWord 0x02 n)
  | .flush => .command (commandWord 0x03 0)
  | .close => .command (commandWord 0x04 0)
  | .reset => .command (commandWord 0x05 0)
  | .bwWriteBits n v => .uop (0x10 :: (bytesBE 1 n.toNat ++ bytesBE 8 v.toNat))
  | .bwPad => .uop [0x11]
  | .bwRawBytes d => .uop (0x12 :: d)
  | .crcUpdate crc d => .uop (0x13 :: (bytesBE 4 crc.toNat ++ d))
  | .crcCombine a b => .uop (0x14 :: (bytesBE 4 a.toNat ++ bytesBE 4 b.toNat))
  | .symAnalyze => .uop [0x15]
  | .rle1Accept => .uop [0x16]
  | .rle1Finish => .uop [0x17]
  | .bwtSort => .uop [0x18]
  | .mtfRun => .uop [0x19]
  | .rle2Run => .uop [0x1A]
  | .huffBuild => .uop [0x1B]
  | .huffCodes => .uop [0x1C]
  | .selMtf => .uop [0x1D]
  | .blkSerialize => .uop [0x1E]
  | .streamHeader => .uop [0x1F]
  | .streamFooter => .uop [0x20]

/-! ### The opcode table's numbering -/

/-- How many operand bytes follow a uop code when it is given no data bytes. -/
def uopOperandBytes (code : Nat) : Nat :=
  match code with
  | 0x10 => 9
  | 0x13 => 4
  | 0x14 => 8
  | _ => 0

/-- The encoded instruction whose bits the opcode table numbers as `w`: a 32-bit row is a command
word; any other row is a transfer whose first byte is bits 7..0, and the operand bytes above `nbits`
are 0. -/
def tableEncoded (nbits w : Nat) : Encoded :=
  if nbits = 32 then .command (BitVec.ofNat 32 w)
  else
    .uop ((List.range (max (nbits / 8) (1 + uopOperandBytes (w % 256)))).map
      fun i => BitVec.ofNat 8 (w >>> (8 * i)))

/-- The instruction the decoder reads from an opcode-table word. -/
def decodeTableWord (nbits w : Nat) : Option Instr :=
  match decode (tableEncoded nbits w) with
  | .ok i => some i
  | .error _ => none

end Sys2Proof
end

