-- ==== Sys2Proof/Machine/State.lean ====
section
/-! DEFINITION. The state of CORE (10_state.md), the reasons a step can stop, and the state at
power-on (R45, R370). A buffer of 20_memory.md R61 is the list of its live entries: an entry is in
the list when an operation has written it, and a length register (BLK_LEN, M, L) is the length of its
list (log 11). -/

namespace Sys2Proof.Machine

/-- SSTATE, the stream state (10_state.md R22). -/
inductive SState where
  | unconfigured
  | unopened
  | headerWritten
  | closed
  deriving DecidableEq, Repr

/-- The step of a block serialisation PHASE names (10_state.md R23, 48_block_serializer.md R270). -/
inductive SerStep where
  | rle1Finish
  | bwtSort
  | symAnalyze
  | mtfRun
  | rle2Run
  | huffBuild
  | huffCodes
  | selMtf
  | emit
  | complete
  deriving DecidableEq, Repr

/-- PHASE, the orchestrator's position inside a command (10_state.md R23). -/
inductive Phase where
  | idle
  | header
  | accept
  | serialize (step : SerStep)
  | footer
  deriving DecidableEq, Repr

/-- The errors of 60_exceptions.md R341. -/
inductive ErrCode where
  | noError
  | configError
  | sinkIOError
  | writeAfterClose
  | unalignedWrite
  | invariantViolation
  | codeLengthOverflow
  | illegalCommand
  | notConfigured
  deriving DecidableEq, Repr

/-- What the world outside CORE does next: the host writes a command word to CMD, attaches a new sink
that will give the listed answers and then `rest` to every further offer (20_memory.md R64,
30_encoding.md R84; log 6), or a single transfer is put on the micro-op bus (log 3). -/
inductive HostEvent where
  | command (w : Word)
  | attachSink (answers : List SinkAnswer) (rest : SinkAnswer)
  | uop (bytes : List Byte)
  deriving DecidableEq, Repr

/-- The state of CORE, with the queues of its ports. -/
structure State where
  /-- SSTATE (R22). -/
  sstate : SState
  /-- PHASE (R23). -/
  phase : Phase
  /-- LEVEL (R24). -/
  level : BitVec 4
  /-- CAP (R25). -/
  cap : BitVec 20
  /-- ERR (R26). -/
  err : ErrCode
  /-- SCRC (R27). -/
  scrc : Word
  /-- BW_ACC (R28). -/
  bwAcc : BitVec 7
  /-- BW_CNT (R28). -/
  bwCnt : BitVec 3
  /-- BLK_BUF[0..BLK_LEN) (R29). -/
  blkBuf : List Byte
  /-- RUN_BYTE (R30). -/
  runByte : Byte
  /-- RUN_LEN (R30). -/
  runLen : BitVec 9
  /-- BCRC (R31). -/
  bcrc : Word
  /-- BLK_FULL (R32). -/
  blkFull : Bool
  /-- BWT_OUT (R33). -/
  bwtOut : List Byte
  /-- PTR (R33). -/
  ptr : BitVec 24
  /-- PRESENT (R34). -/
  present : BitVec 256
  /-- ALPHA (R34). -/
  alpha : List Byte
  /-- MTF_LIST (R35). -/
  mtfList : List Byte
  /-- RANKS (R36), a buffer of its own (log 26). -/
  ranks : List Byte
  /-- SYM[0..L) (R37). -/
  sym : List Nat
  /-- FREQ (R38). -/
  freq : List Nat
  /-- NTREES (R39). -/
  ntrees : BitVec 3
  /-- NSEL (R39). -/
  nsel : BitVec 15
  /-- LEN (R40), one table per tree. -/
  len : List (List Nat)
  /-- CODE (R40), one table per tree. -/
  code : List (List (BitVec 20))
  /-- SEL[0..NSEL) (R41). -/
  sel : List Nat
  /-- SEL_RANK (R41). -/
  selRank : List Nat
  /-- CMD (R42), the last command word. -/
  cmd : Word
  /-- DIN (R42), the last data byte taken. -/
  din : Byte
  /-- RESULT (R42, 30_encoding.md R86). -/
  result : Word
  /-- DOUT (R42), the last byte offered to the sink. -/
  dout : Byte
  /-- The bytes of the current WRITE not yet accepted by a block (R46). -/
  writeIn : List Byte
  /-- The host's actions to come, first first (20_memory.md R71; log 2). -/
  hostQueue : List HostEvent
  /-- The DIN bytes the host has supplied and CORE has not taken (20_memory.md R63). -/
  dinIn : List Byte
  /-- The attached sink's answers to the next offers (20_memory.md R64, parameter `SINK`; log 6). -/
  sinkScript : List SinkAnswer
  /-- The attached sink's answer to every offer after those (log 6). -/
  sinkRest : SinkAnswer
  /-- The bytes the attached sink has accepted, first first (20_memory.md R64). -/
  sinkBytes : List Byte
  /-- The model's own: what the last value-returning uop returned (log 5). -/
  uopRet : Word
  /-- The model's own: the index of the next free value (log 9). -/
  draws : Nat
  /-- The parameter HUFF_TIE (00_scope.md R5, 47_huffman.md R246): of heap nodes of equal weight, those
  whose order numbers are listed are popped first, as listed, then the others by their order number. No
  operation writes it, and the empty list is R246's default (log 16). -/
  tieOrder : List Nat
  deriving DecidableEq, Repr

/-- The invariant breaks behind InvariantViolation (60_exceptions.md R341, R346). -/
inductive Violation where
  /-- A bit width above 64 (40_bit_writer.md R121). -/
  | bitWidth
  /-- A transfer on the micro-op bus that is no uop of 30_encoding.md R88. -/
  | unknownUop
  /-- An index outside a buffer, or outside its written entries (20_memory.md R61, U6). -/
  | indexOutside
  /-- BWT_SORT or BLK_SERIALIZE of an empty block, `N = 0`, which a model that reaches it faults on
  (93_implementation_defined.md U2; R200, R270; log 14). -/
  | emptyBlock
  /-- The block cycle of WRITE did not end (49_stream_commands.md R304 shows it does). -/
  | blockCycle
  deriving DecidableEq, Repr

/-- The errors on which the spec has a model fault (60_exceptions.md R341, column Model): the fault
holds the state with the error's entry (R351) done, and the model claims nothing after it. -/
inductive Fault where
  /-- Raised by BW_RAWBYTES while bits are buffered (R345). Safe: the spec has a model stop here. -/
  | unalignedWrite (entry : State)
  /-- Raised by any uop on an invariant break, and by a transfer that is no uop (R346). Safe: the spec
  has a model stop here. -/
  | invariantViolation (why : Violation) (entry : State)
  /-- Raised by HUFF_BUILD, hence BLK_SERIALIZE, WRITE, FLUSH and CLOSE, with the longest code length
  (R347). Safe: the spec has a model stop here. -/
  | codeLengthOverflow (longest : Nat) (entry : State)
  deriving DecidableEq, Repr

/-- What the model has no meaning for. -/
inductive Refusal where
  /-- Raised by `exec` for an instruction without a meaning. Safe. -/
  | notModelled (mnemonic : String)
  /-- Raised by WRITE: the host supplies fewer DIN bytes than the count (70_reset_and_hazards.md R375,
  U10; log 15). Safe: the spec has a model refuse such a host. -/
  | dinUnderrun
  /-- Raised by `step`: the host acts on CORE while PHASE is not Idle (R375, U10; log 15). Safe: the
  spec has a model refuse such a host. -/
  | hostBusy
  deriving DecidableEq, Repr

/-- The outcome of an instruction or a step. -/
abbrev Result := Host.Outcome State Fault Refusal

/-- CORE at power-on (10_state.md R45, 70_reset_and_hazards.md R370). SSTATE, PHASE, LEVEL, ERR and
BLK_FULL are the spec's; a register the spec leaves unspecified is 0 (log 10) no buffer entry is
written (log 11), and the attached sink accepts every byte (95_test_vectors.md section 3; log 6). -/
def State.reset : State where
  sstate := .unconfigured
  phase := .idle
  level := 0
  cap := 0
  err := .noError
  scrc := 0
  bwAcc := 0
  bwCnt := 0
  blkBuf := []
  runByte := 0
  runLen := 0
  bcrc := 0
  blkFull := false
  bwtOut := []
  ptr := 0
  present := 0
  alpha := []
  mtfList := []
  ranks := []
  sym := []
  freq := []
  ntrees := 0
  nsel := 0
  len := []
  code := []
  sel := []
  selRank := []
  cmd := 0
  din := 0
  result := 0
  dout := 0
  writeIn := []
  hostQueue := []
  dinIn := []
  sinkScript := []
  sinkRest := .ok
  sinkBytes := []
  uopRet := 0
  draws := 0
  tieOrder := []

end Sys2Proof.Machine
end

