-- ==== Sys2Proof/Machine/Flags.lean ====
section
/-! DEFINITION. The flags and the host-visible words: the error codes (60_exceptions.md R341), the
length registers (log 11), EFF (43_rle1_block.md R172), STATUS (10_state.md R43) and the RESULT word
(30_encoding.md R86). -/

namespace Sys2Proof.Machine

/-- The number of an error (R341). -/
def ErrCode.code : ErrCode → BitVec 4
  | .noError => 0
  | .configError => 1
  | .sinkIOError => 2
  | .writeAfterClose => 3
  | .unalignedWrite => 4
  | .invariantViolation => 5
  | .codeLengthOverflow => 6
  | .illegalCommand => 7
  | .notConfigured => 8

/-- Whether the error stays in ERR (R341, column sticky). -/
def ErrCode.sticky : ErrCode → Bool
  | .noError => false
  | .configError => false
  | .sinkIOError => true
  | .writeAfterClose => true
  | .unalignedWrite => true
  | .invariantViolation => true
  | .codeLengthOverflow => true
  | .illegalCommand => false
  | .notConfigured => false

/-- The encoding of SSTATE (R22). -/
def SState.code : SState → BitVec 2
  | .unconfigured => 0
  | .unopened => 1
  | .headerWritten => 2
  | .closed => 3

/-- BLK_LEN (R29). -/
def State.blkLen (s : State) : Nat := s.blkBuf.length

/-- M, the size of the reduced alphabet (R34). -/
def State.m (s : State) : Nat := s.alpha.length

/-- The size `A = M + 2` of the RLE2 alphabet (46_rle2.md R233, 47_huffman.md R240). -/
def State.alphabetSize (s : State) : Nat := s.m + 2

/-- L, the number of RLE2 symbols (R37). -/
def State.symLen (s : State) : Nat := s.sym.length

/-- A length byte is pending: the open unit has 4 or more copies (R30, R172). -/
def lengthPending (runLen : BitVec 9) : Bool := Config.rle1Lit ≤ runLen.toNat

/-- EFF (R172). -/
def State.eff (s : State) : Nat := s.blkLen + (if lengthPending s.runLen then 1 else 0)

/-- The open block has accepted no byte (43_rle1_block.md R183). -/
def State.blockEmpty (s : State) : Bool := s.blkBuf.isEmpty && s.runLen == 0

/-- The header-written flag, `SSTATE >= 2` (R22, R44). -/
def State.headerFlag (s : State) : Bool :=
  match s.sstate with
  | .unconfigured => false
  | .unopened => false
  | .headerWritten => true
  | .closed => true

/-- The error state, `ERR != 0` (R44). -/
def State.errorFlag (s : State) : Bool := s.err != .noError

/-- The LEVEL field of STATUS: 0 while SSTATE is Unconfigured (R43). -/
def State.statusLevel (s : State) : BitVec 4 :=
  match s.sstate with
  | .unconfigured => 0
  | .unopened => s.level
  | .headerWritten => s.level
  | .closed => s.level

/-- STATUS (R43): [31:14] reserved 0, [13] BLK_NONEMPTY, [12:9] LEVEL, [8:6] BW_CNT, [5:2] ERR,
[1:0] SSTATE. -/
def State.statusWord (s : State) : Word :=
  (0 : BitVec 18) ++ BitVec.ofBool (!s.blockEmpty) ++ s.statusLevel ++ s.bwCnt ++ s.err.code ++
    s.sstate.code

/-- The RESULT word (30_encoding.md R86): `err` [31:28], reserved 0, `count` [23:0]. -/
def resultWord (e : ErrCode) (count : BitVec 24) : Word := e.code ++ (0 : BitVec 4) ++ count

end Sys2Proof.Machine
end

