-- ==== Sys2Proof/Machine/Ops.lean ====
section
/-! DEFINITION. The operations every unit shares: sequencing, the entry of an error (60_exceptions.md
R351) and its return (R352), the completion of a command (49_stream_commands.md R300), and the sink
port (20_memory.md R64). -/

namespace Sys2Proof.Machine

/-! ### Sequencing -/

/-- Runs `f` on the next state of `o`; a fault or a refusal ends the sequence. -/
def andThen (o : Result) (f : State → Result) : Result :=
  match o with
  | .next s => f s
  | .fault r => .fault r
  | .refused r => .refused r

/-- The next state of an outcome, if it is one. -/
def nextState (o : Result) : Option State :=
  match o with
  | .next s => some s
  | .fault _ => none
  | .refused _ => none

/-- Sets PHASE (10_state.md R23). -/
def State.setPhase (s : State) (p : Phase) : State := { s with phase := p }

/-! ### Error entry and return -/

/-- The entry of error `e` (R351): ERR is written when `e` is sticky (R341), and nothing else is
saved. -/
def State.raise (s : State) (e : ErrCode) : State :=
  { s with err := if e.sticky then e else s.err }

/-- The entry of UnalignedWrite (R345), on which a model faults. -/
def faultUnaligned (s : State) : Result := .fault (.unalignedWrite (s.raise .unalignedWrite))

/-- The entry of InvariantViolation (R346), on which a model faults. A uop that would form an index
outside a buffer enters it before it writes anything (DESIGN CHOICE, log 29). -/
def faultInvariant (why : Violation) (s : State) : Result :=
  .fault (.invariantViolation why (s.raise .invariantViolation))

/-- The entry of CodeLengthOverflow (R347), on which a model faults. -/
def faultOverflow (longest : Nat) (s : State) : Result :=
  .fault (.codeLengthOverflow longest (s.raise .codeLengthOverflow))

/-- Return from a sticky error (R352) and the common part of CONFIG and RESET
(49_stream_commands.md R301, R309): the stream, the bit writer and the block start afresh. BLK_BUF has
no live entry once BLK_LEN is 0 (log 11); RUN_BYTE and the working buffers are not written (log 12). -/
def State.restart (s : State) : State :=
  { s with
    sstate := .unopened
    err := .noError
    scrc := 0
    bwAcc := 0
    bwCnt := 0
    blkBuf := []
    runLen := 0
    bcrc := 0
    blkFull := false }

/-! ### Completion of a command -/

/-- Completion (R300): RESULT is written and PHASE returns to Idle. -/
def State.answer (s : State) (e : ErrCode) (count : BitVec 24) : State :=
  { s with result := resultWord e count, phase := .idle }

/-- A command that ends at error `e` found by a check (R342, R344, R348, R349, R350). -/
def State.failWith (s : State) (e : ErrCode) (count : BitVec 24) : State :=
  (s.raise e).answer e count

/-- A command whose rule has run: RESULT.err is the error raised inside it, which ERR holds since ERR
was 0 when it began (R350 step 5, R351). -/
def State.finish (s : State) (count : BitVec 24) : State := s.answer s.err count

/-- The state inside a fault is given RESULT.err (R347), with `count` computed from it. -/
def Fault.inCommand (count : State → BitVec 24) : Fault → Fault
  | .unalignedWrite t => .unalignedWrite (t.answer .unalignedWrite (count t))
  | .invariantViolation w t => .invariantViolation w (t.answer .invariantViolation (count t))
  | .codeLengthOverflow n t => .codeLengthOverflow n (t.answer .codeLengthOverflow (count t))

/-- Ends a command: a next state is completed, a fault is given RESULT. -/
def endCommand (finish : State → State) (count : State → BitVec 24) (o : Result) : Result :=
  match o with
  | .next s => .next (finish s)
  | .fault r => .fault (r.inCommand count)
  | .refused r => .refused r

/-! ### The writer's view of the state and the sink port -/

/-- What the bit writer works on: BW_ACC, BW_CNT, ERR, DOUT and the sink port. -/
structure Writer where
  acc : BitVec 7
  cnt : BitVec 3
  err : ErrCode
  dout : Byte
  script : List SinkAnswer
  rest : SinkAnswer
  bytes : List Byte
  draws : Nat
  deriving DecidableEq, Repr

/-- The bit writer's part of the state. -/
def State.writer (s : State) : Writer where
  acc := s.bwAcc
  cnt := s.bwCnt
  err := s.err
  dout := s.dout
  script := s.sinkScript
  rest := s.sinkRest
  bytes := s.sinkBytes
  draws := s.draws

/-- Puts the bit writer's part back; nothing else of the state changes. -/
def State.setWriter (s : State) (w : Writer) : State :=
  { s with
    bwAcc := w.acc
    bwCnt := w.cnt
    err := w.err
    dout := w.dout
    sinkScript := w.script
    sinkRest := w.rest
    sinkBytes := w.bytes
    draws := w.draws }

/-- The sink's answer to the offer `k` places ahead (R64; log 6). -/
def Writer.answerAt (w : Writer) (k : Nat) : SinkAnswer := w.script.getD k w.rest

/-- `SinkWrite(b)` (R64): the byte stands on DOUT; it is delivered when the sink answers ok, and a
fail raises SinkIOError (60_exceptions.md R343) without delivering it. -/
def Writer.offer (w : Writer) (b : Byte) : Writer :=
  let w' := { w with dout := b, script := w.script.tail }
  match w.answerAt 0 with
  | .ok => { w' with bytes := w.bytes ++ [b] }
  | .fail => { w' with err := .sinkIOError }

/-! ### The host's queue -/

/-- Takes the host's next action. -/
def fetch (s : State) : Option (HostEvent × State) :=
  match s.hostQueue with
  | [] => none
  | e :: es => some (e, { s with hostQueue := es })

/-- The host attaches a new sink, which has accepted nothing yet (20_memory.md R64, 30_encoding.md
R84; log 6). The rules have the host attach before RESET and say nothing of a sink that no RESET follows
(60_exceptions.md R357): that the new sink serves at once, in the middle of a stream too, is the model's
choice (DESIGN CHOICE, log 30). -/
def attachSink (answers : List SinkAnswer) (rest : SinkAnswer) (s : State) : State :=
  { s with sinkScript := answers, sinkRest := rest, sinkBytes := [] }

/-- The host's action that brings an encoded instruction to CORE. -/
def eventOf : Encoded → HostEvent
  | .command w => .command w
  | .uop bytes => .uop bytes

/-- The DIN bytes the host supplies with an encoded instruction whose operand words are zeros: `n` for
a WRITE of `n` bytes (30_encoding.md R83), none otherwise. -/
def zeroDin (e : Encoded) : List Byte :=
  match decode e with
  | .ok (.write n) => List.replicate n.toNat 0
  | _ => []

end Sys2Proof.Machine
end

