-- ==== Sys2Proof/Machine/Operands.lean ====
section
/-! DEFINITION. The operands of the commands and uops: the level field (30_encoding.md R82), the
bytes of a WRITE on DIN (R83, 20_memory.md R63), and the bit fields of the bit writer (R89). -/

namespace Sys2Proof.Machine

/-- The level a CONFIG field selects (R82): 0 is the default sentinel, 10..15 none. -/
def levelOf (lv : BitVec 4) : Option (BitVec 4) :=
  if lv = 0 then some Config.defaultLevel else if lv ≤ 9 then some lv else none

/-- The capacity of a level, `CAP = LEVEL × 100000` (10_state.md R25). -/
def capOf (level : BitVec 4) : BitVec 20 := BitVec.ofNat 20 (level.toNat * Config.levelUnit)

/-- The host has supplied the `n` bytes of a WRITE (R83, 70_reset_and_hazards.md R375). -/
def State.dinReady (s : State) (n : BitVec 24) : Bool := n.toNat ≤ s.dinIn.length

/-- The last byte of `l`, or `d` when there is none: what DIN holds after the bytes of `l`. -/
def lastByte (d : Byte) (l : List Byte) : Byte := l.getLastD d

/-- Takes the `n` bytes of a WRITE from DIN; they are its unconsumed input (R63). -/
def State.takeDin (s : State) (n : BitVec 24) : State :=
  let d := s.dinIn.take n.toNat
  { s with dinIn := s.dinIn.drop n.toNat, din := lastByte s.din d, writeIn := d }

/-- Reads and discards the `n` bytes of a WRITE (60_exceptions.md R350). -/
def State.discardDin (s : State) (n : BitVec 24) : State :=
  { s with
    dinIn := s.dinIn.drop n.toNat
    din := lastByte s.din (s.dinIn.take n.toNat) }

/-- The RESULT.count of a WRITE ended by an error: any value in 0..n (49_stream_commands.md R305;
log 8). -/
def State.freeCount (s : State) (n : BitVec 24) : BitVec 24 :=
  BitVec.ofNat 24 (Config.freeCount s.draws % (n.toNat + 1))

/-- The `n` low bits of `v`, bit `n-1` first (00_scope.md R8, 40_bit_writer.md R121). -/
def msbFirst (n : Nat) (v : BitVec 64) : List Bool := (List.range n).reverse.map v.getLsbD

/-- One field of the output: a width of 0..64 bits and a value (20_memory.md R67). -/
structure Field where
  width : Nat
  value : BitVec 64
  deriving DecidableEq, Repr

/-- The bits of a field, in the order they are sent. -/
def Field.bits (f : Field) : List Bool := msbFirst f.width f.value

end Sys2Proof.Machine
end

