-- ==== Sys2Proof/Machine/BitWriter.lean ====
section
/-! DEFINITION. The bit writer (40_bit_writer.md R120-R127): BW_WRITEBITS, BW_PAD, BW_RAWBYTES. -/

namespace Sys2Proof.Machine

/-- One pass of R121's loop: the bit joins BW_ACC, and a full byte is offered to the sink. While ERR is
set nothing is done (R126). After a failed byte BW_ACC and BW_CNT are free values (R122; log 7). -/
def Writer.shiftBit (w : Writer) (b : Bool) : Writer :=
  if w.err ≠ .noError then w
  else
    let acc8 : BitVec 8 := w.acc ++ BitVec.ofBool b
    if w.cnt = 7 then
      let w' := { w with acc := 0, cnt := 0 }.offer acc8
      if w'.err = .noError then w'
      else
        { w' with
          acc := Config.freeBwAcc w'.draws
          cnt := Config.freeBwCnt w'.draws
          draws := w'.draws + 1 }
    else { w with acc := acc8.extractLsb' 0 7, cnt := w.cnt + 1 }

/-- The bits `l` are written in order. -/
def Writer.writeBitList (w : Writer) (l : List Bool) : Writer := l.foldl Writer.shiftBit w

/-- `WriteBits(n, v)` for a width of at most 64 (R121). -/
def Writer.writeBits (w : Writer) (n : Nat) (v : BitVec 64) : Writer := w.writeBitList (msbFirst n v)

/-- BW_PAD (R124): zero bits up to the next byte boundary. -/
def Writer.pad (w : Writer) : Writer :=
  if w.err ≠ .noError then w
  else if w.cnt = 0 then w
  else w.writeBits (8 - w.cnt.toNat) 0

/-- One byte of the raw-byte path (R125). -/
def Writer.rawByte (w : Writer) (b : Byte) : Writer := if w.err ≠ .noError then w else w.offer b

/-- A list of fields is written in order. -/
def Writer.writeFields (w : Writer) (fs : List Field) : Writer :=
  fs.foldl (fun w f => w.writeBits f.width f.value) w

/-- `WriteBits(n, v)` on the state, for a width of at most 64. -/
def State.writeBits (s : State) (n : Nat) (v : BitVec 64) : State :=
  s.setWriter (s.writer.writeBits n v)

/-- A list of fields is written in order. -/
def State.writeFields (s : State) (fs : List Field) : State :=
  s.setWriter (s.writer.writeFields fs)

/-- BW_PAD on the state. -/
def State.pad (s : State) : State := s.setWriter s.writer.pad

/-- BW_WRITEBITS (R121): a width above 64 is an InvariantViolation, found before anything else. -/
def execBwWriteBits (n : BitVec 7) (v : BitVec 64) (s : State) : Result :=
  if Config.bwMaxWidth < n.toNat then faultInvariant .bitWidth s
  else .next (s.writeBits n.toNat v)

/-- BW_PAD (R124). -/
def execBwPad (s : State) : Result := .next s.pad

/-- BW_RAWBYTES (R125): nothing while ERR is set, UnalignedWrite while bits are buffered, else the
bytes in order up to the first the sink fails. -/
def execBwRawBytes (d : List Byte) (s : State) : Result :=
  if s.err ≠ .noError then .next s
  else if s.bwCnt ≠ 0 then faultUnaligned s
  else .next (s.setWriter (d.foldl Writer.rawByte s.writer))

end Sys2Proof.Machine
end

