-- ==== Sys2Proof/Machine/Bwt.lean ====
section
/-! DEFINITION. The BWT engine (44_bwt.md R200-R206): BWT_SORT. -/

namespace Sys2Proof.Machine

/-- `rot(i)`: the block read from index `i`, wrapping from its end to its start (R200). -/
def rot (S : List Byte) (i : Nat) : List Byte := S.drop i ++ S.take i

/-- The first difference of two byte sequences decides their order, bytes compared unsigned (R201). -/
def lexCmp : List Byte → List Byte → Ordering
  | [], _ => .eq
  | _ :: _, [] => .eq
  | x :: xs, y :: ys =>
    if x.toNat < y.toNat then .lt else if y.toNat < x.toNat then .gt else lexCmp xs ys

/-- The order of rotations (R201), equal ones by their start index (R202). -/
def rotLe (S : List Byte) (i j : Nat) : Bool :=
  match lexCmp (rot S i) (rot S j) with
  | .lt => true
  | .gt => false
  | .eq => i ≤ j

/-- `order`: the start indexes 0..N-1 in the order of their rotations (R200). -/
def bwtOrder (S : List Byte) : List Nat :=
  (List.range S.length).insertionSort (fun i j => rotLe S i j = true)

/-- BWT_OUT: the last byte of each rotation in order, `S[(order[r] + N - 1) mod N]` (R200). The index
is below `N`. -/
def bwtBytes (S : List Byte) : List Byte :=
  (bwtOrder S).map fun i => S.getD ((i + S.length - 1) % S.length) 0

/-- PTR: the place of the original rotation in the order (R200). -/
def bwtPointer (S : List Byte) : Nat := (bwtOrder S).idxOf 0

/-- BWT_SORT (R200), over the committed bytes of the block (log 18). `N` is 1..CAP: a model that reaches
`N = 0` faults (93_implementation_defined.md U2; log 14), and so does one whose block is longer than
BLK_BUF, in both cases before anything is written (DESIGN CHOICE, log 29). -/
def execBwtSort (s : State) : Result :=
  if s.blkBuf = [] then faultInvariant .emptyBlock s
  else if Config.capMax < s.blkLen then faultInvariant .indexOutside s
  else .next { s with bwtOut := bwtBytes s.blkBuf, ptr := BitVec.ofNat 24 (bwtPointer s.blkBuf) }

end Sys2Proof.Machine
end

