-- ==== Sys2Proof/Machine/Mtf.lean ====
section
/-! DEFINITION. Move-to-front (45_mtf.md R220-R222, 47_huffman.md R251): MTF_RUN. -/

namespace Sys2Proof.Machine

/-- The entry at index `r` moves to the front, the entries before it shift back by one (R220). -/
def toFront {α : Type} (l : List α) (r : Nat) (x : α) : List α := x :: (l.take r ++ l.drop (r + 1))

/-- The ranks of the data in a recency list, and the list afterwards; none when a value is not in the
list (R220). -/
def mtfGo {α : Type} [DecidableEq α] : List α → List α → Option (List Nat × List α)
  | l, [] => some ([], l)
  | l, x :: xs =>
    let r := l.idxOf x
    if r < l.length then
      match mtfGo (toFront l r x) xs with
      | some (rs, l') => some (r :: rs, l')
      | none => none
    else none

/-- MTF_RUN (R220): the recency list starts as ALPHA (R221). A byte outside ALPHA faults before a rank is
written (DESIGN CHOICE, log 29). -/
def execMtfRun (s : State) : Result :=
  if Config.byteValues < s.m ∨ Config.capMax < s.bwtOut.length then faultInvariant .indexOutside s
  else
    match mtfGo s.alpha s.bwtOut with
    | some (rs, l) => .next { s with mtfList := l, ranks := rs.map (BitVec.ofNat 8) }
    | none => faultInvariant .indexOutside s

end Sys2Proof.Machine
end

