-- ==== Sys2Proof/Machine/Huffman.lean ====
section
/-! DEFINITION. The Huffman tree generator and canonical encoder (47_huffman.md R240-R252):
HUFF_BUILD, HUFF_CODES, SEL_MTF. -/

namespace Sys2Proof.Machine

/-! ### Schedule -/

/-- NSEL = max(1, ceil(L / 50)) (R241). -/
def nselOf (l : Nat) : Nat := max 1 ((l + Config.group - 1) / Config.group)

/-- NTREES (R242). -/
def ntreesOf (nsel : Nat) : Nat := if nsel ≤ 2 then Config.minTrees else min nsel Config.maxTrees

/-- SEL: round-robin (R250). -/
def scheduleOf (nsel ntrees : Nat) : List Nat := (List.range nsel).map (· % ntrees)

/-! ### The tree -/

/-- A merge tree; a leaf carries its symbol (R244, R245). -/
inductive HuffTree where
  | leaf (symbol : Nat)
  | node (p q : HuffTree)
  deriving DecidableEq, Repr

/-- A heap node: its weight, its order number and the tree below it (R244, R245). -/
structure HeapNode where
  weight : Nat
  order : Nat
  tree : HuffTree
  deriving DecidableEq, Repr

/-- The place of an order number in the tie order `tie`, the parameter `HUFF_TIE` (R5, R246): the listed
numbers first, as listed, then the others ascending. With nothing listed it is the order number itself,
the default of R246 (log 16). -/
def tieKey (tie : List Nat) (k : Nat) : Nat := if k ∈ tie then tie.idxOf k else tie.length + k

/-- `p` is popped before `q`: the lesser weight, then the tie order (R246). -/
def HeapNode.before (tie : List Nat) (p q : HeapNode) : Bool :=
  decide (p.weight < q.weight) ||
    (p.weight == q.weight && decide (tieKey tie p.order < tieKey tie q.order))

/-- Pops the least node of a heap (R246). -/
def popLeast (tie : List Nat) : List HeapNode → Option (HeapNode × List HeapNode)
  | [] => none
  | n :: ns =>
    match popLeast tie ns with
    | none => some (n, [])
    | some (m, rest) => if m.before tie n then some (m, n :: rest) else some (n, m :: rest)

/-- One merge (R245): the two least nodes become the children of a new node with order number `k`. -/
def mergeStep (tie : List Nat) (k : Nat) (heap : List HeapNode) : List HeapNode :=
  match popLeast tie heap with
  | none => heap
  | some (p, rest) =>
    match popLeast tie rest with
    | none => heap
    | some (q, rest) =>
      { weight := p.weight + q.weight, order := k, tree := .node p.tree q.tree } :: rest

/-- `n` merges, the first new node numbered `k` (R245). -/
def mergeLoop (tie : List Nat) : Nat → Nat → List HeapNode → List HeapNode
  | 0, _, heap => heap
  | n + 1, k, heap => mergeLoop tie n (k + 1) (mergeStep tie k heap)

/-- The leaves: symbol `s` with weight `FREQ[s]` and order number `s` (R244). -/
def leavesOf (freq : List Nat) : List HeapNode :=
  freq.zipIdx.map fun p => { weight := p.1, order := p.2, tree := .leaf p.2 }

/-- The final tree, after `A - 1` merges (R245). -/
def huffTree (tie freq : List Nat) : Option HuffTree :=
  ((mergeLoop tie (freq.length - 1) freq.length (leavesOf freq)).head?).map HeapNode.tree

/-- The depth of a symbol's leaf, the root at depth 0 (R247). -/
def HuffTree.depth : HuffTree → Nat → Option Nat
  | .leaf x, y => if x = y then some 0 else none
  | .node p q, y =>
    match p.depth y with
    | some d => some (d + 1)
    | none =>
      match q.depth y with
      | some d => some (d + 1)
      | none => none

/-- HUFFLEN: the code length of each symbol (R244-R247). -/
def huffLengths (tie freq : List Nat) : Option (List Nat) :=
  match huffTree tie freq with
  | none => none
  | some t => (List.range freq.length).mapM t.depth

/-- The greatest of a list of lengths. -/
def maxLength (lens : List Nat) : Nat := lens.foldl max 0

/-- The least of a list of lengths. -/
def minLength (lens : List Nat) : Nat :=
  match lens with
  | [] => 0
  | l :: ls => ls.foldl min l

/-- HUFF_BUILD (R240). CodeLengthOverflow when a code is longer than 20 bits (R249), NSEL and NTREES being
written by then. An index outside FREQ or SEL faults before NSEL and NTREES are written (DESIGN CHOICE,
log 29). -/
def execHuffBuild (s : State) : Result :=
  let a := s.alphabetSize
  let nsel := nselOf s.symLen
  let ntrees := ntreesOf nsel
  if s.freq.length < a ∨ Config.byteValues < s.m ∨ Config.selMax < nsel then
    faultInvariant .indexOutside s
  else
    match huffLengths s.tieOrder (s.freq.take a) with
    | none => faultInvariant .indexOutside s
    | some lens =>
      if Config.maxCodeLen < maxLength lens then
        faultOverflow (maxLength lens)
          { s with nsel := BitVec.ofNat 15 nsel, ntrees := BitVec.ofNat 3 ntrees }
      else
        .next
          { s with
            nsel := BitVec.ofNat 15 nsel
            ntrees := BitVec.ofNat 3 ntrees
            len := List.replicate ntrees lens
            sel := scheduleOf nsel ntrees }

/-! ### Canonical codes -/

/-- The codes of length `n`, in symbol order from value `v` on, written into `codes`; and the value
after them (R248). -/
def assignLength (n : Nat) : List Nat → List Nat → Nat → List Nat × Nat
  | l :: ls, c :: cs, v =>
    if l = n then
      let r := assignLength n ls cs (v + 1)
      (v :: r.1, r.2)
    else
      let r := assignLength n ls cs v
      (c :: r.1, r.2)
  | [], cs, v => (cs, v)
  | _ :: _, [], v => ([], v)

/-- R248's loop over `k` lengths from `n` on. -/
def assignFrom (lens : List Nat) : Nat → Nat → List Nat → Nat → List Nat
  | 0, _, codes, _ => codes
  | k + 1, n, codes, v =>
    let r := assignLength n lens codes v
    assignFrom lens k (n + 1) r.1 (r.2 * 2)

/-- The canonical codes of one table of lengths (R248); every entry is assigned, since every length
lies between the least and the greatest. -/
def canonicalCodes (lens : List Nat) : List Nat :=
  assignFrom lens (maxLength lens + 1 - minLength lens) (minLength lens)
    (List.replicate lens.length 0) 0

/-- The operand of HUFF_CODES, LEN[0..NTREES)[0..A) (R248). -/
def liveLengths (s : State) : List (List Nat) :=
  (s.len.take s.ntrees.toNat).map fun lens => lens.take s.alphabetSize

/-- HUFF_CODES (R248), for each of the NTREES tables of LEN. An entry of LEN[0..NTREES)[0..A) that is not
written faults (log 11), before a code is written (DESIGN CHOICE, log 29). -/
def execHuffCodes (s : State) : Result :=
  if Config.byteValues < s.m ∨ s.len.length < s.ntrees.toNat ∨
      (liveLengths s).any (fun lens => lens.length < s.alphabetSize) then
    faultInvariant .indexOutside s
  else
    .next { s with code := (liveLengths s).map fun lens => (canonicalCodes lens).map (BitVec.ofNat 20) }

/-! ### Selectors -/

/-- SEL_MTF (R251): move-to-front of SEL[0..NSEL) against the identity list of NTREES entries. An entry of
SEL that is not written, or not below NTREES, faults before a rank is written (DESIGN CHOICE, log 29). -/
def execSelMtf (s : State) : Result :=
  if s.sel.length < s.nsel.toNat then faultInvariant .indexOutside s
  else
    match mtfGo (List.range s.ntrees.toNat) (s.sel.take s.nsel.toNat) with
    | some (rs, _) => .next { s with selRank := rs }
    | none => faultInvariant .indexOutside s

end Sys2Proof.Machine
end

