-- ==== Sys2Proof/Machine/Crc.lean ====
section
/-! DEFINITION. The CRC-32 datapath (41_crc32.md R140-R146): CRC_UPDATE, CRC_COMBINE. -/

namespace Sys2Proof.Machine

/-- One of the 8 rounds of R141. -/
def crcRound (c : Word) : Word := if c.msb then (c <<< 1) ^^^ 0x04C11DB7 else c <<< 1

/-- `CRC_T[i]` (10_state.md R48, 41_crc32.md R141). -/
def crcT (i : Byte) : Word :=
  crcRound (crcRound (crcRound (crcRound (crcRound (crcRound (crcRound (crcRound (i ++ (0 : BitVec 24)))))))))

/-- One byte of R142's loop. -/
def crcByte (c : Word) (d : Byte) : Word := (c <<< 8) ^^^ crcT (c.extractLsb' 24 8 ^^^ d)

/-- `CRC_UPDATE(crc, d)` (R142), complementing on entry and on exit. -/
def crcUpdate (crc : Word) (d : List Byte) : Word := ~~~(d.foldl crcByte (~~~crc))

/-- `CRC_COMBINE(a, b)` (R144). -/
def crcCombine (a b : Word) : Word := ((a <<< 1) ||| (a >>> 31)) ^^^ b

/-- CRC_UPDATE (R142) writes no register of CORE; its value is returned (log 5). -/
def execCrcUpdate (crc : Word) (d : List Byte) (s : State) : Result :=
  .next { s with uopRet := crcUpdate crc d }

/-- CRC_COMBINE (R144) writes no register of CORE; its value is returned (log 5). -/
def execCrcCombine (a b : Word) (s : State) : Result := .next { s with uopRet := crcCombine a b }

end Sys2Proof.Machine
end

