-- ==== Sys2Proof/Machine/Rle1.lean ====
section
/-! DEFINITION. RLE stage 1 and the block accumulator (43_rle1_block.md R170-R184): RLE1_ACCEPT,
RLE1_FINISH. -/

namespace Sys2Proof.Machine

/-- The open block (R171): the committed bytes, the open unit and the block CRC. -/
structure Block where
  buf : List Byte
  runByte : Byte
  runLen : BitVec 9
  bcrc : Word
  deriving DecidableEq, Repr

/-- The open block of the state. -/
def State.block (s : State) : Block where
  buf := s.blkBuf
  runByte := s.runByte
  runLen := s.runLen
  bcrc := s.bcrc

/-- Puts the open block back; nothing else of the state changes. -/
def State.setBlock (s : State) (b : Block) : State :=
  { s with blkBuf := b.buf, runByte := b.runByte, runLen := b.runLen, bcrc := b.bcrc }

/-- The open unit's pending length byte, value `RUN_LEN - 4`, if it has one (10_state.md R30). -/
def Block.pending (b : Block) : List Byte :=
  if lengthPending b.runLen then [BitVec.ofNat 8 (b.runLen.toNat - Config.rle1Lit)] else []

/-- EFF (R172). -/
def Block.eff (b : Block) : Nat := b.buf.length + (if lengthPending b.runLen then 1 else 0)

/-- Writes bytes at BLK_BUF[BLK_LEN..), if the buffer has those entries (20_memory.md R61). -/
def Block.commit (b : Block) (l : List Byte) : Option Block :=
  if b.buf.length + l.length ≤ Config.capMax then some { b with buf := b.buf ++ l } else none

/-- Folds an accepted byte into BCRC (R180, 41_crc32.md R145). -/
def Block.fold (b : Block) (x : Byte) : Block := { b with bcrc := crcUpdate b.bcrc [x] }

/-- What becomes of one offered byte. -/
inductive Offered where
  /-- The byte is accepted. -/
  | taken (b : Block)
  /-- The byte is refused and the block is full (R178). -/
  | full
  /-- The byte has no entry of BLK_BUF to go to (20_memory.md R61). -/
  | outside
  deriving DecidableEq, Repr

/-- The byte continues the open unit (R174). -/
def Block.continues (b : Block) (x : Byte) : Bool :=
  b.runLen != 0 && x == b.runByte && decide (b.runLen.toNat < Config.rle1Unit)

/-- One pass of R174's loop, for a block of capacity `cap`. -/
def Block.accept (cap : Nat) (x : Byte) (b : Block) : Offered :=
  if b.continues x then
    if lengthPending b.runLen then .taken ({ b with runLen := b.runLen + 1 }.fold x)
    else if cap < b.eff + (if b.runLen = 3 then 2 else 1) then .full
    else
      match b.commit [x] with
      | some b' => .taken ({ b' with runLen := b.runLen + 1 }.fold x)
      | none => .outside
  else if cap < b.eff + 1 then .full
  else
    match b.commit (b.pending ++ [x]) with
    | some b' => .taken ({ b' with runByte := x, runLen := 1 }.fold x)
    | none => .outside

/-- What RLE1_ACCEPT leaves: the block, BLK_FULL, and the bytes it did not accept. -/
structure Accepted where
  block : Block
  full : Bool
  rest : List Byte
  deriving DecidableEq, Repr

/-- R174's loop over the offered bytes, with the fill test of R178 at their end. -/
def Block.acceptAll (cap : Nat) : List Byte → Block → Option Accepted
  | [], b => some { block := b, full := b.eff == cap, rest := [] }
  | x :: xs, b =>
    match b.accept cap x with
    | .taken b' => Block.acceptAll cap xs b'
    | .full => some { block := b, full := true, rest := x :: xs }
    | .outside => none

/-- RLE1_ACCEPT (R174): its operand is the unconsumed input of the current WRITE, of which it takes the
accepted bytes (log 20); the count of them is returned (log 5). A byte with no entry of BLK_BUF to go to
faults before any byte is taken (DESIGN CHOICE, log 29). -/
def execRle1Accept (s : State) : Result :=
  match s.block.acceptAll s.cap.toNat s.writeIn with
  | some a =>
    .next
      { s.setBlock a.block with
        blkFull := a.full
        writeIn := a.rest
        uopRet := BitVec.ofNat 32 (s.writeIn.length - a.rest.length) }
  | none => faultInvariant .indexOutside s

/-- RLE1_FINISH (R179): commits the pending length byte and closes the open unit. A length byte with no
entry of BLK_BUF to go to faults before the unit is closed (DESIGN CHOICE, log 29). -/
def execRle1Finish (s : State) : Result :=
  match s.block.commit s.block.pending with
  | some b => .next (s.setBlock { b with runLen := 0 })
  | none => faultInvariant .indexOutside s

end Sys2Proof.Machine
end

