-- ==== Sys2Proof/Machine/Rle2.lean ====
section
/-! DEFINITION. RLE stage 2 (46_rle2.md R230-R235): RLE2_RUN. -/

namespace Sys2Proof.Machine

/-- `ZERORUN(z)` (R231): RUNA is 0 and RUNB is 1. The fuel `z` bounds the loop, which halves `z`. -/
def zeroRunGo : Nat → Nat → List Nat
  | 0, _ => []
  | fuel + 1, z =>
    if z = 0 then []
    else if z % 2 = 1 then 0 :: zeroRunGo fuel ((z - 1) / 2)
    else 1 :: zeroRunGo fuel ((z - 2) / 2)

/-- `ZERORUN(z)` (R231). -/
def zeroRun (z : Nat) : List Nat := zeroRunGo z z

/-- The symbols of the ranks, with `z` zeros pending (R230, R232). -/
def rle2Go : List Byte → Nat → List Nat
  | [], z => zeroRun z
  | r :: rs, z => if r = 0 then rle2Go rs (z + 1) else zeroRun z ++ (r.toNat + 1) :: rle2Go rs 0

/-- SYM: the symbols of the ranks, then EOB = `M + 1` (R230, R233). -/
def rle2Symbols (m : Nat) (ranks : List Byte) : List Nat := rle2Go ranks 0 ++ [m + 1]

/-- FREQ over an alphabet of `a` symbols: one more at each emitted symbol (R230). -/
def freqOf (a : Nat) (syms : List Nat) : List Nat :=
  syms.foldl (fun f y => f.modify y (· + 1)) (List.replicate a 0)

/-- RLE2_RUN (R230), over the whole of RANKS (log 18). A symbol past `M + 1` has no entry of FREQ,
and the fault comes before a symbol is written (DESIGN CHOICE, log 29). -/
def execRle2Run (s : State) : Result :=
  let syms := rle2Symbols s.m s.ranks
  if Config.byteValues < s.m ∨ Config.symMax < syms.length ∨ syms.any (s.m + 1 < ·) then
    faultInvariant .indexOutside s
  else .next { s with sym := syms, freq := freqOf s.alphabetSize syms }

end Sys2Proof.Machine
end

