-- ==== Sys2Proof/Machine/SymbolSet.lean ====
section
/-! DEFINITION. The symbol-set analyzer (42_symbol_set.md R160-R162): SYM_ANALYZE. -/

namespace Sys2Proof.Machine

/-- PRESENT: bit `v` is set for every byte value `v` of the data (R160). -/
def presentOf (data : List Byte) : BitVec 256 :=
  data.foldl (fun p x => p ||| ((1 : BitVec 256) <<< x.toNat)) 0

/-- ALPHA: the byte values whose bit is set, ascending (R160). -/
def alphaOf (present : BitVec 256) : List Byte :=
  ((List.range 256).filter present.getLsbD).map (BitVec.ofNat 8)

/-- Range `i` of 16 byte values, as the word of R276: value `16i + j` is bit `15 - j`
(30_encoding.md R94). -/
def rangeWord (present : BitVec 256) (i : Nat) : BitVec 16 :=
  (present.extractLsb' (16 * i) 16).reverse

/-- Range `i` is used (R161). -/
def rangeUsed (present : BitVec 256) (i : Nat) : Bool := present.extractLsb' (16 * i) 16 != 0

/-- SYM_ANALYZE (R160), over the whole of BWT_OUT (log 18). -/
def execSymAnalyze (s : State) : Result :=
  let p := presentOf s.bwtOut
  .next { s with present := p, alpha := alphaOf p }

end Sys2Proof.Machine
end

