-- ==== Sys2Proof/Machine/Serializer.lean ====
section
/-! DEFINITION. The block encoder and serializer (48_block_serializer.md R270-R284, 30_encoding.md
R93-R97): BLK_SERIALIZE. Each field of the block layout is a list of bit-writer fields, so the emission
phase is one list written in order. -/

namespace Sys2Proof.Machine

/-- A field of `n` bits with value `v`. -/
def fieldOf (n v : Nat) : Field := { width := n, value := BitVec.ofNat 64 v }

/-- Fields 1 to 4: magic, BCRC, randomized flag, PTR (R271-R274). -/
def headFields (s : State) : List Field :=
  [fieldOf 48 0x314159265359, fieldOf 32 s.bcrc.toNat, fieldOf 1 0, fieldOf 24 s.ptr.toNat]

/-- The value of field 5: range `i` is bit `15 - i` (R275). -/
def rangeBitmap (present : BitVec 256) : BitVec 16 :=
  (List.range 16).foldl
    (fun u i => if rangeUsed present i then u ||| ((1 : BitVec 16) <<< (15 - i)) else u) 0

/-- Fields 5 and 6: the range bitmap and one word per used range (R275, R276). -/
def rangeFields (present : BitVec 256) : List Field :=
  fieldOf 16 (rangeBitmap present).toNat ::
    ((List.range 16).filter (rangeUsed present)).map fun i =>
      fieldOf 16 (rangeWord present i).toNat

/-- Fields 7 and 8: NTREES and NSEL (R277, R278). -/
def countFields (s : State) : List Field := [fieldOf 3 s.ntrees.toNat, fieldOf 15 s.nsel.toNat]

/-- One selector code of field 9: `r` one-bits and a zero-bit (R279). -/
def selectorField (r : Nat) : Field := fieldOf (r + 1) ((2 ^ r - 1) * 2)

/-- The code for one length of field 10, from the length `cur` before it (R280). -/
def lengthFields (cur l : Nat) : List Field :=
  List.replicate (l - cur) (fieldOf 2 0b10) ++ List.replicate (cur - l) (fieldOf 2 0b11) ++
    [fieldOf 1 0]

/-- The codes for the lengths of one tree, each from the one before it (R280). -/
def lengthsFields : Nat → List Nat → List Field
  | _, [] => []
  | cur, l :: ls => lengthFields cur l ++ lengthsFields l ls

/-- One tree of field 10: the 5-bit start length, then the codes (R280). -/
def treeFields (lens : List Nat) : List Field :=
  fieldOf 5 (minLength lens) :: lengthsFields (minLength lens) lens

/-- One code of field 11: symbol `y` in tree `t` (R281); none when a table has no such entry. -/
def codeField (s : State) (t y : Nat) : Option Field :=
  match s.len[t]?, s.code[t]? with
  | some lens, some codes =>
    match lens[y]?, codes[y]? with
    | some l, some c => some (fieldOf l c.toNat)
    | _, _ => none
  | _, _ => none

/-- The field 11 entry of symbol number `k`, value `y`: its tree is SEL[floor(k / 50)] (R281). -/
def symbolField (s : State) (y k : Nat) : Option Field :=
  match s.sel[k / Config.group]? with
  | some t => codeField s t y
  | none => none

/-- Field 11: the code of each symbol in order (R281). -/
def symbolFields (s : State) : Option (List Field) :=
  s.sym.zipIdx.mapM fun p => symbolField s p.1 p.2

/-- Field 9: the code of each of the NSEL selector ranks (R279); none when SEL_RANK has fewer. -/
def selectorFields (s : State) : Option (List Field) :=
  if s.selRank.length < s.nsel.toNat then none
  else some ((s.selRank.take s.nsel.toNat).map selectorField)

/-- The fields of the block in order (30_encoding.md R93). -/
def blockFields (s : State) : Option (List Field) :=
  match selectorFields s, symbolFields s with
  | some selectors, some symbols =>
    some (headFields s ++ rangeFields s.present ++ countFields s ++ selectors ++
      s.len.flatMap treeFields ++ symbols)
  | _, _ => none

/-- The emission phase (R271-R281). An entry it would read that is not written faults before a bit is sent
(DESIGN CHOICE, log 29). -/
def blkEmit (s : State) : Result :=
  match blockFields s with
  | some fs => .next (s.writeFields fs)
  | none => faultInvariant .indexOutside s

/-- Completion (R282), performed when no error was raised. -/
def blkComplete (s : State) : State :=
  { s with scrc := crcCombine s.scrc s.bcrc, blkBuf := [], runLen := 0, bcrc := 0 }

/-- Runs one uop of the block sequence with PHASE at its step (10_state.md R23). -/
def atStep (step : SerStep) (uop : State → Result) (s : State) : Result :=
  uop (s.setPhase (.serialize step))

/-- The transform phase of R270: it writes no output. -/
def blkTransform (s : State) : Result :=
  andThen (atStep .rle1Finish execRle1Finish s) fun s =>
  andThen (atStep .bwtSort execBwtSort s) fun s =>
  andThen (atStep .symAnalyze execSymAnalyze s) fun s =>
  andThen (atStep .mtfRun execMtfRun s) fun s =>
  andThen (atStep .rle2Run execRle2Run s) fun s =>
  andThen (atStep .huffBuild execHuffBuild s) fun s =>
  andThen (atStep .huffCodes execHuffCodes s) fun s =>
  atStep .selMtf execSelMtf s

/-- BLK_SERIALIZE (R270): transform, emission, completion. Its operand is a non-empty block (log 14).
PHASE is back where it was at the end. -/
def execBlkSerialize (s : State) : Result :=
  if s.blockEmpty then faultInvariant .emptyBlock s
  else
    andThen (blkTransform s) fun t =>
    andThen (atStep .emit blkEmit t) fun t =>
    .next
      ((if t.err = .noError then blkComplete (t.setPhase (.serialize .complete)) else t).setPhase
        s.phase)

end Sys2Proof.Machine
end

