-- ==== Sys2Proof/Machine/Stream.lean ====
section
/-! DEFINITION. The stream orchestrator (49_stream_commands.md R300-R312): STREAM_HEADER,
STREAM_FOOTER and the host commands CONFIG, WRITE, FLUSH, CLOSE, RESET, with the check order of
60_exceptions.md R350. -/

namespace Sys2Proof.Machine

/-! ### The uops of the stream -/

/-- The fields of the stream header (R302, 30_encoding.md R92). -/
def streamHeaderFields (level : BitVec 4) : List Field :=
  [fieldOf 16 0x425A, fieldOf 8 0x68, fieldOf 8 (0x30 + level.toNat)]

/-- STREAM_HEADER (R302) on the state. -/
def State.streamHeader (s : State) : State :=
  let t := s.writeFields (streamHeaderFields s.level)
  if t.err = .noError then { t with sstate := .headerWritten } else t

/-- The fields of the footer before its padding (R308, 30_encoding.md R98). -/
def streamFooterFields (scrc : Word) : List Field :=
  [fieldOf 48 0x177245385090, fieldOf 32 scrc.toNat]

/-- STREAM_FOOTER (R308) on the state. -/
def State.streamFooter (s : State) : State := (s.writeFields (streamFooterFields s.scrc)).pad

/-- STREAM_HEADER (R302). -/
def execStreamHeader (s : State) : Result := .next s.streamHeader

/-- STREAM_FOOTER (R308). -/
def execStreamFooter (s : State) : Result := .next s.streamFooter

/-! ### Check order -/

/-- Steps 3, 5 and 6 of R350 for WRITE, FLUSH and CLOSE: the error the command ends at, if any. -/
def State.check (s : State) : Option ErrCode :=
  match s.sstate with
  | .unconfigured => some .notConfigured
  | .unopened => if s.err = .noError then none else some s.err
  | .headerWritten => if s.err = .noError then none else some s.err
  | .closed => if s.err = .noError then some .writeAfterClose else some s.err

/-! ### The parts of a command -/

/-- The header, when SSTATE = Unopened (R303, R307). -/
def State.openStream (s : State) : State :=
  match s.sstate with
  | .unconfigured => s
  | .unopened => (s.setPhase .header).streamHeader
  | .headerWritten => s
  | .closed => s

/-- The block cycle of WRITE (R303, R304): offer the unconsumed bytes, serialise a full block, and go
on until every byte is taken or an error ends the command. The fuel is one more than the bytes
offered, and each pass after a serialisation takes at least one byte. -/
def blockCycle : Nat → State → Result
  | 0, s => faultInvariant .blockCycle s
  | fuel + 1, s =>
    andThen (execRle1Accept (s.setPhase .accept)) fun s =>
    andThen (if s.blkFull then execBlkSerialize { s with blkFull := false } else .next s) fun s =>
    if s.err ≠ .noError then .next s
    else if s.writeIn = [] then .next s
    else blockCycle fuel s

/-- WRITE after its checks: the header, then the block cycle, unless the header raised an error. -/
def writeBody (s : State) : Result :=
  let t := s.openStream
  if t.err ≠ .noError then .next t else blockCycle (t.writeIn.length + 1) t

/-- The serialisation of the open block when it is not empty (R306, R307). -/
def serializeOpen (s : State) : Result := if s.blockEmpty then .next s else execBlkSerialize s

/-- CLOSE after its checks (R307): header, open block, footer, each unless an error was raised. -/
def closeBody (s : State) : Result :=
  let t := s.openStream
  if t.err ≠ .noError then .next t
  else
    andThen (serializeOpen t) fun t =>
    if t.err ≠ .noError then .next t
    else
      let u := (t.setPhase .footer).streamFooter
      .next (if u.err = .noError then { u with sstate := .closed } else u)

/-- The count a command other than WRITE answers (30_encoding.md R86). -/
def noCount (_ : State) : BitVec 24 := 0

/-- A WRITE that ends at an error: the bytes not taken are discarded and the count is a free value
(R305; log 8). -/
def State.failWrite (s : State) (n : BitVec 24) (e : ErrCode) : State :=
  { s.failWith e (s.freeCount n) with writeIn := [], draws := s.draws + 1 }

/-- The end of a WRITE: `count` is `n`, unless an error ended it (R305). -/
def finishWrite (n : BitVec 24) (s : State) : State :=
  if s.err = .noError then s.finish n else s.failWrite n s.err

/-! ### The host commands -/

/-- CONFIG (R301): a good level starts a fresh stream at it; a bad one is a ConfigError and changes
nothing else (R342). -/
def execConfig (lv : BitVec 4) (s : State) : Result :=
  match levelOf lv with
  | some level => .next ({ s.restart with level := level, cap := capOf level }.answer .noError 0)
  | none => .next (s.failWith .configError 0)

/-- WRITE (R303). A host that supplies too few DIN bytes is refused (70_reset_and_hazards.md R375;
log 15). -/
def execWrite (n : BitVec 24) (s : State) : Result :=
  if s.dinReady n then
    match s.check with
    | some e => .next ((s.discardDin n).failWrite n e)
    | none => endCommand (finishWrite n) (fun t => t.freeCount n) (writeBody (s.takeDin n))
  else .refused .dinUnderrun

/-- FLUSH (R306). -/
def execFlush (s : State) : Result :=
  match s.check with
  | some e => .next (s.failWith e 0)
  | none => endCommand (fun t => t.finish 0) noCount (serializeOpen s)

/-- CLOSE (R307). -/
def execClose (s : State) : Result :=
  match s.check with
  | some e => .next (s.failWith e 0)
  | none => endCommand (fun t => t.finish 0) noCount (closeBody s)

/-- RESET (R309): NotConfigured before the first good CONFIG, else a fresh stream at the same level. -/
def execReset (s : State) : Result :=
  match s.sstate with
  | .unconfigured => .next (s.failWith .notConfigured 0)
  | .unopened => .next (s.restart.answer .noError 0)
  | .headerWritten => .next (s.restart.answer .noError 0)
  | .closed => .next (s.restart.answer .noError 0)

/-- A command word that is illegal (60_exceptions.md R348): RESULT only; no DIN byte is taken. -/
def illegalCommand (s : State) : State := s.failWith .illegalCommand 0

end Sys2Proof.Machine
end

