-- ==== Sys2Proof/Machine/Dispatch.lean ====
section
/-! DEFINITION. One arm per instruction, each a call of its meaning. -/

namespace Sys2Proof.Machine

def exec (i : Instr) (s : State) : Host.Outcome State Fault Refusal :=
  match i with
  -- host commands (49_stream_commands.md)
  | .config lv => Sys2Proof.Machine.execConfig lv s
  | .write n => Sys2Proof.Machine.execWrite n s
  | .flush => Sys2Proof.Machine.execFlush s
  | .close => Sys2Proof.Machine.execClose s
  | .reset => Sys2Proof.Machine.execReset s
  -- bit writer (40_bit_writer.md)
  | .bwWriteBits n v => Sys2Proof.Machine.execBwWriteBits n v s
  | .bwPad => Sys2Proof.Machine.execBwPad s
  | .bwRawBytes d => Sys2Proof.Machine.execBwRawBytes d s
  -- CRC-32 datapath (41_crc32.md)
  | .crcUpdate crc d => Sys2Proof.Machine.execCrcUpdate crc d s
  | .crcCombine a b => Sys2Proof.Machine.execCrcCombine a b s
  -- the units of a block (42_symbol_set.md to 48_block_serializer.md)
  | .symAnalyze => Sys2Proof.Machine.execSymAnalyze s
  | .rle1Accept => Sys2Proof.Machine.execRle1Accept s
  | .rle1Finish => Sys2Proof.Machine.execRle1Finish s
  | .bwtSort => Sys2Proof.Machine.execBwtSort s
  | .mtfRun => Sys2Proof.Machine.execMtfRun s
  | .rle2Run => Sys2Proof.Machine.execRle2Run s
  | .huffBuild => Sys2Proof.Machine.execHuffBuild s
  | .huffCodes => Sys2Proof.Machine.execHuffCodes s
  | .selMtf => Sys2Proof.Machine.execSelMtf s
  | .blkSerialize => Sys2Proof.Machine.execBlkSerialize s
  -- stream uops (49_stream_commands.md)
  | .streamHeader => Sys2Proof.Machine.execStreamHeader s
  | .streamFooter => Sys2Proof.Machine.execStreamFooter s

end Sys2Proof.Machine
end

