-- ==== Sys2Proof/Machine/Step.lean ====
section
/-! DEFINITION. One step of CORE: the host's next action is taken from the queue and carried out
(49_stream_commands.md R300). With no action pending CORE is idle and keeps its state (60_exceptions.md
R360). -/

namespace Sys2Proof.Machine

/-- The step. A command or a sink attachment while PHASE is not Idle is outside the host's contract
(70_reset_and_hazards.md R375; log 15). -/
def step (s : State) : Host.Outcome State Fault Refusal :=
  match fetch s with
  | none => .next s
  | some (.command w, t) =>
    match t.phase with
    | .idle =>
      match decode (.command w) with
      | .ok i => exec i { t with cmd := w }
      | .error _ => .next (illegalCommand { t with cmd := w })
    | .header => .refused .hostBusy
    | .accept => .refused .hostBusy
    | .serialize _ => .refused .hostBusy
    | .footer => .refused .hostBusy
  | some (.attachSink answers rest, t) =>
    match t.phase with
    | .idle => .next (attachSink answers rest t)
    | .header => .refused .hostBusy
    | .accept => .refused .hostBusy
    | .serialize _ => .refused .hostBusy
    | .footer => .refused .hostBusy
  | some (.uop bytes, t) =>
    match decode (.uop bytes) with
    | .ok i => exec i t
    | .error _ => faultInvariant .unknownUop t

/-- The state in which the next action of the queue is the opcode-table word `w`, with the zero DIN
bytes a WRITE needs; the next step runs exactly that instruction (log 2). -/
def State.withFetchWord (s : State) (nbits w : Nat) : State :=
  { s with
    hostQueue := eventOf (tableEncoded nbits w) :: s.hostQueue
    dinIn := zeroDin (tableEncoded nbits w) ++ s.dinIn
    phase := .idle }

end Sys2Proof.Machine
end

