-- ==== Sys2Proof/Machine/Asm.lean ====
section
/-! DEFINITION. The assembler syntax of command programs (30_encoding.md R90) and the
pseudo-instruction COMPRESS (R91): a line of text, the command it stands for, and the command words and
DIN bytes it assembles to. How the items of a WRITE may be joined is the model's (log 24). -/

namespace Sys2Proof.Machine

/-- One line of a command program (R90, R91). -/
inductive AsmLine where
  | config (level : Nat)
  | write (bytes : List Byte)
  | flush
  | close
  | reset
  | compress (level : Nat) (bytes : List Byte)
  deriving DecidableEq, Repr

/-- A command word and the DIN bytes that follow it (R83). -/
abbrev Issued := Encoded × List Byte

/-- `CONFIG <level>`, level 0..15 (R90). -/
def assembleConfig (level : Nat) : Option Issued :=
  if level < 16 then some (encode (.config (BitVec.ofNat 4 level)), []) else none

/-- `WRITE <bytes>`; more than 16777215 bytes is not an instruction (R91). -/
def assembleWrite (bytes : List Byte) : Option Issued :=
  if bytes.length < 2 ^ 24 then some (encode (.write (BitVec.ofNat 24 bytes.length)), bytes) else none

/-- The commands a line stands for; COMPRESS expands to CONFIG, WRITE, CLOSE (R91). -/
def assemble : AsmLine → Option (List Issued)
  | .config level =>
    match assembleConfig level with
    | some c => some [c]
    | none => none
  | .write bytes =>
    match assembleWrite bytes with
    | some c => some [c]
    | none => none
  | .flush => some [(encode .flush, [])]
  | .close => some [(encode .close, [])]
  | .reset => some [(encode .reset, [])]
  | .compress level bytes =>
    match assembleConfig level, assembleWrite bytes with
    | some c, some w => some [c, w, (encode .close, [])]
    | _, _ => none

/-- The host issues assembled commands: their words join the queue and their bytes stand on DIN. -/
def issue (l : List Issued) (s : State) : State :=
  { s with
    hostQueue := s.hostQueue ++ l.map fun c => eventOf c.1
    dinIn := s.dinIn ++ l.flatMap fun c => c.2 }

/-! ### Text -/

/-- A token of a line. -/
inductive Token where
  | word (cs : List Char)
  | str (cs : List Char)
  | comma
  deriving DecidableEq, Repr

/-- The word read so far, if any, before the tokens after it. -/
def endWord (acc : List Char) (rest : List Token) : List Token :=
  if acc = [] then rest else .word acc.reverse :: rest

/-- Cuts a line into tokens; outside a quoted string `;` begins a comment (R90). R90 does not say what may
stand inside the quotes. The model's choices (DESIGN CHOICE, log 24): there `;` is a byte like any other
and begins no comment, and so are a comma and a blank; the next quote ends the string and nothing escapes
it, so a string cannot hold a quote; an open quote at the end of the line is an error. A blank is a space
or a tab. -/
def tokenize : Bool → List Char → List Char → Option (List Token)
  | true, _, [] => none
  | false, acc, [] => some (endWord acc [])
  | true, acc, c :: cs =>
    if c = '"' then
      match tokenize false [] cs with
      | some ts => some (.str acc.reverse :: ts)
      | none => none
    else tokenize true (c :: acc) cs
  | false, acc, c :: cs =>
    if c = ';' then some (endWord acc [])
    else if c = '"' then
      match tokenize true [] cs with
      | some ts => some (endWord acc ts)
      | none => none
    else if c = ',' then
      match tokenize false [] cs with
      | some ts => some (endWord acc (.comma :: ts))
      | none => none
    else if c = ' ' ∨ c = '\t' then
      match tokenize false [] cs with
      | some ts => some (endWord acc ts)
      | none => none
    else tokenize false (c :: acc) cs

/-- The value of a digit in base 16. -/
def hexDigit (c : Char) : Option Nat :=
  if '0'.toNat ≤ c.toNat ∧ c.toNat ≤ '9'.toNat then some (c.toNat - '0'.toNat)
  else if 'A'.toNat ≤ c.toNat ∧ c.toNat ≤ 'F'.toNat then some (c.toNat - 'A'.toNat + 10)
  else if 'a'.toNat ≤ c.toNat ∧ c.toNat ≤ 'f'.toNat then some (c.toNat - 'a'.toNat + 10)
  else none

/-- A decimal number, from the value `v` of the digits before. -/
def decimalGo (v : Nat) : List Char → Option Nat
  | [] => some v
  | c :: cs =>
    match hexDigit c with
    | some d => if d < 10 then decimalGo (v * 10 + d) cs else none
    | none => none

/-- A decimal number of at least one digit. -/
def decimal (cs : List Char) : Option Nat := if cs = [] then none else decimalGo 0 cs

/-- A hex byte `0x..` (R90): two digits, in capitals or not (DESIGN CHOICE, log 24). -/
def hexByte : List Char → Option Byte
  | [z, x, a, b] =>
    if z = '0' ∧ x = 'x' then
      match hexDigit a, hexDigit b with
      | some h, some l => some (BitVec.ofNat 8 (h * 16 + l))
      | _, _ => none
    else none
  | _ => none

/-- The bytes of an ASCII string. -/
def asciiBytes : List Char → Option (List Byte)
  | [] => some []
  | c :: cs =>
    if c.toNat < 128 then
      match asciiBytes cs with
      | some bs => some (BitVec.ofNat 8 c.toNat :: bs)
      | none => none
    else none

/-- The bytes of a WRITE: quoted strings, hex bytes and repeated bytes (R90). The model's choices
(DESIGN CHOICE, log 24): items stand one after another with or without commas, a comma anywhere (first,
last, doubled) stands for nothing, and the `<byte>` of `<byte> x <count>` is a two-digit hex byte and not
a quoted character. -/
def parseBytes : List Token → Option (List Byte)
  | [] => some []
  | .comma :: ts => parseBytes ts
  | .str cs :: ts =>
    match asciiBytes cs, parseBytes ts with
    | some a, some b => some (a ++ b)
    | _, _ => none
  | .word cs :: .word x :: .word k :: ts =>
    if x = ['x'] then
      match hexByte cs, decimal k, parseBytes ts with
      | some b, some k, some bs => some (List.replicate k b ++ bs)
      | _, _, _ => none
    else
      match hexByte cs, parseBytes (.word x :: .word k :: ts) with
      | some b, some bs => some (b :: bs)
      | _, _ => none
  | .word cs :: ts =>
    match hexByte cs, parseBytes ts with
    | some b, some bs => some (b :: bs)
    | _, _ => none

/-- The operand of a command that takes bytes: at least one token (DESIGN CHOICE, log 24), so `WRITE` by
itself is no command and `WRITE ,` is a WRITE of no bytes. -/
def parseOperand (ts : List Token) : Option (List Byte) := if ts = [] then none else parseBytes ts

/-- Parses a line: nothing for a blank or comment line, else its command (R90, R91). -/
def parseTokens : List Token → Option (Option AsmLine)
  | [] => some none
  | .word op :: ts =>
    if op = "CONFIG".toList then
      match ts with
      | [.word n] => (decimal n).map fun n => some (.config n)
      | _ => none
    else if op = "WRITE".toList then (parseOperand ts).map fun b => some (.write b)
    else if op = "FLUSH".toList ∧ ts = [] then some (some .flush)
    else if op = "CLOSE".toList ∧ ts = [] then some (some .close)
    else if op = "RESET".toList ∧ ts = [] then some (some .reset)
    else if op = "COMPRESS".toList then
      match ts with
      | .word n :: .comma :: ts =>
        match decimal n, parseOperand ts with
        | some n, some b => some (some (.compress n b))
        | _, _ => none
      | _ => none
    else none
  | .str _ :: _ => none
  | .comma :: _ => none

/-- Parses a line of text (R90). -/
def parseLine (line : String) : Option (Option AsmLine) :=
  match tokenize false [] line.toList with
  | some ts => parseTokens ts
  | none => none

end Sys2Proof.Machine
end

