-- ==== Sys2Proof/Safety.lean ====
section
/-! DEFINITION. The terms in which statements about CORE are made: the bit stream at the sink, what the
sink answers, the codes of the units and their inverses written from the spec's words and not from the
machine's loops, and the invariants of the machine. -/

namespace Sys2Proof.Machine

/-! ### The output as one bit sequence (00_scope.md R8, 20_memory.md R65) -/

/-- The bits of a byte, bit 7 first. -/
def byteBits (b : Byte) : List Bool := (List.range 8).map fun i => b.getLsbD (7 - i)

/-- The bits of a byte sequence. -/
def bitsOf (l : List Byte) : List Bool := l.flatMap byteBits

/-- The pending bits BW_ACC[BW_CNT-1:0], the oldest first (10_state.md R28). -/
def pendingBits (acc : BitVec 7) (cnt : BitVec 3) : List Bool :=
  (List.range cnt.toNat).map fun i => acc.getLsbD (cnt.toNat - 1 - i)

/-- Every bit sent to the attached sink or pending. -/
def State.stream (s : State) : List Bool := bitsOf s.sinkBytes ++ pendingBits s.bwAcc s.bwCnt

/-- The `n` low bits of `v`, most significant first (R8). -/
def lowBits (n v : Nat) : List Bool := (List.range n).map fun i => v.testBit (n - 1 - i)

/-- The sink accepts the next `k` bytes offered (20_memory.md R64). -/
def State.sinkAccepts (s : State) (k : Nat) : Prop := ∀ j < k, s.writer.answerAt j = .ok

/-- The sink accepts the next `k` bytes offered and fails the one after. -/
def State.sinkFailsAt (s : State) (k : Nat) : Prop :=
  s.sinkAccepts k ∧ s.writer.answerAt k = .fail

/-- The sink never fails, the premise 20_memory.md R64 offers. -/
def State.sinkHealthy (s : State) : Prop := ∀ j, s.writer.answerAt j = .ok

/-! ### Command words (30_encoding.md R85) -/

/-- An illegal command word. -/
def IllegalWord (w : Word) : Prop :=
  (cmdOp w = 0 ∨ 0x06 ≤ (cmdOp w).toNat) ∨
  (cmdOp w = 0x01 ∧ 16 ≤ (cmdImm w).toNat) ∨
  ((cmdOp w = 0x03 ∨ cmdOp w = 0x04 ∨ cmdOp w = 0x05) ∧ cmdImm w ≠ 0)

/-! ### CRC (41_crc32.md R141) -/

/-- One round of the table's construction. -/
def crcShift (c : Word) : Word := if c.getLsbD 31 then (c <<< 1) ^^^ 0x04C11DB7 else c <<< 1

/-- `CRC_T[i]`. -/
def crcTable (i : Byte) : Word := Nat.iterate crcShift 8 (i.setWidth 32 <<< 24)

/-! ### RLE1 (43_rle1_block.md R170, R171, R184) -/

/-- The maximal runs of a byte sequence, each a value and a count (R170). -/
def runsOf : List Byte → List (Byte × Nat)
  | [] => []
  | x :: xs =>
    match runsOf xs with
    | [] => [(x, 1)]
    | (y, n) :: rest => if x = y then (y, n + 1) :: rest else (x, 1) :: (y, n) :: rest

/-- The code of a unit of `u` copies of `x` (R170). -/
def unitCode (x : Byte) (u : Nat) : List Byte :=
  if u ≤ 3 then List.replicate u x else List.replicate 4 x ++ [BitVec.ofNat 8 (u - 4)]

/-- The code of a run of `r` copies of `x`: units of 259 copies, then a last unit (R170). -/
def runCode (x : Byte) (r : Nat) : List Byte :=
  (List.replicate (r / 259) (unitCode x 259)).flatten ++ unitCode x (r % 259)

/-- The RLE1 code of a byte sequence (R170). -/
def rle1Code (d : List Byte) : List Byte := (runsOf d).flatMap fun p => runCode p.1 p.2

/-- The room in the block that the byte `x` needs (R175, R176, R177): one byte for copies 2 and 3 of the
open unit's byte, two for the fourth, none for the fifth to 259th, and one for a byte that starts a unit. -/
def State.roomNeeded (s : State) (x : Byte) : Nat :=
  if s.runByte = x ∧ s.runLen ≠ 0 ∧ s.runLen.toNat ≤ 258 then
    if s.runLen.toNat ≤ 2 then 1 else if s.runLen.toNat = 3 then 2 else 0
  else 1

/-- The decoder of R184: `k` copies of the current unit's byte `y` have been read. -/
def rle1DecodeGo : Nat → Byte → List Byte → List Byte
  | _, _, [] => []
  | k, y, x :: xs =>
    if k = 4 then List.replicate x.toNat y ++ rle1DecodeGo 0 0 xs
    else if k ≠ 0 ∧ x = y then x :: rle1DecodeGo (k + 1) y xs
    else x :: rle1DecodeGo 1 x xs

/-- The bytes a committed block stands for (R184). -/
def rle1Decode (l : List Byte) : List Byte := rle1DecodeGo 0 0 l

/-- The run state after accepting `d`: no unit, or the last unit of the last run (R30, R170). -/
def runStateOf (d : List Byte) (x : Byte) (u : Nat) : Prop :=
  match (runsOf d).getLast? with
  | none => u = 0
  | some (y, r) => x = y ∧ u = (r - 1) % 259 + 1

/-- The open block holds the RLE1 code of the accepted bytes `d`, its pending length byte included
(R171), and `d`'s CRC (R145). -/
def State.holdsCode (s : State) (d : List Byte) : Prop :=
  s.blkBuf ++ s.block.pending = rle1Code d ∧ runStateOf d s.runByte s.runLen.toNat ∧
    s.bcrc = crcUpdate 0 d

/-! ### BWT (44_bwt.md R200-R202) -/

/-- Byte `k` of rotation `i` (R200). -/
def rotByte (S : List Byte) (i k : Nat) : Byte := S.getD ((i + k) % S.length) 0

/-- Rotation `i` stands before rotation `j` (R201, R202). -/
def RotBefore (S : List Byte) (i j : Nat) : Prop :=
  (∃ k < S.length, (∀ h < k, rotByte S i h = rotByte S j h) ∧
    (rotByte S i k).toNat < (rotByte S j k).toNat) ∨
  ((∀ k < S.length, rotByte S i k = rotByte S j k) ∧ i < j)

/-! ### MTF and RLE2 inverses -/

/-- The bytes whose ranks in a recency list are given (45_mtf.md R220). -/
def mtfDecode {α : Type} : List α → List Nat → List α
  | _, [] => []
  | l, r :: rs =>
    match l[r]? with
    | some x => x :: mtfDecode (x :: l.eraseIdx r) rs
    | none => []

/-- The run length a digit sequence stands for: `sum over k of d_k × 2^k`, `d_k = 1` for RUNA (0) and 2
for RUNB (1) (46_rle2.md R231). -/
def runValue : List Nat → Nat
  | [] => 0
  | y :: ys => (y + 1) + 2 * runValue ys

/-- The ranks a symbol sequence without EOB stands for; `ds` are the run digits read so far, the last
first (46_rle2.md R231, R232). -/
def rle2Decode : List Nat → List Nat → List Nat
  | ds, [] => List.replicate (runValue ds.reverse) 0
  | ds, y :: ys =>
    if y ≤ 1 then rle2Decode (y :: ds) ys
    else List.replicate (runValue ds.reverse) 0 ++ (y - 1) :: rle2Decode [] ys

/-! ### The Huffman tree, said of its merges and not by the machine's loop (47_huffman.md R244-R247) -/

/-- `n` is the least node of a heap and `rest` are the others (R245): every other node has a greater
weight, or the same weight and a later place in the tie order `tie` (R246). -/
def IsLeast (tie : List Nat) (heap : List HeapNode) (n : HeapNode) (rest : List HeapNode) : Prop :=
  List.Perm heap (n :: rest) ∧
    ∀ m ∈ rest, n.weight < m.weight ∨
      (n.weight = m.weight ∧ tieKey tie n.order < tieKey tie m.order)

/-- The heap merges into the tree (R245): the two least nodes become the children of a new node, whose
order number is `k`, and so on until one node is left. -/
inductive Merges (tie : List Nat) : Nat → List HeapNode → HuffTree → Prop where
  | root (k : Nat) (n : HeapNode) : Merges tie k [n] n.tree
  | merge {k : Nat} {heap rest left : List HeapNode} {p q : HeapNode} {t : HuffTree}
      (hp : IsLeast tie heap p rest) (hq : IsLeast tie rest q left)
      (ht : Merges tie (k + 1)
        ({ weight := p.weight + q.weight, order := k, tree := .node p.tree q.tree } :: left) t) :
      Merges tie k heap t

/-- The leaves of R244: symbol `y` with its frequency, order number `y`. -/
def huffLeaves (freq : List Nat) : List HeapNode :=
  (List.range freq.length).map fun y => { weight := freq.getD y 0, order := y, tree := .leaf y }

/-- The leaf of symbol `y` stands at depth `d`, the root at depth 0 (R247). -/
inductive LeafAt (y : Nat) : HuffTree → Nat → Prop where
  | leaf : LeafAt y (.leaf y) 0
  | left {p q : HuffTree} {d : Nat} (h : LeafAt y p d) : LeafAt y (.node p q) (d + 1)
  | right {p q : HuffTree} {d : Nat} (h : LeafAt y q d) : LeafAt y (.node p q) (d + 1)

/-! ### Huffman codes (47_huffman.md R252) -/

/-- `sum over s of 2^(-len[s]) = 1`, for lengths of at most `top`. -/
def KraftEquality (top : Nat) (lens : List Nat) : Prop :=
  (∀ l ∈ lens, l ≤ top) ∧ (lens.map fun l => 2 ^ (top - l)).sum = 2 ^ top

/-- No code word is the beginning of another: symbols `y` and `z` of a table. -/
def PrefixFree (lens : List Nat) (codes : List (BitVec 20)) : Prop :=
  ∀ (y z l m : Nat) (c d : BitVec 20), y ≠ z → lens[y]? = some l → lens[z]? = some m → codes[y]? = some c →
    codes[z]? = some d → ¬ (lowBits l c.toNat <+: lowBits m d.toNat)

/-- Symbol `y` of length `l` is assigned its code before symbol `z` of length `m` (R248). -/
def AssignedBefore (l y m z : Nat) : Prop := l < m ∨ (l = m ∧ y < z)

/-- The assignment of R248, said of neighbours: the first code is 0, and the next code is one more,
lengthened by zeros. -/
def Canonical (lens : List Nat) (codes : List (BitVec 20)) : Prop :=
  codes.length = lens.length ∧
  (∀ (z m : Nat) (d : BitVec 20), lens[z]? = some m → codes[z]? = some d →
    (∀ w n : Nat, lens[w]? = some n → ¬ AssignedBefore n w m z) → d = 0) ∧
  ∀ (y z l m : Nat) (c d : BitVec 20), lens[y]? = some l → lens[z]? = some m → codes[y]? = some c → codes[z]? = some d →
    AssignedBefore l y m z →
    (∀ w n : Nat, lens[w]? = some n → ¬ (AssignedBefore l y n w ∧ AssignedBefore n w m z)) →
    d.toNat = (c.toNat + 1) * 2 ^ (m - l)

/-- The sum of the code-length deltas of one tree, with `prev` the length before (48 R284). -/
def deltaSum : Nat → List Nat → Nat
  | _, [] => 0
  | prev, l :: ls => (1 + 2 * ((l - prev) + (prev - l))) + deltaSum l ls

/-! ### The block on the wire (30_encoding.md R93-R97) -/

/-- Range `i` holds a byte value of the block (42_symbol_set.md R161). -/
def rangePresent (present : BitVec 256) (i : Nat) : Bool :=
  (List.range 16).any fun j => present.getLsbD (16 * i + j)

/-- Fields 5 and 6 (R94): range 0 and value `16i + 0` are the first bits sent. -/
def rangeBits (present : BitVec 256) : List Bool :=
  (List.range 16).map (rangePresent present) ++
    (List.range 16).flatMap fun i =>
      if rangePresent present i then (List.range 16).map fun j => present.getLsbD (16 * i + j) else []

/-- One selector: `r` one-bits, then a zero-bit (R95). -/
def selectorBits (r : Nat) : List Bool := List.replicate r true ++ [false]

/-- The code lengths of one tree from the length `cur` on (R96). -/
def lengthBits : Nat → List Nat → List Bool
  | _, [] => []
  | cur, l :: ls =>
    (List.replicate (l - cur) [true, false]).flatten ++
      (List.replicate (cur - l) [true, true]).flatten ++ [false] ++ lengthBits l ls

/-- One tree: the smallest length in 5 bits, then the lengths (R96). -/
def treeBits (lens : List Nat) : List Bool :=
  lowBits 5 ((lens.min?).getD 0) ++ lengthBits ((lens.min?).getD 0) lens

/-- The code of symbol number `k`, value `y`, in the tree SEL[floor(k/50)] (R97). -/
def symbolBits (s : State) (y k : Nat) : List Bool :=
  let t := s.sel.getD (k / 50) 0
  lowBits ((s.len.getD t []).getD y 0) ((s.code.getD t []).getD y 0).toNat

/-- The bits of a block whose working registers are those of `s` and whose CRC is `bcrc` (R93). -/
def blockBits (s : State) (bcrc : Word) : List Bool :=
  lowBits 48 0x314159265359 ++ lowBits 32 bcrc.toNat ++ [false] ++ lowBits 24 s.ptr.toNat ++
    rangeBits s.present ++ lowBits 3 s.ntrees.toNat ++ lowBits 15 s.nsel.toNat ++
    ((List.range s.nsel.toNat).flatMap fun g => selectorBits (s.selRank.getD g 0)) ++ s.len.flatMap treeBits ++
    s.sym.zipIdx.flatMap fun p => symbolBits s p.1 p.2

/-! ### Frames -/

/-- Only the bit writer, ERR and the sink port differ (40_bit_writer.md R121, "State written"). -/
def SameButWriter (s t : State) : Prop :=
  t = { s with bwAcc := t.bwAcc, bwCnt := t.bwCnt, err := t.err, dout := t.dout,
               sinkScript := t.sinkScript, sinkBytes := t.sinkBytes, draws := t.draws }

/-- Only the bit writer, ERR, the sink port, SCRC, the open block (RUN_BYTE excepted) and the working
registers differ (48_block_serializer.md R270, "State written"). -/
def SameButBlock (s t : State) : Prop :=
  t = { s with bwAcc := t.bwAcc, bwCnt := t.bwCnt, err := t.err, dout := t.dout,
               sinkScript := t.sinkScript, sinkBytes := t.sinkBytes, draws := t.draws,
               scrc := t.scrc, blkBuf := t.blkBuf, runLen := t.runLen, bcrc := t.bcrc,
               bwtOut := t.bwtOut, ptr := t.ptr, present := t.present, alpha := t.alpha,
               mtfList := t.mtfList, ranks := t.ranks, sym := t.sym, freq := t.freq,
               nsel := t.nsel, ntrees := t.ntrees, len := t.len, code := t.code, sel := t.sel,
               selRank := t.selRank }

/-- The working registers of 10_state.md R33-R41 are equal. -/
def SameWork (s t : State) : Prop :=
  s.bwtOut = t.bwtOut ∧ s.ptr = t.ptr ∧ s.present = t.present ∧ s.alpha = t.alpha ∧
  s.mtfList = t.mtfList ∧ s.ranks = t.ranks ∧ s.sym = t.sym ∧ s.freq = t.freq ∧
  s.nsel = t.nsel ∧ s.ntrees = t.ntrees ∧ s.len = t.len ∧ s.code = t.code ∧ s.sel = t.sel ∧
  s.selRank = t.selRank

/-- The open block has at most `k` different byte values, its pending length byte included. -/
def State.fewValues (s : State) (k : Nat) : Prop := (s.blkBuf ++ s.block.pending).dedup.length ≤ k

/-- The host may issue WRITE, FLUSH and CLOSE with effect: configured, not closed, no error
(60_exceptions.md R350). -/
def State.streamOpen (s : State) : Prop :=
  (s.sstate = .unopened ∨ s.sstate = .headerWritten) ∧ s.err = .noError

/-- The bits of the stream header (30_encoding.md R92). -/
def headerBits (level : BitVec 4) : List Bool :=
  lowBits 16 0x425A ++ lowBits 8 0x68 ++ lowBits 8 (0x30 + level.toNat)

/-- The bits of the footer with `cnt` bits pending before it, padding included (R98). -/
def footerBits (scrc : Word) (cnt : BitVec 3) : List Bool :=
  lowBits 48 0x177245385090 ++ lowBits 32 scrc.toNat ++ List.replicate ((8 - cnt.toNat) % 8) false

/-! ### Invariants -/

/-- Every buffer is within its size and every entry within its width (20_memory.md R61, 30_encoding.md
R100). -/
structure State.Sized (s : State) : Prop where
  blkBuf : s.blkBuf.length ≤ 900000
  bwtOut : s.bwtOut.length ≤ 900000
  ranks : s.ranks.length ≤ 900000
  alpha : s.alpha.length ≤ 256
  mtfList : s.mtfList.length ≤ 256
  sym : s.sym.length ≤ 900001
  symWidth : ∀ y ∈ s.sym, y < 2 ^ 16
  freq : s.freq.length ≤ 258
  freqWidth : ∀ f ∈ s.freq, f < 2 ^ 20
  len : s.len.length ≤ 6
  lenEntries : ∀ t ∈ s.len, t.length ≤ 258
  lenWidth : ∀ t ∈ s.len, ∀ l ∈ t, l < 2 ^ 5
  code : s.code.length ≤ 6
  codeEntries : ∀ t ∈ s.code, t.length ≤ 258
  sel : s.sel.length ≤ 18001
  selWidth : ∀ g ∈ s.sel, g < 2 ^ 3
  selRank : s.selRank.length ≤ 18001
  selRankWidth : ∀ r ∈ s.selRank, r < 2 ^ 3

/-- The block never holds more than CAP bytes, a unit covers at most 259, and an open unit has a literal
in the block (43_rle1_block.md R173, R170). -/
structure State.BlockBounded (s : State) : Prop where
  eff : s.eff ≤ s.cap.toNat
  cap : s.cap.toNat ≤ 900000
  unit : s.runLen.toNat ≤ 259
  literal : s.runLen ≠ 0 → s.blkBuf ≠ []

/-- The host keeps to its contract: no micro-op transfer is queued (30_encoding.md R87). -/
def State.HostOnly (s : State) : Prop :=
  ∀ e ∈ s.hostQueue, match e with
    | .command _ => True
    | .attachSink _ _ => True
    | .uop _ => False

/-- Between commands: PHASE is Idle, BLK_FULL is 0 and no input is unconsumed (10_state.md R23, R32,
20_memory.md R71), and a configured CORE has a level 1..9 with its capacity (R24, R25). -/
structure State.Settled (s : State) : Prop where
  host : s.HostOnly
  phase : s.phase = .idle
  blkFull : s.blkFull = false
  writeIn : s.writeIn = []
  level : s.sstate ≠ .unconfigured →
    1 ≤ s.level.toNat ∧ s.level.toNat ≤ 9 ∧ s.cap.toNat = s.level.toNat * 100000
  fresh : s.sstate = .unopened → s.blkBuf = [] ∧ s.runLen = 0 ∧ (s.err = .noError → s.bwCnt = 0)

/-- A run of `n` steps is safe when the host keeps its contract and no step ends in a fault or a
refusal. -/
def SafeRun (n : Nat) (s : State) : Prop :=
  s.HostOnly ∧ ∃ t, Host.Core.run Sys2Proof.core n s = .next t

end Sys2Proof.Machine
end

