-- ==== Sys2Proof/Certificates/Slice0/Obligations.lean ====
section
/-! DEFINITION. The statements about CORE for the provers; OBLIGATIONS.json lists them. -/

open Sys2Proof Sys2Proof.Machine

/-! ### Encodings and the step -/

/-- Decoding an encoded well-formed instruction gives it back, with every operand at every value
(30_encoding.md sections 1 and 2; the uop operand layout is log 4's). -/
def Obligations.DecodeOfEncodeIsIdentity : Prop :=
  ∀ i : Instr, i.wellFormed = true → decode (encode i) = .ok i

/-- An encoding that decodes is the encoding of what it decodes to, so no bit of it is ignored
(30_encoding.md R85; the uop operand layout is log 4's). -/
def Obligations.EncodeOfDecodeIsIdentity : Prop :=
  ∀ (e : Encoded) (i : Instr), decode e = .ok i → i.wellFormed = true ∧ encode i = e

/-- A few words of the opcode table and of R90 decode to what they stand for. -/
def Obligations.OpcodeTableWordsDecode : Prop :=
  decodeCommand 0x01000009 = .ok (.config 9) ∧
  decodeCommand 0x02000003 = .ok (.write 3) ∧
  decodeCommand 0x03000000 = .ok .flush ∧
  decodeCommand 0x04000000 = .ok .close ∧
  decodeCommand 0x05000000 = .ok .reset ∧
  decodeCommand 0x06000000 = .error .illegalOp ∧
  decodeCommand 0x01000010 = .error .mustBeZero ∧
  decodeUop [0x11] = .ok .bwPad ∧
  decodeUop [0x18] = .ok .bwtSort ∧
  decodeUop [0x20] = .ok .streamFooter ∧
  decodeUop [0x21] = .error .unknownUop

/-- R85, R348: an illegal command word changes only RESULT, and no DIN byte is taken. Beside it the queue,
the model's, loses the word (log 2), and the port register CMD holds it, by the model's reading of these
rules (log 28). -/
def Obligations.IllegalCommandWritesResultOnly : Prop :=
  ∀ (s : State) (w : Word) (es : List HostEvent), s.phase = .idle →
    s.hostQueue = .command w :: es → IllegalWord w →
    step s = .next { s with hostQueue := es, cmd := w, result := 0x70000000 }

/-- R300: the step runs the decoded instruction: `exec` of it on the state with the action taken off the
queue (log 2) and, for a command, the word in CMD. The second clause, that a uop transfer in the queue is
run by a step of its own, whatever PHASE is, is the model's choice (log 3): R87 gives the host no way to
issue one. -/
def Obligations.StepRunsDecodedInstruction : Prop :=
  ∀ (s : State) (i : Instr) (es : List HostEvent),
    (∀ w, s.phase = .idle → s.hostQueue = .command w :: es → decode (.command w) = .ok i →
      step s = exec i { s with hostQueue := es, cmd := w }) ∧
    (∀ bytes, s.hostQueue = .uop bytes :: es → decode (.uop bytes) = .ok i →
      step s = exec i { s with hostQueue := es })

/-- R360: between commands CORE is idle and keeps all its state. That a step with no action of the host
pending (log 2) is such a moment, and leaves the state as it is whatever PHASE is, is the model's reading
(log 22). -/
def Obligations.IdleStepKeepsState : Prop :=
  ∀ s : State, s.hostQueue = [] → step s = .next s

/-- Log 15: a host outside its contract (R375, U10) is refused. -/
def Obligations.HostOutsideContractIsRefused : Prop :=
  (∀ (s : State) (w : Word) (es : List HostEvent), s.phase ≠ .idle →
    s.hostQueue = .command w :: es → step s = .refused .hostBusy) ∧
  (∀ (s : State) (l : List SinkAnswer) (r : SinkAnswer) (es : List HostEvent), s.phase ≠ .idle →
    s.hostQueue = .attachSink l r :: es → step s = .refused .hostBusy) ∧
  (∀ (s : State) (n : BitVec 24), s.dinIn.length < n.toNat →
    exec (.write n) s = .refused .dinUnderrun)

/-- R88: a uop code outside the table faults with InvariantViolation, ERR recorded (R346; log 13). That the
queue can hold a uop transfer is the model's choice (log 3). -/
def Obligations.UnknownUopFaults : Prop :=
  ∀ (s : State) (code : Byte) (l : List Byte) (es : List HostEvent),
    (code.toNat < 0x10 ∨ 0x20 < code.toNat) → s.hostQueue = .uop (code :: l) :: es →
    step s = .fault (.invariantViolation .unknownUop
      { s with hostQueue := es, err := .invariantViolation })

/-- Log 6: attaching a sink (R64, R84) changes the sink port and nothing else. That the new sink serves at
once, whether a RESET follows or not, is the model's choice (log 30). -/
def Obligations.AttachSinkChangesSinkPortOnly : Prop :=
  ∀ (s : State) (l : List SinkAnswer) (r : SinkAnswer) (es : List HostEvent), s.phase = .idle →
    s.hostQueue = .attachSink l r :: es →
    step s = .next { s with hostQueue := es, sinkScript := l, sinkRest := r, sinkBytes := [] }

/-! ### Host commands: checks and resets -/

/-- R301, R342: CONFIG with lv 0..9 starts a fresh stream at the level (0 is the default, 6); lv 10..15
is a ConfigError and changes nothing but RESULT; a non-zero `imm24[23:4]` is an illegal word. PHASE is
Idle at the end (R300). The model's choices in it: the default level is 6 (log 17), and RUN_BYTE and the
working registers, which R45 calls unspecified after CONFIG, keep their values (log 12). -/
def Obligations.ConfigSetsLevelOrRejects : Prop :=
  (∀ w : Word, cmdOp w = 0x01 → 16 ≤ (cmdImm w).toNat →
    decodeCommand w = .error .mustBeZero) ∧
  ∀ (s : State) (lv : BitVec 4),
    (lv.toNat ≤ 9 → ∀ level : BitVec 4, level = (if lv = 0 then 6 else lv) →
      exec (.config lv) s = .next
        { s with
          sstate := .unopened, level := level, cap := BitVec.ofNat 20 (level.toNat * 100000),
          err := .noError, scrc := 0, bwAcc := 0, bwCnt := 0, blkBuf := [], runLen := 0,
          bcrc := 0, blkFull := false, result := 0, phase := .idle }) ∧
    (9 < lv.toNat →
      exec (.config lv) s = .next { s with result := 0x10000000, phase := .idle })

/-- R309: RESET starts a fresh stream at the same level, in every configured state, with ERR set or not;
before the first good CONFIG it is NotConfigured. That RUN_BYTE and the working registers, which R45
calls unspecified after RESET, keep their values is the model's choice (log 12). -/
def Obligations.ResetRestartsConfiguredStream : Prop :=
  ∀ s : State,
    (s.sstate ≠ .unconfigured →
      exec .reset s = .next
        { s with
          sstate := .unopened, err := .noError, scrc := 0, bwAcc := 0, bwCnt := 0, blkBuf := [],
          runLen := 0, bcrc := 0, blkFull := false, result := 0, phase := .idle }) ∧
    (s.sstate = .unconfigured →
      exec .reset s = .next { s with result := 0x80000000, phase := .idle })

/-- R349: before the first good CONFIG, WRITE, FLUSH, CLOSE and RESET answer NotConfigured; a WRITE's
bytes are read and discarded, DIN holding the last one (log 28), and its count is a free value in 0..n
(R305; log 8). -/
def Obligations.UnconfiguredCommandsAnswerNotConfigured : Prop :=
  ∀ s : State, s.sstate = .unconfigured →
    exec .flush s = .next { s with result := 0x80000000, phase := .idle } ∧
    exec .close s = .next { s with result := 0x80000000, phase := .idle } ∧
    exec .reset s = .next { s with result := 0x80000000, phase := .idle } ∧
    ∀ n : BitVec 24, n.toNat ≤ s.dinIn.length →
      ∃ (t : State) (c : BitVec 24), exec (.write n) s = .next t ∧ c.toNat ≤ n.toNat ∧
        t.result = 0x80000000 + c.setWidth 32 ∧ t.dinIn = s.dinIn.drop n.toNat ∧
        t = { s with result := t.result, phase := .idle, dinIn := t.dinIn,
                     din := (s.dinIn.take n.toNat).getLastD s.din, writeIn := [], draws := t.draws }

/-- R350 step 5: while ERR is set in a configured CORE, WRITE, FLUSH and CLOSE answer it and do nothing
else; a WRITE's bytes are discarded, DIN holding the last one (log 28), and its count is a free value in
0..n (R305; log 8). -/
def Obligations.StickyErrorIsAnswered : Prop :=
  ∀ s : State, s.sstate ≠ .unconfigured → s.err ≠ .noError →
    exec .flush s = .next { s with result := resultWord s.err 0, phase := .idle } ∧
    exec .close s = .next { s with result := resultWord s.err 0, phase := .idle } ∧
    ∀ n : BitVec 24, n.toNat ≤ s.dinIn.length →
      ∃ (t : State) (c : BitVec 24), exec (.write n) s = .next t ∧ c.toNat ≤ n.toNat ∧
        t.result = resultWord s.err c ∧ t.dinIn = s.dinIn.drop n.toNat ∧
        t = { s with result := t.result, phase := .idle, dinIn := t.dinIn,
                     din := (s.dinIn.take n.toNat).getLastD s.din, writeIn := [], draws := t.draws }

/-- R344, R311: WRITE, FLUSH and CLOSE in Closed raise WriteAfterClose, which is sticky; nothing is
emitted. A WRITE's bytes are discarded (R350), DIN holding the last one (log 28), and its count is a
free value in 0..n (R305; log 8). -/
def Obligations.ClosedStreamRejectsCommands : Prop :=
  ∀ s : State, s.sstate = .closed → s.err = .noError →
    exec .flush s =
      .next { s with err := .writeAfterClose, result := 0x30000000, phase := .idle } ∧
    exec .close s =
      .next { s with err := .writeAfterClose, result := 0x30000000, phase := .idle } ∧
    ∀ n : BitVec 24, n.toNat ≤ s.dinIn.length →
      ∃ (t : State) (c : BitVec 24), exec (.write n) s = .next t ∧ c.toNat ≤ n.toNat ∧
        t.result = 0x30000000 + c.setWidth 32 ∧ t.dinIn = s.dinIn.drop n.toNat ∧
        t = { s with err := .writeAfterClose, result := t.result, phase := .idle,
                     dinIn := t.dinIn, din := (s.dinIn.take n.toNat).getLastD s.din, writeIn := [],
                     draws := t.draws }

/-- R310: where SSTATE stands after a command. An error inside WRITE or CLOSE leaves it where the command
had taken it: HeaderWritten once the header was sent, Unopened when the header failed. -/
def Obligations.StreamStateTransitions : Prop :=
  ∀ s t : State,
    (∀ lv : BitVec 4, exec (.config lv) s = .next t →
      t.sstate = if lv.toNat ≤ 9 then .unopened else s.sstate) ∧
    (∀ n : BitVec 24, exec (.write n) s = .next t →
      (s.streamOpen → t.err = .noError → t.sstate = .headerWritten) ∧
      (s.streamOpen → s.sstate = .headerWritten → t.sstate = .headerWritten) ∧
      (s.streamOpen → s.sstate = .unopened → ∀ h, exec .streamHeader s = .next h →
        t.sstate = if h.err = .noError then .headerWritten else .unopened) ∧
      (¬ s.streamOpen → t.sstate = s.sstate)) ∧
    (exec .flush s = .next t → t.sstate = s.sstate) ∧
    (exec .close s = .next t →
      (s.streamOpen → t.err = .noError → t.sstate = .closed) ∧
      (s.streamOpen → t.err ≠ .noError → s.sstate = .headerWritten → t.sstate = .headerWritten) ∧
      (s.streamOpen → t.err ≠ .noError → s.sstate = .unopened → ∀ h, exec .streamHeader s = .next h →
        t.sstate = if h.err = .noError then .headerWritten else .unopened) ∧
      (¬ s.streamOpen → t.sstate = s.sstate)) ∧
    (exec .reset s = .next t →
      t.sstate = if s.sstate = .unconfigured then .unconfigured else .unopened)

/-- R43, R86: the fields of STATUS and of the RESULT word. -/
def Obligations.StatusAndResultFields : Prop :=
  (∀ s : State,
    s.statusWord.extractLsb' 0 2 = s.sstate.code ∧
    s.statusWord.extractLsb' 2 4 = s.err.code ∧
    s.statusWord.extractLsb' 6 3 = s.bwCnt ∧
    s.statusWord.extractLsb' 9 4 = (if s.sstate = .unconfigured then 0 else s.level) ∧
    (s.statusWord.extractLsb' 13 1 = 1 ↔ s.blkBuf ≠ [] ∨ s.runLen ≠ 0) ∧
    s.statusWord.extractLsb' 14 18 = 0) ∧
  ∀ (e : ErrCode) (c : BitVec 24),
    (resultWord e c).extractLsb' 28 4 = e.code ∧ (resultWord e c).extractLsb' 24 4 = 0 ∧
    (resultWord e c).extractLsb' 0 24 = c

/-! ### Bit writer -/

/-- R121, R122, R126: BW_WRITEBITS. A width above 64 is InvariantViolation, before anything else. While
ERR is set nothing happens. Otherwise the low `n` bits of `v`, the highest first, join the stream, and
every byte they complete is delivered; a byte the sink fails raises SinkIOError, and only the bytes
before it are delivered. DOUT holds the last byte offered, the failed one included (R42, R64). -/
def Obligations.WriteBitsAppendsLowBits : Prop :=
  ∀ (s : State) (n : BitVec 7) (v : BitVec 64),
    (64 < n.toNat → exec (.bwWriteBits n v) s =
      .fault (.invariantViolation .bitWidth { s with err := .invariantViolation })) ∧
    (n.toNat ≤ 64 → s.err ≠ .noError → exec (.bwWriteBits n v) s = .next s) ∧
    (n.toNat ≤ 64 → s.err = .noError →
      (s.sinkAccepts ((s.bwCnt.toNat + n.toNat) / 8) →
        ∃ t, exec (.bwWriteBits n v) s = .next t ∧ SameButWriter s t ∧ t.err = .noError ∧
          t.stream = s.stream ++ lowBits n.toNat v.toNat ∧
          s.sinkBytes <+: t.sinkBytes ∧
          t.sinkBytes.length = s.sinkBytes.length + (s.bwCnt.toNat + n.toNat) / 8 ∧
          t.bwCnt.toNat = (s.bwCnt.toNat + n.toNat) % 8 ∧
          t.dout = (t.sinkBytes.drop s.sinkBytes.length).getLastD s.dout) ∧
      (∀ j < (s.bwCnt.toNat + n.toNat) / 8, s.sinkFailsAt j →
        ∃ t l, exec (.bwWriteBits n v) s = .next t ∧ SameButWriter s t ∧ t.err = .sinkIOError ∧
          t.sinkBytes = s.sinkBytes ++ l ∧ l.length = j ∧
          bitsOf (l ++ [t.dout]) <+: pendingBits s.bwAcc s.bwCnt ++ lowBits n.toNat v.toNat))

/-- R124: BW_PAD sends zero bits to the next byte boundary; with no pending bit, or while ERR is set, it
does nothing. DOUT holds the byte offered, delivered or failed (R42, R64). -/
def Obligations.PadFillsByteWithZeros : Prop :=
  ∀ s : State,
    (s.err ≠ .noError ∨ s.bwCnt = 0 → exec .bwPad s = .next s) ∧
    (s.err = .noError → s.bwCnt ≠ 0 →
      (s.sinkAccepts 1 →
        ∃ t, exec .bwPad s = .next t ∧ SameButWriter s t ∧ t.err = .noError ∧ t.bwCnt = 0 ∧
          t.stream = s.stream ++ List.replicate (8 - s.bwCnt.toNat) false ∧
          t.sinkBytes = s.sinkBytes ++ [t.dout]) ∧
      (s.sinkFailsAt 0 →
        ∃ t, exec .bwPad s = .next t ∧ SameButWriter s t ∧ t.err = .sinkIOError ∧
          t.sinkBytes = s.sinkBytes ∧ byteBits t.dout =
            pendingBits s.bwAcc s.bwCnt ++ List.replicate (8 - s.bwCnt.toNat) false))

/-- R125: BW_RAWBYTES delivers its bytes when no bit is pending, raises UnalignedWrite when bits are,
and does nothing while ERR is set; a byte the sink fails raises SinkIOError. BW_ACC and BW_CNT are not
written. DOUT holds the last byte offered, the failed one included (R42, R64). -/
def Obligations.RawBytesNeedByteBoundary : Prop :=
  ∀ (s : State) (d : List Byte),
    (s.err ≠ .noError → exec (.bwRawBytes d) s = .next s) ∧
    (s.err = .noError → s.bwCnt ≠ 0 → exec (.bwRawBytes d) s =
      .fault (.unalignedWrite { s with err := .unalignedWrite })) ∧
    (s.err = .noError → s.bwCnt = 0 →
      (s.sinkAccepts d.length →
        ∃ t, exec (.bwRawBytes d) s = .next t ∧
          t = { s with dout := d.getLastD s.dout, sinkScript := t.sinkScript,
                       sinkBytes := s.sinkBytes ++ d }) ∧
      (∀ j < d.length, s.sinkFailsAt j →
        ∃ t, exec (.bwRawBytes d) s = .next t ∧ d[j]? = some t.dout ∧
          t = { s with err := .sinkIOError, dout := t.dout, sinkScript := t.sinkScript,
                       sinkBytes := s.sinkBytes ++ d.take j }))

/-! ### CRC -/

/-- R141, R142: CRC_UPDATE returns the CRC so far for no bytes, and each further byte shifts it and XORs the
table entry of its top byte, complemented on entry and on exit; no register of CORE is written
(`uopRet`, the model's own, holds the value: log 5). -/
def Obligations.CrcUpdateFoldsEachByte : Prop :=
  ∀ (s : State) (crc : Word) (d : List Byte) (x : Byte),
    exec (.crcUpdate crc []) s = .next { s with uopRet := crc } ∧
    ∃ t u, exec (.crcUpdate crc d) s = .next t ∧ exec (.crcUpdate crc (d ++ [x])) s = .next u ∧
      t = { s with uopRet := t.uopRet } ∧ u = { s with uopRet := u.uopRet } ∧
      ~~~u.uopRet = (~~~t.uopRet <<< 8) ^^^
        crcTable ((~~~t.uopRet >>> 24).setWidth 8 ^^^ x)

/-- R143: chunk independence. -/
def Obligations.CrcUpdateChunkIndependence : Prop :=
  ∀ (s : State) (X : List Byte) (k : Nat), k ≤ X.length →
    ∃ t u, exec (.crcUpdate 0 (X.take k)) s = .next t ∧
      exec (.crcUpdate t.uopRet (X.drop k)) t = .next u ∧ exec (.crcUpdate 0 X) s = .next u

/-- R144: CRC_COMBINE returns `a` rotated left by one, XORed with `b`; no register of CORE is written
(`uopRet`, the model's own, holds the value: log 5). -/
def Obligations.CrcCombineRotatesAndXors : Prop :=
  ∀ (s : State) (a b : Word),
    exec (.crcCombine a b) s = .next { s with uopRet := a.rotateLeft 1 ^^^ b }

/-! ### Symbol set -/

/-- R160, R162: SYM_ANALYZE sets the bit of each byte value that occurs, lists those values ascending,
and a non-empty block has 1 to 256 of them. -/
def Obligations.SymbolSetListsOccurringBytes : Prop :=
  ∀ s : State, ∃ t, exec .symAnalyze s = .next t ∧
    t = { s with present := t.present, alpha := t.alpha } ∧
    (∀ x : Byte, t.present.getLsbD x.toNat = true ↔ x ∈ s.bwtOut) ∧
    (∀ x : Byte, x ∈ t.alpha ↔ x ∈ s.bwtOut) ∧
    t.alpha.Pairwise (fun x y => x.toNat < y.toNat) ∧
    t.m ≤ 256 ∧ (s.bwtOut ≠ [] → 1 ≤ t.m)

/-! ### RLE1 -/

/-- R174 (its result), R178, R180: RLE1_ACCEPT takes a prefix of the offered bytes and returns its
length (in `uopRet`, log 5); BCRC folds in exactly that prefix; BLK_FULL is set when a byte is refused
or the block is exactly filled at the end. It stops early only at a byte for which the block has no room
left, so a block at `EFF = CAP` goes on taking the copies that need none (R176, R178). -/
def Obligations.Rle1AcceptTakesPrefix : Prop :=
  ∀ s : State, s.BlockBounded →
    ∃ t taken, exec .rle1Accept s = .next t ∧
      s.writeIn = taken ++ t.writeIn ∧
      t.uopRet = BitVec.ofNat 32 taken.length ∧
      t.bcrc = crcUpdate s.bcrc taken ∧
      (t.blkFull = true ↔ t.writeIn ≠ [] ∨ t.eff = t.cap.toNat) ∧
      (∀ x xs, t.writeIn = x :: xs → t.cap.toNat < t.eff + t.roomNeeded x) ∧
      t = { s with blkBuf := t.blkBuf, runByte := t.runByte, runLen := t.runLen, bcrc := t.bcrc,
                   blkFull := t.blkFull, writeIn := t.writeIn, uopRet := t.uopRet }

/-- R171: over any number of RLE1_ACCEPTs the block holds the RLE1 code (R170) of all the bytes it has
accepted, the run state going on from one to the next. -/
def Obligations.Rle1BlockHoldsCodeOfAcceptedBytes : Prop :=
  (∀ s : State, s.blkBuf = [] → s.runLen = 0 → s.bcrc = 0 → s.holdsCode []) ∧
  ∀ (s : State) (d : List Byte), s.BlockBounded → s.holdsCode d →
    ∃ t taken, exec .rle1Accept s = .next t ∧ s.writeIn = taken ++ t.writeIn ∧
      t.holdsCode (d ++ taken)

/-- R175, R176, R177: the room a byte needs. Copies 2 and 3 of the open unit's byte need one byte, the
fourth needs two, the fifth to 259th none, and a byte that starts a new unit one. A refused byte leaves
the block as it is. -/
def Obligations.Rle1RoomOfAnOfferedByte : Prop :=
  ∀ (s : State) (x : Byte) (room : Nat), s.BlockBounded → s.writeIn = [x] →
    s.eff + room = s.cap.toNat →
    ∃ t, exec .rle1Accept s = .next t ∧
      (s.runByte = x → 1 ≤ s.runLen.toNat → s.runLen.toNat ≤ 2 →
        (1 ≤ room → t.blkBuf = s.blkBuf ++ [x] ∧ t.runLen = s.runLen + 1 ∧ t.writeIn = []) ∧
        (room = 0 → t = { s with blkFull := true, uopRet := 0 })) ∧
      (s.runByte = x → s.runLen.toNat = 3 →
        (2 ≤ room → t.blkBuf = s.blkBuf ++ [x] ∧ t.runLen = 4 ∧ t.eff = s.eff + 2 ∧
          t.writeIn = []) ∧
        (room ≤ 1 → t = { s with blkFull := true, uopRet := 0 })) ∧
      (s.runByte = x → 4 ≤ s.runLen.toNat → s.runLen.toNat ≤ 258 →
        t.blkBuf = s.blkBuf ∧ t.runLen = s.runLen + 1 ∧ t.eff = s.eff ∧ t.writeIn = []) ∧
      ((s.runByte ≠ x ∨ s.runLen = 0 ∨ s.runLen.toNat = 259) →
        (1 ≤ room → t.runByte = x ∧ t.runLen = 1 ∧ t.eff = s.eff + 1 ∧ t.writeIn = [] ∧
          t.blkBuf = s.blkBuf ++
            (if 4 ≤ s.runLen.toNat then [BitVec.ofNat 8 (s.runLen.toNat - 4)] else []) ++ [x]) ∧
        (room = 0 → t = { s with blkFull := true, uopRet := 0 }))

/-- R179: RLE1_FINISH commits the pending length byte and closes the unit; BLK_LEN (the length of the
live BLK_BUF, log 11) is then EFF. -/
def Obligations.Rle1FinishCommitsLengthByte : Prop :=
  ∀ s : State, s.BlockBounded →
    ∃ t, exec .rle1Finish s = .next t ∧
      t = { s with
            blkBuf := s.blkBuf ++
              (if 4 ≤ s.runLen.toNat then [BitVec.ofNat 8 (s.runLen.toNat - 4)] else []),
            runLen := 0 } ∧
      t.blkLen = s.eff

/-- R184: after RLE1_FINISH the committed block decodes to exactly the accepted bytes. -/
def Obligations.Rle1FinishedBlockDecodes : Prop :=
  ∀ (s : State) (d : List Byte), s.BlockBounded → s.holdsCode d →
    ∃ t, exec .rle1Finish s = .next t ∧ rle1Decode t.blkBuf = d

/-! ### BWT -/

/-- R200, R201, R202: BWT_SORT. The start indexes, put in the order of their rotations, give the last
byte of each rotation, and PTR is the place of index 0. `N` is 1..CAP: with no byte in the block the
model faults (93_implementation_defined.md U2; log 14). -/
def Obligations.BwtSortsRotations : Prop :=
  ∀ s : State,
    (s.blkBuf ≠ [] → s.blkBuf.length ≤ 900000 →
      ∃ t order, exec .bwtSort s = .next t ∧ t = { s with bwtOut := t.bwtOut, ptr := t.ptr } ∧
        List.Perm order (List.range s.blkBuf.length) ∧
        order.Pairwise (RotBefore s.blkBuf) ∧
        t.bwtOut = order.map (fun i => rotByte s.blkBuf i (s.blkBuf.length - 1)) ∧
        order[t.ptr.toNat]? = some 0) ∧
    (s.blkBuf = [] → exec .bwtSort s =
      .fault (.invariantViolation .emptyBlock { s with err := .invariantViolation }))

/-- R203: BWT_OUT is a permutation of the block, and PTR is below its length. -/
def Obligations.BwtOutputIsPermutation : Prop :=
  ∀ s : State, s.blkBuf ≠ [] → s.blkBuf.length ≤ 900000 →
    ∃ t, exec .bwtSort s = .next t ∧ List.Perm t.bwtOut s.blkBuf ∧
      t.ptr.toNat < s.blkBuf.length

/-! ### MTF and RLE2 -/

/-- R220, R221: MTF_RUN starts from ALPHA and gives each byte's index in the recency list, so the ranks
decode to the data, and every rank is below M. That BWT_OUT keeps its bytes is the model's choice (R222
lets RANKS be the same buffer; log 26). -/
def Obligations.MtfRanksDecodeToData : Prop :=
  ∀ s : State, s.alpha.length ≤ 256 → s.bwtOut.length ≤ 900000 → (∀ x ∈ s.bwtOut, x ∈ s.alpha) →
    ∃ t, exec .mtfRun s = .next t ∧ t = { s with mtfList := t.mtfList, ranks := t.ranks } ∧
      t.ranks.length = s.bwtOut.length ∧ (∀ r ∈ t.ranks, r.toNat < s.m) ∧
      mtfDecode s.alpha (t.ranks.map BitVec.toNat) = s.bwtOut ∧ List.Perm t.mtfList s.alpha

/-- R231, R232, R233: RLE2_RUN ends with one EOB symbol `M + 1`, and the symbols before it stand for the
ranks: run digits by the recovery formula, a symbol `y ≥ 2` for rank `y - 1`. -/
def Obligations.Rle2SymbolsDecodeToRanks : Prop :=
  ∀ s : State, s.alpha.length ≤ 256 → s.ranks.length ≤ 900000 → (∀ r ∈ s.ranks, r.toNat < s.m) →
    ∃ t body, exec .rle2Run s = .next t ∧ t = { s with sym := t.sym, freq := t.freq } ∧
      t.sym = body ++ [s.m + 1] ∧ (∀ y ∈ body, y ≤ s.m) ∧
      rle2Decode [] body = s.ranks.map BitVec.toNat

/-- R234, R235: FREQ counts the symbols over the alphabet `0..M+1`, EOB exactly once, and there is at
least one symbol and at most one more than there are ranks. -/
def Obligations.Rle2FrequenciesCountSymbols : Prop :=
  ∀ s : State, s.alpha.length ≤ 256 → s.ranks.length ≤ 900000 → (∀ r ∈ s.ranks, r.toNat < s.m) →
    ∃ t, exec .rle2Run s = .next t ∧
      t.freq = (List.range (s.m + 2)).map (fun y => t.sym.count y) ∧
      t.sym.count (s.m + 1) = 1 ∧
      1 ≤ t.symLen ∧ t.symLen ≤ s.ranks.length + 1 ∧ t.symLen ≤ 900001

/-- R61, R346: these units fault with InvariantViolation where they would form an index outside a buffer or
outside its written entries (U6; log 11): BWT_SORT past BLK_BUF, MTF_RUN past its buffers or at a byte
outside ALPHA, RLE2_RUN past FREQ or SYM, HUFF_BUILD past FREQ or SEL, HUFF_CODES past the written tables
of LEN, SEL_MTF past SEL or at a selector without a tree, RLE1_FINISH at a length byte and RLE1_ACCEPT at
a byte (after a prefix `p` that is taken whole) past BLK_BUF. That the fault comes before the unit writes
anything is the model's choice (log 29). The last clause, BLK_SERIALIZE of an empty block, is the model's
reading of R270 and U2 (log 14). -/
def Obligations.IndexOutsideBufferFaults : Prop :=
  ∀ s e : State, e = { s with err := .invariantViolation } →
    (900000 < s.blkBuf.length →
      exec .bwtSort s = .fault (.invariantViolation .indexOutside e)) ∧
    ((256 < s.alpha.length ∨ 900000 < s.bwtOut.length ∨ ∃ x ∈ s.bwtOut, x ∉ s.alpha) →
      exec .mtfRun s = .fault (.invariantViolation .indexOutside e)) ∧
    ((256 < s.alpha.length ∨ (∃ r ∈ s.ranks, s.m < r.toNat) ∨
        ∃ body, rle2Decode [] body = s.ranks.map BitVec.toNat ∧ 900000 < body.length) →
      exec .rle2Run s = .fault (.invariantViolation .indexOutside e)) ∧
    ((s.freq.length < s.m + 2 ∨ 256 < s.alpha.length ∨ 900050 < s.sym.length) →
      exec .huffBuild s = .fault (.invariantViolation .indexOutside e)) ∧
    ((256 < s.alpha.length ∨ s.len.length < s.ntrees.toNat ∨
        ∃ lens ∈ s.len.take s.ntrees.toNat, lens.length < s.m + 2) →
      exec .huffCodes s = .fault (.invariantViolation .indexOutside e)) ∧
    ((s.sel.length < s.nsel.toNat ∨ ∃ g ∈ s.sel.take s.nsel.toNat, s.ntrees.toNat ≤ g) →
      exec .selMtf s = .fault (.invariantViolation .indexOutside e)) ∧
    (900000 < s.eff → exec .rle1Finish s = .fault (.invariantViolation .indexOutside e)) ∧
    (∀ (p xs : List Byte) (x : Byte) (t : State), s.writeIn = p ++ x :: xs →
      exec .rle1Accept { s with writeIn := p } = .next t → t.writeIn = [] → 1 ≤ t.roomNeeded x →
      t.eff + t.roomNeeded x ≤ t.cap.toNat → 900000 ≤ t.eff →
      exec .rle1Accept s = .fault (.invariantViolation .indexOutside e)) ∧
    (s.blkBuf = [] → s.runLen = 0 →
      exec .blkSerialize s = .fault (.invariantViolation .emptyBlock e))

/-! ### Huffman -/

/-- R240 to R247, R249, R250, R252: HUFF_BUILD. The leaves of R244 merge into a tree as R245 and R246 say,
and the code length of each symbol is the depth of its leaf (R247). With every length at most 20 the
lengths, which fill the code space, are given to NTREES equal tables, beside NSEL, NTREES and the
round-robin schedule; with a longest length above 20 it is CodeLengthOverflow, NSEL and NTREES being
written (R340). The tie order is the parameter HUFF_TIE, whose default is R246's (log 16). -/
def Obligations.HuffBuildGivesCompleteLengthTables : Prop :=
  (State.reset.tieOrder = [] ∧ ∀ k, tieKey [] k = k) ∧
  ∀ s : State, s.freq.length = s.m + 2 → s.m ≤ 256 → s.sym.length ≤ 900001 →
    ∀ nsel ntrees : Nat, nsel = max 1 ((s.symLen + 49) / 50) →
      ntrees = (if nsel ≤ 2 then 2 else min nsel 6) →
    ∃ (tree : HuffTree) (lens : List Nat), Merges s.tieOrder (s.m + 2) (huffLeaves s.freq) tree ∧
      lens.length = s.m + 2 ∧
      (∀ y l : Nat, lens[y]? = some l → LeafAt y tree l) ∧ (∀ l ∈ lens, 1 ≤ l) ∧
      ((∀ l ∈ lens, l ≤ 20) → KraftEquality 20 lens ∧
        exec .huffBuild s = .next
          { s with nsel := BitVec.ofNat 15 nsel, ntrees := BitVec.ofNat 3 ntrees,
                   len := List.replicate ntrees lens,
                   sel := (List.range nsel).map (· % ntrees) }) ∧
      (∀ longest ∈ lens, (∀ l ∈ lens, l ≤ longest) → 20 < longest →
        exec .huffBuild s = .fault (.codeLengthOverflow longest
          { s with nsel := BitVec.ofNat 15 nsel, ntrees := BitVec.ofNat 3 ntrees,
                   err := .codeLengthOverflow }))

/-- With at most 19 byte values in the block no code is longer than 20 bits, whatever the frequencies
and the tie order (HUFF_TIE, log 16), so HUFF_BUILD completes. -/
def Obligations.HuffBuildCompletesForSmallAlphabets : Prop :=
  ∀ s : State, s.m ≤ 19 → s.freq.length = s.m + 2 → s.sym.length ≤ 900001 →
    ∃ t, exec .huffBuild s = .next t

/-- R245, R246: whatever the tie order, a symbol that occurs more often never has the longer code. -/
def Obligations.FrequentSymbolsHaveNoLongerCodes : Prop :=
  ∀ (s t : State), s.freq.length = s.m + 2 → exec .huffBuild s = .next t →
    ∀ lens ∈ t.len, ∀ (y z f g l m : Nat), s.freq[y]? = some f → s.freq[z]? = some g →
      lens[y]? = some l → lens[z]? = some m → g < f → l ≤ m

/-- R248: HUFF_CODES gives each of the tables LEN[0..NTREES)[0..A) its canonical codes. -/
def Obligations.HuffCodesAreCanonical : Prop :=
  ∀ (s : State) (tables : List (List Nat)), s.m ≤ 256 → s.ntrees.toNat ≤ s.len.length →
    (∀ lens ∈ s.len.take s.ntrees.toNat, s.m + 2 ≤ lens.length) →
    tables = (s.len.take s.ntrees.toNat).map (fun lens => lens.take (s.m + 2)) →
    (∀ lens ∈ tables, KraftEquality 20 lens ∧ ∀ l ∈ lens, 1 ≤ l) →
    ∃ t, exec .huffCodes s = .next t ∧ t = { s with code := t.code } ∧
      List.Forall₂ Canonical tables t.code

/-- R252: the canonical codes of a complete table form a prefix code. -/
def Obligations.HuffCodesArePrefixFree : Prop :=
  ∀ (s : State) (tables : List (List Nat)), s.m ≤ 256 → s.ntrees.toNat ≤ s.len.length →
    (∀ lens ∈ s.len.take s.ntrees.toNat, s.m + 2 ≤ lens.length) →
    tables = (s.len.take s.ntrees.toNat).map (fun lens => lens.take (s.m + 2)) →
    (∀ lens ∈ tables, KraftEquality 20 lens ∧ ∀ l ∈ lens, 1 ≤ l) →
    ∃ t, exec .huffCodes s = .next t ∧ List.Forall₂ PrefixFree tables t.code

/-- R251: SEL_MTF's ranks decode to the selectors SEL[0..NSEL), and the round-robin schedule of R250 gives
0, 1, …, NTREES-1 and then NTREES-1 for every later group. -/
def Obligations.SelectorRanksOfRoundRobin : Prop :=
  ∀ s : State, s.nsel.toNat ≤ s.sel.length →
    (∀ g ∈ s.sel.take s.nsel.toNat, g < s.ntrees.toNat) →
    ∃ t, exec .selMtf s = .next t ∧ t = { s with selRank := t.selRank } ∧
      t.selRank.length = s.nsel.toNat ∧ (∀ r ∈ t.selRank, r < s.ntrees.toNat) ∧
      mtfDecode (List.range s.ntrees.toNat) t.selRank = s.sel.take s.nsel.toNat ∧
      (s.sel.take s.nsel.toNat = (List.range s.nsel.toNat).map (· % s.ntrees.toNat) →
        t.selRank = (List.range s.nsel.toNat).map (fun g => min g (s.ntrees.toNat - 1)))

/-! ### Block serializer -/

/-- R270: BLK_SERIALIZE runs the units in the rule's order, each on what the one before it left. -/
def Obligations.SerializeRunsUnitsInOrder : Prop :=
  ∀ s t : State, exec .blkSerialize s = .next t →
    ∃ s1 s2 s3 s4 s5 s6 s7 s8, exec .rle1Finish s = .next s1 ∧ exec .bwtSort s1 = .next s2 ∧
      exec .symAnalyze s2 = .next s3 ∧ exec .mtfRun s3 = .next s4 ∧ exec .rle2Run s4 = .next s5 ∧
      exec .huffBuild s5 = .next s6 ∧ exec .huffCodes s6 = .next s7 ∧
      exec .selMtf s7 = .next s8 ∧ SameWork s8 t

/-- R270, R282: a non-empty block of at most 19 byte values (so that no code is longer than 20 bits) is
serialised when the sink does not fail: the stream CRC is combined, and the block is empty again. That
RUN_BYTE, which R45 calls unspecified at the start of a block, keeps its value is the model's choice
(log 12). -/
def Obligations.SerializeCompletesBlock : Prop :=
  ∀ s : State, s.BlockBounded → s.blockEmpty = false → s.fewValues 19 → s.err = .noError →
    s.sinkHealthy →
    ∃ t, exec .blkSerialize s = .next t ∧ SameButBlock s t ∧ t.err = .noError ∧
      t.scrc = s.scrc.rotateLeft 1 ^^^ s.bcrc ∧ t.blkBuf = [] ∧ t.runLen = 0 ∧ t.bcrc = 0

/-- R271 to R281: the bits a completed BLK_SERIALIZE sends are the block layout of its working registers
and the block's CRC. R282: the stream CRC is then combined and the block is empty. -/
def Obligations.SerializeSendsBlockLayout : Prop :=
  ∀ s t : State, s.BlockBounded → s.err = .noError → exec .blkSerialize s = .next t →
    t.err = .noError →
    t.stream = s.stream ++ blockBits t s.bcrc ∧
    t.scrc = s.scrc.rotateLeft 1 ^^^ s.bcrc ∧ t.blkBuf = [] ∧ t.runLen = 0 ∧ t.bcrc = 0

/-- R284: the length of a block in bits. -/
def Obligations.SerializedBlockLength : Prop :=
  ∀ s t : State, s.BlockBounded → s.err = .noError → exec .blkSerialize s = .next t →
    t.err = .noError →
    t.stream.length = s.stream.length + 48 + 32 + 1 + 24 + 16 +
      16 * ((List.range 16).filter (rangePresent t.present)).length + 3 + 15 +
      ((List.range t.nsel.toNat).map fun g => t.selRank.getD g 0 + 1).sum +
      (t.len.map fun lens => 5 + deltaSum ((lens.min?).getD 0) lens).sum +
      (t.sym.zipIdx.map fun p =>
        (t.len.getD (t.sel.getD (p.2 / 50) 0) []).getD p.1 0).sum

/-- R249, R283, R347: on a non-empty block BLK_SERIALIZE ends in a next state or in CodeLengthOverflow
with a code longer than 20 bits and no bit of the block sent; a next state with ERR set is a sink
failure, and completion is then not performed. RUN_BYTE keeps its value by the model's choice
(log 12). -/
def Obligations.SerializeFaultsOnlyOnLongCodes : Prop :=
  ∀ s : State, s.BlockBounded → s.blockEmpty = false → s.err = .noError →
    (∃ t, exec .blkSerialize s = .next t ∧ SameButBlock s t ∧
      (t.err = .noError ∨ t.err = .sinkIOError ∧ t.scrc = s.scrc ∧ t.bcrc = s.bcrc)) ∨
    (∃ longest e, exec .blkSerialize s = .fault (.codeLengthOverflow longest e) ∧ 20 < longest ∧
      e.err = .codeLengthOverflow ∧ e.sinkBytes = s.sinkBytes ∧ e.bwCnt = s.bwCnt)

/-! ### Stream -/

/-- R302: STREAM_HEADER sends `42 5A 68 (30 + LEVEL)` and enters HeaderWritten; a failed byte leaves
SSTATE; while ERR is set nothing is sent. -/
def Obligations.StreamHeaderSendsFourBytes : Prop :=
  ∀ s : State,
    (s.err ≠ .noError → exec .streamHeader s = .next s) ∧
    (s.err = .noError → s.sinkHealthy →
      ∃ t, exec .streamHeader s = .next t ∧
        SameButWriter { s with sstate := .headerWritten } t ∧ t.err = .noError ∧
        t.stream = s.stream ++ headerBits s.level ∧ t.bwCnt = s.bwCnt) ∧
    (s.err = .noError → s.bwCnt = 0 →
      (s.sinkAccepts 4 → ∃ t, exec .streamHeader s = .next t ∧ t.sstate = .headerWritten ∧
        t.sinkBytes = s.sinkBytes ++ [0x42, 0x5A, 0x68, 0x30 + s.level.setWidth 8]) ∧
      (∀ j < 4, s.sinkFailsAt j → ∃ t, exec .streamHeader s = .next t ∧ SameButWriter s t ∧
        t.err = .sinkIOError ∧
        t.sinkBytes = s.sinkBytes ++ [0x42, 0x5A, 0x68, 0x30 + s.level.setWidth 8].take j))

/-- R308, R98: STREAM_FOOTER sends the end magic, SCRC and zero bits to the byte boundary; the only
error it can end in is SinkIOError, and while ERR is set it does nothing. -/
def Obligations.StreamFooterSendsCrcAndPads : Prop :=
  ∀ s : State,
    (s.err ≠ .noError → exec .streamFooter s = .next s) ∧
    (s.err = .noError → ∃ t, exec .streamFooter s = .next t ∧ SameButWriter s t ∧
      (t.err = .noError ∨ t.err = .sinkIOError)) ∧
    (s.err = .noError → s.sinkHealthy →
      ∃ t, exec .streamFooter s = .next t ∧ SameButWriter s t ∧ t.err = .noError ∧
        t.stream = s.stream ++ footerBits s.scrc s.bwCnt ∧ t.bwCnt = 0)

/-- R306: FLUSH of an empty block emits nothing and answers success; of a non-empty block it is
BLK_SERIALIZE, whose error it answers; where BLK_SERIALIZE faults FLUSH faults with it, RESULT.err
written (R347: 6 for CodeLengthOverflow). -/
def Obligations.FlushSerialisesOpenBlock : Prop :=
  ∀ s : State, s.streamOpen →
    (s.blkBuf = [] → s.runLen = 0 →
      exec .flush s = .next { s with result := 0, phase := .idle }) ∧
    (s.blockEmpty = false → ∀ t, exec .blkSerialize s = .next t →
      exec .flush s = .next { t with result := resultWord t.err 0, phase := .idle }) ∧
    (s.blockEmpty = false → ∀ r : Fault, exec .blkSerialize s = .fault r →
      exec .flush s = .fault (r.inCommand fun _ => 0)) ∧
    (∀ (longest : Nat) (e : State), (Fault.codeLengthOverflow longest e).inCommand (fun _ => 0) =
      .codeLengthOverflow longest { e with result := 0x60000000, phase := .idle }) ∧
    (s.BlockBounded → s.blockEmpty = false → s.fewValues 19 → s.sinkHealthy →
      ∃ t, exec .flush s = .next t ∧ t.err = .noError ∧ t.result = 0 ∧ t.blkBuf = [] ∧
        t.runLen = 0 ∧ t.scrc = s.scrc.rotateLeft 1 ^^^ s.bcrc ∧ t.sstate = s.sstate)

/-- R307: CLOSE with nothing written gives the empty stream, header then footer, 14 bytes. -/
def Obligations.CloseOfEmptyStreamSendsFourteenBytes : Prop :=
  ∀ s : State, s.sstate = .unopened → s.err = .noError → s.blkBuf = [] → s.runLen = 0 →
    s.bwCnt = 0 → s.scrc = 0 → s.sinkAccepts 14 →
    ∃ t, exec .close s = .next t ∧
      SameButWriter { s with sstate := .closed, result := 0, phase := .idle } t ∧
      t.err = .noError ∧ t.bwCnt = 0 ∧
      t.sinkBytes = s.sinkBytes ++ [0x42, 0x5A, 0x68, 0x30 + s.level.setWidth 8,
        0x17, 0x72, 0x45, 0x38, 0x50, 0x90, 0, 0, 0, 0]

/-- R307, R351: CLOSE of an open stream, part by part, each ended by the first error, which RESULT.err
gives and on which SSTATE is not Closed. In Unopened the header comes first. An open block is
serialised, and where that faults CLOSE faults with it, RESULT.err written (R347). An empty block goes
straight to the footer. After the footer SSTATE is Closed. The last clause: with an open block of at
most 19 byte values and a sink that does not fail, CLOSE completes on a byte boundary. -/
def Obligations.CloseSerialisesAndFinishes : Prop :=
  (∀ s h : State, s.sstate = .unopened → s.err = .noError → exec .streamHeader s = .next h →
    (h.err = .noError → exec .close s = exec .close h) ∧
    (h.err ≠ .noError →
      exec .close s = .next { h with result := resultWord h.err 0, phase := .idle })) ∧
  (∀ s : State, s.sstate = .headerWritten → s.err = .noError →
    (s.blkBuf = [] → s.runLen = 0 → ∀ u, exec .streamFooter s = .next u →
      exec .close s = .next
        { u with sstate := if u.err = .noError then .closed else .headerWritten,
                 result := resultWord u.err 0, phase := .idle }) ∧
    (s.blockEmpty = false → ∀ t, exec .blkSerialize s = .next t →
      (t.err ≠ .noError →
        exec .close s = .next { t with result := resultWord t.err 0, phase := .idle }) ∧
      (t.err = .noError → ∀ u, exec .streamFooter t = .next u →
        exec .close s = .next
          { u with sstate := if u.err = .noError then .closed else .headerWritten,
                   result := resultWord u.err 0, phase := .idle })) ∧
    (s.blockEmpty = false → ∀ r : Fault, exec .blkSerialize s = .fault r →
      exec .close s = .fault (r.inCommand fun _ => 0))) ∧
  ∀ s : State, s.sstate = .headerWritten → s.err = .noError → s.BlockBounded →
    s.blockEmpty = false → s.fewValues 19 → s.sinkHealthy →
    ∃ t u, exec .blkSerialize s = .next t ∧ exec .close s = .next u ∧
      SameButWriter { t with sstate := .closed, result := 0, phase := .idle } u ∧
      u.err = .noError ∧ u.bwCnt = 0 ∧
      u.stream = t.stream ++ footerBits (s.scrc.rotateLeft 1 ^^^ s.bcrc) t.bwCnt

/-- R303: a WRITE whose bytes fit the open block (each takes at most 2 bytes of room) sends the header
when SSTATE is Unopened, accepts every byte, serialises nothing and answers `n`. DIN holds the last byte
(R42, R63; log 27). -/
def Obligations.WriteThatFitsAcceptsEveryByte : Prop :=
  ∀ (s : State) (n : BitVec 24), s.streamOpen → s.BlockBounded →
    n.toNat ≤ s.dinIn.length → s.eff + 2 * n.toNat < s.cap.toNat → s.sinkHealthy →
    ∃ t, exec (.write n) s = .next t ∧ t.result = n.setWidth 32 ∧ t.err = .noError ∧
      t.sstate = .headerWritten ∧ t.dinIn = s.dinIn.drop n.toNat ∧
      t.bcrc = crcUpdate s.bcrc (s.dinIn.take n.toNat) ∧
      (∀ d, s.holdsCode d → t.holdsCode (d ++ s.dinIn.take n.toNat)) ∧
      t.stream = s.stream ++ (if s.sstate = .unopened then headerBits s.level else []) ∧
      t = { s with
            bwAcc := t.bwAcc, bwCnt := t.bwCnt, dout := t.dout, sinkScript := t.sinkScript,
            sinkBytes := t.sinkBytes, sstate := t.sstate, phase := .idle,
            blkBuf := t.blkBuf, runByte := t.runByte, runLen := t.runLen, bcrc := t.bcrc,
            blkFull := false, dinIn := t.dinIn, din := (s.dinIn.take n.toNat).getLastD s.din,
            writeIn := [], uopRet := t.uopRet, result := t.result }

/-- R303, R304, R182: the block cycle of WRITE. It ends: from every settled state with its bytes supplied,
a WRITE ends in a next state, or in CodeLengthOverflow with a code longer than 20 bits. In Unopened the
header comes first. One pass of it, the `n` bytes being offered to RLE1_ACCEPT: with BLK_FULL 0 the WRITE
is done; with BLK_FULL 1 the block is serialised, BLK_FULL being 0, and then the WRITE is done when no
byte was refused, and otherwise goes on as the WRITE of the refused bytes into the empty block does: it
ends in that one's state with RESULT.count `n`, or in that one's error or fault. An error or a fault ends
it, RESULT.count being a value in 0..n (R305; log 8, log 25).
The bytes of DIN are taken together at the start (log 27). -/
def Obligations.WriteBlockCycleEnds : Prop :=
  (∀ (s : State) (n : BitVec 24), s.Settled → s.BlockBounded → s.streamOpen →
    n.toNat ≤ s.dinIn.length →
    (∃ t, exec (.write n) s = .next t) ∨
    (∃ longest e, exec (.write n) s = .fault (.codeLengthOverflow longest e) ∧ 20 < longest ∧
      e.err = .codeLengthOverflow)) ∧
  (∀ (s h : State) (n : BitVec 24), s.sstate = .unopened → s.err = .noError →
    n.toNat ≤ s.dinIn.length → exec .streamHeader s = .next h → h.err = .noError →
    exec (.write n) s = exec (.write n) h) ∧
  ∀ (s a : State) (n : BitVec 24), s.sstate = .headerWritten → s.err = .noError →
    n.toNat ≤ s.dinIn.length →
    exec .rle1Accept
      { s with writeIn := s.dinIn.take n.toNat, dinIn := s.dinIn.drop n.toNat,
               din := (s.dinIn.take n.toNat).getLastD s.din } = .next a →
    (a.blkFull = false → a.writeIn = [] ∧
      exec (.write n) s = .next { a with result := n.setWidth 32, phase := .idle }) ∧
    (a.blkFull = true → ∀ b, exec .blkSerialize { a with blkFull := false } = .next b →
      (b.err ≠ .noError → ∃ (c : BitVec 24) (d : Nat), c.toNat ≤ n.toNat ∧
        exec (.write n) s = .next
          { b with result := resultWord b.err c, phase := .idle, writeIn := [], draws := d }) ∧
      (b.err = .noError →
        b.blkBuf = [] ∧ b.runLen = 0 ∧ b.bcrc = 0 ∧ b.blkFull = false ∧ b.writeIn = a.writeIn ∧
        (a.writeIn = [] →
          exec (.write n) s = .next { b with result := n.setWidth 32, phase := .idle }) ∧
        ∀ k : BitVec 24, k.toNat = a.writeIn.length → k ≠ 0 →
          (∀ u, exec (.write k) { b with writeIn := [], dinIn := a.writeIn ++ b.dinIn } = .next u →
            (u.err = .noError → exec (.write n) s = .next { u with result := n.setWidth 32 }) ∧
            (u.err ≠ .noError → ∃ c : BitVec 24, c.toNat ≤ n.toNat ∧
              exec (.write n) s = .next { u with result := resultWord u.err c })) ∧
          ∀ r, exec (.write k) { b with writeIn := [], dinIn := a.writeIn ++ b.dinIn } = .fault r →
            ∃ c : BitVec 24, c.toNat ≤ n.toNat ∧
              exec (.write n) s = .fault (r.inCommand fun _ => c))) ∧
    (a.blkFull = true → ∀ r : Fault, exec .blkSerialize { a with blkFull := false } = .fault r →
      ∃ c : BitVec 24, c.toNat ≤ n.toNat ∧ exec (.write n) s = .fault (r.inCommand fun _ => c))

/-- R305: the result of a WRITE. With no error RESULT.count is `n`; with an error, at a check of R350 or
inside the command, RESULT.err is the error and the count is some value in 0..n (a free value of the
model, log 8). Every DIN byte of the command is gone, and DIN holds the last one (log 27, log 28). -/
def Obligations.WriteResultCount : Prop :=
  ∀ (s t : State) (n : BitVec 24), exec (.write n) s = .next t →
    t.dinIn = s.dinIn.drop n.toNat ∧ t.writeIn = [] ∧
    t.din = (s.dinIn.take n.toNat).getLastD s.din ∧
    (s.streamOpen → t.err = .noError → t.result = n.setWidth 32) ∧
    (¬ (s.streamOpen ∧ t.err = .noError) →
      ∃ c : BitVec 24, c.toNat ≤ n.toNat ∧
        t.result = resultWord (if s.sstate = .unconfigured then .notConfigured else t.err) c)

/-- R376 (in the open block): splitting the bytes of a WRITE in two changes nothing but RESULT and the
returned count of the last RLE1_ACCEPT, when no block fills. -/
def Obligations.WritePartitionKeepsOpenBlock : Prop :=
  ∀ (s : State) (n k total : BitVec 24), s.streamOpen → s.BlockBounded →
    total.toNat = n.toNat + k.toNat → total.toNat ≤ s.dinIn.length →
    s.eff + 2 * total.toNat < s.cap.toNat → s.sinkHealthy →
    ∃ t u v, exec (.write n) s = .next t ∧ exec (.write k) t = .next u ∧
      exec (.write total) s = .next v ∧ u = { v with result := u.result, uopRet := u.uopRet }

/-- R64, R378: a byte accepted by the sink is never taken back: every step but the host's attaching of
another sink only adds to the sink's bytes. After a step that leaves no error DOUT (R42) holds the last
byte the step delivered, and is as before when it delivered none. -/
def Obligations.DeliveredBytesAreFinal : Prop :=
  ∀ s t : State, step s = .next t → (∀ l r es, s.hostQueue ≠ .attachSink l r :: es) →
    s.sinkBytes <+: t.sinkBytes ∧
    (t.err = .noError → t.dout = (t.sinkBytes.drop s.sinkBytes.length).getLastD s.dout)

/-! ### Reset and invariants -/

/-- R370, R45: the values the spec gives the power-on state; and STATUS reads 0, whose BW_CNT and
BLK_NONEMPTY fields rest on the model's own values at power-on (log 10, log 11). -/
def Obligations.PowerOnState : Prop :=
  State.reset.sstate = .unconfigured ∧ State.reset.phase = .idle ∧ State.reset.level = 0 ∧
  State.reset.err = .noError ∧ State.reset.blkFull = false ∧ State.reset.sinkBytes = [] ∧
  State.reset.statusWord = 0

/-- The power-on state meets the invariants. CAP, BLK_LEN, RUN_LEN and the buffers are unspecified at
power-on (R45), so this rests on the values the model chose for them: 0 (log 10), and no live entry
(log 11). -/
def Obligations.PowerOnStateMeetsInvariants : Prop :=
  State.reset.Sized ∧ State.reset.BlockBounded ∧ State.reset.Settled

/-- R61, R100: every step keeps every buffer within its size and every entry within its width. -/
def Obligations.StepKeepsBufferSizes : Prop :=
  ∀ s t : State, s.Sized → step s = .next t → t.Sized

/-- R173: every step keeps the block within CAP. -/
def Obligations.StepKeepsBlockWithinCapacity : Prop :=
  ∀ s t : State, s.BlockBounded → step s = .next t → t.BlockBounded

/-- R23, R32, R24, R25: with a host that keeps its contract, every step ends with PHASE Idle, BLK_FULL 0
and no input left over, and a configured CORE has a level 1..9 and its capacity. -/
def Obligations.StepKeepsSettled : Prop :=
  ∀ s t : State, s.Settled → step s = .next t → t.Settled
end

