-- ==== Sys2Proof/Laws/State.lean ====
section
/-! SUPPORT. One lemma per field and update of the state, each by rfl: what every named update of
Machine/ leaves in each field. -/

set_option Elab.async false

namespace Sys2Proof.Machine

variable (s : State)

/-! ### setPhase -/

@[simp] theorem State.setPhase_sstate (p : Phase) : (s.setPhase p).sstate = s.sstate := rfl
@[simp] theorem State.setPhase_phase (p : Phase) : (s.setPhase p).phase = p := rfl
@[simp] theorem State.setPhase_level (p : Phase) : (s.setPhase p).level = s.level := rfl
@[simp] theorem State.setPhase_cap (p : Phase) : (s.setPhase p).cap = s.cap := rfl
@[simp] theorem State.setPhase_err (p : Phase) : (s.setPhase p).err = s.err := rfl
@[simp] theorem State.setPhase_scrc (p : Phase) : (s.setPhase p).scrc = s.scrc := rfl
@[simp] theorem State.setPhase_bwAcc (p : Phase) : (s.setPhase p).bwAcc = s.bwAcc := rfl
@[simp] theorem State.setPhase_bwCnt (p : Phase) : (s.setPhase p).bwCnt = s.bwCnt := rfl
@[simp] theorem State.setPhase_blkBuf (p : Phase) : (s.setPhase p).blkBuf = s.blkBuf := rfl
@[simp] theorem State.setPhase_runByte (p : Phase) : (s.setPhase p).runByte = s.runByte := rfl
@[simp] theorem State.setPhase_runLen (p : Phase) : (s.setPhase p).runLen = s.runLen := rfl
@[simp] theorem State.setPhase_bcrc (p : Phase) : (s.setPhase p).bcrc = s.bcrc := rfl
@[simp] theorem State.setPhase_blkFull (p : Phase) : (s.setPhase p).blkFull = s.blkFull := rfl
@[simp] theorem State.setPhase_bwtOut (p : Phase) : (s.setPhase p).bwtOut = s.bwtOut := rfl
@[simp] theorem State.setPhase_ptr (p : Phase) : (s.setPhase p).ptr = s.ptr := rfl
@[simp] theorem State.setPhase_present (p : Phase) : (s.setPhase p).present = s.present := rfl
@[simp] theorem State.setPhase_alpha (p : Phase) : (s.setPhase p).alpha = s.alpha := rfl
@[simp] theorem State.setPhase_mtfList (p : Phase) : (s.setPhase p).mtfList = s.mtfList := rfl
@[simp] theorem State.setPhase_ranks (p : Phase) : (s.setPhase p).ranks = s.ranks := rfl
@[simp] theorem State.setPhase_sym (p : Phase) : (s.setPhase p).sym = s.sym := rfl
@[simp] theorem State.setPhase_freq (p : Phase) : (s.setPhase p).freq = s.freq := rfl
@[simp] theorem State.setPhase_ntrees (p : Phase) : (s.setPhase p).ntrees = s.ntrees := rfl
@[simp] theorem State.setPhase_nsel (p : Phase) : (s.setPhase p).nsel = s.nsel := rfl
@[simp] theorem State.setPhase_len (p : Phase) : (s.setPhase p).len = s.len := rfl
@[simp] theorem State.setPhase_code (p : Phase) : (s.setPhase p).code = s.code := rfl
@[simp] theorem State.setPhase_sel (p : Phase) : (s.setPhase p).sel = s.sel := rfl
@[simp] theorem State.setPhase_selRank (p : Phase) : (s.setPhase p).selRank = s.selRank := rfl
@[simp] theorem State.setPhase_cmd (p : Phase) : (s.setPhase p).cmd = s.cmd := rfl
@[simp] theorem State.setPhase_din (p : Phase) : (s.setPhase p).din = s.din := rfl
@[simp] theorem State.setPhase_result (p : Phase) : (s.setPhase p).result = s.result := rfl
@[simp] theorem State.setPhase_dout (p : Phase) : (s.setPhase p).dout = s.dout := rfl
@[simp] theorem State.setPhase_writeIn (p : Phase) : (s.setPhase p).writeIn = s.writeIn := rfl
@[simp] theorem State.setPhase_hostQueue (p : Phase) : (s.setPhase p).hostQueue = s.hostQueue := rfl
@[simp] theorem State.setPhase_dinIn (p : Phase) : (s.setPhase p).dinIn = s.dinIn := rfl
@[simp] theorem State.setPhase_sinkScript (p : Phase) : (s.setPhase p).sinkScript = s.sinkScript := rfl
@[simp] theorem State.setPhase_sinkRest (p : Phase) : (s.setPhase p).sinkRest = s.sinkRest := rfl
@[simp] theorem State.setPhase_sinkBytes (p : Phase) : (s.setPhase p).sinkBytes = s.sinkBytes := rfl
@[simp] theorem State.setPhase_uopRet (p : Phase) : (s.setPhase p).uopRet = s.uopRet := rfl
@[simp] theorem State.setPhase_draws (p : Phase) : (s.setPhase p).draws = s.draws := rfl
@[simp] theorem State.setPhase_tieOrder (p : Phase) : (s.setPhase p).tieOrder = s.tieOrder := rfl

/-! ### raise -/

@[simp] theorem State.raise_sstate (e : ErrCode) : (s.raise e).sstate = s.sstate := rfl
@[simp] theorem State.raise_phase (e : ErrCode) : (s.raise e).phase = s.phase := rfl
@[simp] theorem State.raise_level (e : ErrCode) : (s.raise e).level = s.level := rfl
@[simp] theorem State.raise_cap (e : ErrCode) : (s.raise e).cap = s.cap := rfl
@[simp] theorem State.raise_err (e : ErrCode) : (s.raise e).err = (if e.sticky then e else s.err) := rfl
@[simp] theorem State.raise_scrc (e : ErrCode) : (s.raise e).scrc = s.scrc := rfl
@[simp] theorem State.raise_bwAcc (e : ErrCode) : (s.raise e).bwAcc = s.bwAcc := rfl
@[simp] theorem State.raise_bwCnt (e : ErrCode) : (s.raise e).bwCnt = s.bwCnt := rfl
@[simp] theorem State.raise_blkBuf (e : ErrCode) : (s.raise e).blkBuf = s.blkBuf := rfl
@[simp] theorem State.raise_runByte (e : ErrCode) : (s.raise e).runByte = s.runByte := rfl
@[simp] theorem State.raise_runLen (e : ErrCode) : (s.raise e).runLen = s.runLen := rfl
@[simp] theorem State.raise_bcrc (e : ErrCode) : (s.raise e).bcrc = s.bcrc := rfl
@[simp] theorem State.raise_blkFull (e : ErrCode) : (s.raise e).blkFull = s.blkFull := rfl
@[simp] theorem State.raise_bwtOut (e : ErrCode) : (s.raise e).bwtOut = s.bwtOut := rfl
@[simp] theorem State.raise_ptr (e : ErrCode) : (s.raise e).ptr = s.ptr := rfl
@[simp] theorem State.raise_present (e : ErrCode) : (s.raise e).present = s.present := rfl
@[simp] theorem State.raise_alpha (e : ErrCode) : (s.raise e).alpha = s.alpha := rfl
@[simp] theorem State.raise_mtfList (e : ErrCode) : (s.raise e).mtfList = s.mtfList := rfl
@[simp] theorem State.raise_ranks (e : ErrCode) : (s.raise e).ranks = s.ranks := rfl
@[simp] theorem State.raise_sym (e : ErrCode) : (s.raise e).sym = s.sym := rfl
@[simp] theorem State.raise_freq (e : ErrCode) : (s.raise e).freq = s.freq := rfl
@[simp] theorem State.raise_ntrees (e : ErrCode) : (s.raise e).ntrees = s.ntrees := rfl
@[simp] theorem State.raise_nsel (e : ErrCode) : (s.raise e).nsel = s.nsel := rfl
@[simp] theorem State.raise_len (e : ErrCode) : (s.raise e).len = s.len := rfl
@[simp] theorem State.raise_code (e : ErrCode) : (s.raise e).code = s.code := rfl
@[simp] theorem State.raise_sel (e : ErrCode) : (s.raise e).sel = s.sel := rfl
@[simp] theorem State.raise_selRank (e : ErrCode) : (s.raise e).selRank = s.selRank := rfl
@[simp] theorem State.raise_cmd (e : ErrCode) : (s.raise e).cmd = s.cmd := rfl
@[simp] theorem State.raise_din (e : ErrCode) : (s.raise e).din = s.din := rfl
@[simp] theorem State.raise_result (e : ErrCode) : (s.raise e).result = s.result := rfl
@[simp] theorem State.raise_dout (e : ErrCode) : (s.raise e).dout = s.dout := rfl
@[simp] theorem State.raise_writeIn (e : ErrCode) : (s.raise e).writeIn = s.writeIn := rfl
@[simp] theorem State.raise_hostQueue (e : ErrCode) : (s.raise e).hostQueue = s.hostQueue := rfl
@[simp] theorem State.raise_dinIn (e : ErrCode) : (s.raise e).dinIn = s.dinIn := rfl
@[simp] theorem State.raise_sinkScript (e : ErrCode) : (s.raise e).sinkScript = s.sinkScript := rfl
@[simp] theorem State.raise_sinkRest (e : ErrCode) : (s.raise e).sinkRest = s.sinkRest := rfl
@[simp] theorem State.raise_sinkBytes (e : ErrCode) : (s.raise e).sinkBytes = s.sinkBytes := rfl
@[simp] theorem State.raise_uopRet (e : ErrCode) : (s.raise e).uopRet = s.uopRet := rfl
@[simp] theorem State.raise_draws (e : ErrCode) : (s.raise e).draws = s.draws := rfl
@[simp] theorem State.raise_tieOrder (e : ErrCode) : (s.raise e).tieOrder = s.tieOrder := rfl

/-! ### restart -/

@[simp] theorem State.restart_sstate : (s.restart).sstate = .unopened := rfl
@[simp] theorem State.restart_phase : (s.restart).phase = s.phase := rfl
@[simp] theorem State.restart_level : (s.restart).level = s.level := rfl
@[simp] theorem State.restart_cap : (s.restart).cap = s.cap := rfl
@[simp] theorem State.restart_err : (s.restart).err = .noError := rfl
@[simp] theorem State.restart_scrc : (s.restart).scrc = 0 := rfl
@[simp] theorem State.restart_bwAcc : (s.restart).bwAcc = 0 := rfl
@[simp] theorem State.restart_bwCnt : (s.restart).bwCnt = 0 := rfl
@[simp] theorem State.restart_blkBuf : (s.restart).blkBuf = [] := rfl
@[simp] theorem State.restart_runByte : (s.restart).runByte = s.runByte := rfl
@[simp] theorem State.restart_runLen : (s.restart).runLen = 0 := rfl
@[simp] theorem State.restart_bcrc : (s.restart).bcrc = 0 := rfl
@[simp] theorem State.restart_blkFull : (s.restart).blkFull = false := rfl
@[simp] theorem State.restart_bwtOut : (s.restart).bwtOut = s.bwtOut := rfl
@[simp] theorem State.restart_ptr : (s.restart).ptr = s.ptr := rfl
@[simp] theorem State.restart_present : (s.restart).present = s.present := rfl
@[simp] theorem State.restart_alpha : (s.restart).alpha = s.alpha := rfl
@[simp] theorem State.restart_mtfList : (s.restart).mtfList = s.mtfList := rfl
@[simp] theorem State.restart_ranks : (s.restart).ranks = s.ranks := rfl
@[simp] theorem State.restart_sym : (s.restart).sym = s.sym := rfl
@[simp] theorem State.restart_freq : (s.restart).freq = s.freq := rfl
@[simp] theorem State.restart_ntrees : (s.restart).ntrees = s.ntrees := rfl
@[simp] theorem State.restart_nsel : (s.restart).nsel = s.nsel := rfl
@[simp] theorem State.restart_len : (s.restart).len = s.len := rfl
@[simp] theorem State.restart_code : (s.restart).code = s.code := rfl
@[simp] theorem State.restart_sel : (s.restart).sel = s.sel := rfl
@[simp] theorem State.restart_selRank : (s.restart).selRank = s.selRank := rfl
@[simp] theorem State.restart_cmd : (s.restart).cmd = s.cmd := rfl
@[simp] theorem State.restart_din : (s.restart).din = s.din := rfl
@[simp] theorem State.restart_result : (s.restart).result = s.result := rfl
@[simp] theorem State.restart_dout : (s.restart).dout = s.dout := rfl
@[simp] theorem State.restart_writeIn : (s.restart).writeIn = s.writeIn := rfl
@[simp] theorem State.restart_hostQueue : (s.restart).hostQueue = s.hostQueue := rfl
@[simp] theorem State.restart_dinIn : (s.restart).dinIn = s.dinIn := rfl
@[simp] theorem State.restart_sinkScript : (s.restart).sinkScript = s.sinkScript := rfl
@[simp] theorem State.restart_sinkRest : (s.restart).sinkRest = s.sinkRest := rfl
@[simp] theorem State.restart_sinkBytes : (s.restart).sinkBytes = s.sinkBytes := rfl
@[simp] theorem State.restart_uopRet : (s.restart).uopRet = s.uopRet := rfl
@[simp] theorem State.restart_draws : (s.restart).draws = s.draws := rfl
@[simp] theorem State.restart_tieOrder : (s.restart).tieOrder = s.tieOrder := rfl

/-! ### answer -/

@[simp] theorem State.answer_sstate (e : ErrCode) (c : BitVec 24) : (s.answer e c).sstate = s.sstate := rfl
@[simp] theorem State.answer_phase (e : ErrCode) (c : BitVec 24) : (s.answer e c).phase = .idle := rfl
@[simp] theorem State.answer_level (e : ErrCode) (c : BitVec 24) : (s.answer e c).level = s.level := rfl
@[simp] theorem State.answer_cap (e : ErrCode) (c : BitVec 24) : (s.answer e c).cap = s.cap := rfl
@[simp] theorem State.answer_err (e : ErrCode) (c : BitVec 24) : (s.answer e c).err = s.err := rfl
@[simp] theorem State.answer_scrc (e : ErrCode) (c : BitVec 24) : (s.answer e c).scrc = s.scrc := rfl
@[simp] theorem State.answer_bwAcc (e : ErrCode) (c : BitVec 24) : (s.answer e c).bwAcc = s.bwAcc := rfl
@[simp] theorem State.answer_bwCnt (e : ErrCode) (c : BitVec 24) : (s.answer e c).bwCnt = s.bwCnt := rfl
@[simp] theorem State.answer_blkBuf (e : ErrCode) (c : BitVec 24) : (s.answer e c).blkBuf = s.blkBuf := rfl
@[simp] theorem State.answer_runByte (e : ErrCode) (c : BitVec 24) : (s.answer e c).runByte = s.runByte := rfl
@[simp] theorem State.answer_runLen (e : ErrCode) (c : BitVec 24) : (s.answer e c).runLen = s.runLen := rfl
@[simp] theorem State.answer_bcrc (e : ErrCode) (c : BitVec 24) : (s.answer e c).bcrc = s.bcrc := rfl
@[simp] theorem State.answer_blkFull (e : ErrCode) (c : BitVec 24) : (s.answer e c).blkFull = s.blkFull := rfl
@[simp] theorem State.answer_bwtOut (e : ErrCode) (c : BitVec 24) : (s.answer e c).bwtOut = s.bwtOut := rfl
@[simp] theorem State.answer_ptr (e : ErrCode) (c : BitVec 24) : (s.answer e c).ptr = s.ptr := rfl
@[simp] theorem State.answer_present (e : ErrCode) (c : BitVec 24) : (s.answer e c).present = s.present := rfl
@[simp] theorem State.answer_alpha (e : ErrCode) (c : BitVec 24) : (s.answer e c).alpha = s.alpha := rfl
@[simp] theorem State.answer_mtfList (e : ErrCode) (c : BitVec 24) : (s.answer e c).mtfList = s.mtfList := rfl
@[simp] theorem State.answer_ranks (e : ErrCode) (c : BitVec 24) : (s.answer e c).ranks = s.ranks := rfl
@[simp] theorem State.answer_sym (e : ErrCode) (c : BitVec 24) : (s.answer e c).sym = s.sym := rfl
@[simp] theorem State.answer_freq (e : ErrCode) (c : BitVec 24) : (s.answer e c).freq = s.freq := rfl
@[simp] theorem State.answer_ntrees (e : ErrCode) (c : BitVec 24) : (s.answer e c).ntrees = s.ntrees := rfl
@[simp] theorem State.answer_nsel (e : ErrCode) (c : BitVec 24) : (s.answer e c).nsel = s.nsel := rfl
@[simp] theorem State.answer_len (e : ErrCode) (c : BitVec 24) : (s.answer e c).len = s.len := rfl
@[simp] theorem State.answer_code (e : ErrCode) (c : BitVec 24) : (s.answer e c).code = s.code := rfl
@[simp] theorem State.answer_sel (e : ErrCode) (c : BitVec 24) : (s.answer e c).sel = s.sel := rfl
@[simp] theorem State.answer_selRank (e : ErrCode) (c : BitVec 24) : (s.answer e c).selRank = s.selRank := rfl
@[simp] theorem State.answer_cmd (e : ErrCode) (c : BitVec 24) : (s.answer e c).cmd = s.cmd := rfl
@[simp] theorem State.answer_din (e : ErrCode) (c : BitVec 24) : (s.answer e c).din = s.din := rfl
@[simp] theorem State.answer_result (e : ErrCode) (c : BitVec 24) : (s.answer e c).result = resultWord e c := rfl
@[simp] theorem State.answer_dout (e : ErrCode) (c : BitVec 24) : (s.answer e c).dout = s.dout := rfl
@[simp] theorem State.answer_writeIn (e : ErrCode) (c : BitVec 24) : (s.answer e c).writeIn = s.writeIn := rfl
@[simp] theorem State.answer_hostQueue (e : ErrCode) (c : BitVec 24) : (s.answer e c).hostQueue = s.hostQueue := rfl
@[simp] theorem State.answer_dinIn (e : ErrCode) (c : BitVec 24) : (s.answer e c).dinIn = s.dinIn := rfl
@[simp] theorem State.answer_sinkScript (e : ErrCode) (c : BitVec 24) : (s.answer e c).sinkScript = s.sinkScript := rfl
@[simp] theorem State.answer_sinkRest (e : ErrCode) (c : BitVec 24) : (s.answer e c).sinkRest = s.sinkRest := rfl
@[simp] theorem State.answer_sinkBytes (e : ErrCode) (c : BitVec 24) : (s.answer e c).sinkBytes = s.sinkBytes := rfl
@[simp] theorem State.answer_uopRet (e : ErrCode) (c : BitVec 24) : (s.answer e c).uopRet = s.uopRet := rfl
@[simp] theorem State.answer_draws (e : ErrCode) (c : BitVec 24) : (s.answer e c).draws = s.draws := rfl
@[simp] theorem State.answer_tieOrder (e : ErrCode) (c : BitVec 24) : (s.answer e c).tieOrder = s.tieOrder := rfl

/-! ### setWriter -/

@[simp] theorem State.setWriter_sstate (w : Writer) : (s.setWriter w).sstate = s.sstate := rfl
@[simp] theorem State.setWriter_phase (w : Writer) : (s.setWriter w).phase = s.phase := rfl
@[simp] theorem State.setWriter_level (w : Writer) : (s.setWriter w).level = s.level := rfl
@[simp] theorem State.setWriter_cap (w : Writer) : (s.setWriter w).cap = s.cap := rfl
@[simp] theorem State.setWriter_err (w : Writer) : (s.setWriter w).err = w.err := rfl
@[simp] theorem State.setWriter_scrc (w : Writer) : (s.setWriter w).scrc = s.scrc := rfl
@[simp] theorem State.setWriter_bwAcc (w : Writer) : (s.setWriter w).bwAcc = w.acc := rfl
@[simp] theorem State.setWriter_bwCnt (w : Writer) : (s.setWriter w).bwCnt = w.cnt := rfl
@[simp] theorem State.setWriter_blkBuf (w : Writer) : (s.setWriter w).blkBuf = s.blkBuf := rfl
@[simp] theorem State.setWriter_runByte (w : Writer) : (s.setWriter w).runByte = s.runByte := rfl
@[simp] theorem State.setWriter_runLen (w : Writer) : (s.setWriter w).runLen = s.runLen := rfl
@[simp] theorem State.setWriter_bcrc (w : Writer) : (s.setWriter w).bcrc = s.bcrc := rfl
@[simp] theorem State.setWriter_blkFull (w : Writer) : (s.setWriter w).blkFull = s.blkFull := rfl
@[simp] theorem State.setWriter_bwtOut (w : Writer) : (s.setWriter w).bwtOut = s.bwtOut := rfl
@[simp] theorem State.setWriter_ptr (w : Writer) : (s.setWriter w).ptr = s.ptr := rfl
@[simp] theorem State.setWriter_present (w : Writer) : (s.setWriter w).present = s.present := rfl
@[simp] theorem State.setWriter_alpha (w : Writer) : (s.setWriter w).alpha = s.alpha := rfl
@[simp] theorem State.setWriter_mtfList (w : Writer) : (s.setWriter w).mtfList = s.mtfList := rfl
@[simp] theorem State.setWriter_ranks (w : Writer) : (s.setWriter w).ranks = s.ranks := rfl
@[simp] theorem State.setWriter_sym (w : Writer) : (s.setWriter w).sym = s.sym := rfl
@[simp] theorem State.setWriter_freq (w : Writer) : (s.setWriter w).freq = s.freq := rfl
@[simp] theorem State.setWriter_ntrees (w : Writer) : (s.setWriter w).ntrees = s.ntrees := rfl
@[simp] theorem State.setWriter_nsel (w : Writer) : (s.setWriter w).nsel = s.nsel := rfl
@[simp] theorem State.setWriter_len (w : Writer) : (s.setWriter w).len = s.len := rfl
@[simp] theorem State.setWriter_code (w : Writer) : (s.setWriter w).code = s.code := rfl
@[simp] theorem State.setWriter_sel (w : Writer) : (s.setWriter w).sel = s.sel := rfl
@[simp] theorem State.setWriter_selRank (w : Writer) : (s.setWriter w).selRank = s.selRank := rfl
@[simp] theorem State.setWriter_cmd (w : Writer) : (s.setWriter w).cmd = s.cmd := rfl
@[simp] theorem State.setWriter_din (w : Writer) : (s.setWriter w).din = s.din := rfl
@[simp] theorem State.setWriter_result (w : Writer) : (s.setWriter w).result = s.result := rfl
@[simp] theorem State.setWriter_dout (w : Writer) : (s.setWriter w).dout = w.dout := rfl
@[simp] theorem State.setWriter_writeIn (w : Writer) : (s.setWriter w).writeIn = s.writeIn := rfl
@[simp] theorem State.setWriter_hostQueue (w : Writer) : (s.setWriter w).hostQueue = s.hostQueue := rfl
@[simp] theorem State.setWriter_dinIn (w : Writer) : (s.setWriter w).dinIn = s.dinIn := rfl
@[simp] theorem State.setWriter_sinkScript (w : Writer) : (s.setWriter w).sinkScript = w.script := rfl
@[simp] theorem State.setWriter_sinkRest (w : Writer) : (s.setWriter w).sinkRest = w.rest := rfl
@[simp] theorem State.setWriter_sinkBytes (w : Writer) : (s.setWriter w).sinkBytes = w.bytes := rfl
@[simp] theorem State.setWriter_uopRet (w : Writer) : (s.setWriter w).uopRet = s.uopRet := rfl
@[simp] theorem State.setWriter_draws (w : Writer) : (s.setWriter w).draws = w.draws := rfl
@[simp] theorem State.setWriter_tieOrder (w : Writer) : (s.setWriter w).tieOrder = s.tieOrder := rfl

/-! ### setBlock -/

@[simp] theorem State.setBlock_sstate (b : Block) : (s.setBlock b).sstate = s.sstate := rfl
@[simp] theorem State.setBlock_phase (b : Block) : (s.setBlock b).phase = s.phase := rfl
@[simp] theorem State.setBlock_level (b : Block) : (s.setBlock b).level = s.level := rfl
@[simp] theorem State.setBlock_cap (b : Block) : (s.setBlock b).cap = s.cap := rfl
@[simp] theorem State.setBlock_err (b : Block) : (s.setBlock b).err = s.err := rfl
@[simp] theorem State.setBlock_scrc (b : Block) : (s.setBlock b).scrc = s.scrc := rfl
@[simp] theorem State.setBlock_bwAcc (b : Block) : (s.setBlock b).bwAcc = s.bwAcc := rfl
@[simp] theorem State.setBlock_bwCnt (b : Block) : (s.setBlock b).bwCnt = s.bwCnt := rfl
@[simp] theorem State.setBlock_blkBuf (b : Block) : (s.setBlock b).blkBuf = b.buf := rfl
@[simp] theorem State.setBlock_runByte (b : Block) : (s.setBlock b).runByte = b.runByte := rfl
@[simp] theorem State.setBlock_runLen (b : Block) : (s.setBlock b).runLen = b.runLen := rfl
@[simp] theorem State.setBlock_bcrc (b : Block) : (s.setBlock b).bcrc = b.bcrc := rfl
@[simp] theorem State.setBlock_blkFull (b : Block) : (s.setBlock b).blkFull = s.blkFull := rfl
@[simp] theorem State.setBlock_bwtOut (b : Block) : (s.setBlock b).bwtOut = s.bwtOut := rfl
@[simp] theorem State.setBlock_ptr (b : Block) : (s.setBlock b).ptr = s.ptr := rfl
@[simp] theorem State.setBlock_present (b : Block) : (s.setBlock b).present = s.present := rfl
@[simp] theorem State.setBlock_alpha (b : Block) : (s.setBlock b).alpha = s.alpha := rfl
@[simp] theorem State.setBlock_mtfList (b : Block) : (s.setBlock b).mtfList = s.mtfList := rfl
@[simp] theorem State.setBlock_ranks (b : Block) : (s.setBlock b).ranks = s.ranks := rfl
@[simp] theorem State.setBlock_sym (b : Block) : (s.setBlock b).sym = s.sym := rfl
@[simp] theorem State.setBlock_freq (b : Block) : (s.setBlock b).freq = s.freq := rfl
@[simp] theorem State.setBlock_ntrees (b : Block) : (s.setBlock b).ntrees = s.ntrees := rfl
@[simp] theorem State.setBlock_nsel (b : Block) : (s.setBlock b).nsel = s.nsel := rfl
@[simp] theorem State.setBlock_len (b : Block) : (s.setBlock b).len = s.len := rfl
@[simp] theorem State.setBlock_code (b : Block) : (s.setBlock b).code = s.code := rfl
@[simp] theorem State.setBlock_sel (b : Block) : (s.setBlock b).sel = s.sel := rfl
@[simp] theorem State.setBlock_selRank (b : Block) : (s.setBlock b).selRank = s.selRank := rfl
@[simp] theorem State.setBlock_cmd (b : Block) : (s.setBlock b).cmd = s.cmd := rfl
@[simp] theorem State.setBlock_din (b : Block) : (s.setBlock b).din = s.din := rfl
@[simp] theorem State.setBlock_result (b : Block) : (s.setBlock b).result = s.result := rfl
@[simp] theorem State.setBlock_dout (b : Block) : (s.setBlock b).dout = s.dout := rfl
@[simp] theorem State.setBlock_writeIn (b : Block) : (s.setBlock b).writeIn = s.writeIn := rfl
@[simp] theorem State.setBlock_hostQueue (b : Block) : (s.setBlock b).hostQueue = s.hostQueue := rfl
@[simp] theorem State.setBlock_dinIn (b : Block) : (s.setBlock b).dinIn = s.dinIn := rfl
@[simp] theorem State.setBlock_sinkScript (b : Block) : (s.setBlock b).sinkScript = s.sinkScript := rfl
@[simp] theorem State.setBlock_sinkRest (b : Block) : (s.setBlock b).sinkRest = s.sinkRest := rfl
@[simp] theorem State.setBlock_sinkBytes (b : Block) : (s.setBlock b).sinkBytes = s.sinkBytes := rfl
@[simp] theorem State.setBlock_uopRet (b : Block) : (s.setBlock b).uopRet = s.uopRet := rfl
@[simp] theorem State.setBlock_draws (b : Block) : (s.setBlock b).draws = s.draws := rfl
@[simp] theorem State.setBlock_tieOrder (b : Block) : (s.setBlock b).tieOrder = s.tieOrder := rfl

/-! ### takeDin -/

@[simp] theorem State.takeDin_sstate (n : BitVec 24) : (s.takeDin n).sstate = s.sstate := rfl
@[simp] theorem State.takeDin_phase (n : BitVec 24) : (s.takeDin n).phase = s.phase := rfl
@[simp] theorem State.takeDin_level (n : BitVec 24) : (s.takeDin n).level = s.level := rfl
@[simp] theorem State.takeDin_cap (n : BitVec 24) : (s.takeDin n).cap = s.cap := rfl
@[simp] theorem State.takeDin_err (n : BitVec 24) : (s.takeDin n).err = s.err := rfl
@[simp] theorem State.takeDin_scrc (n : BitVec 24) : (s.takeDin n).scrc = s.scrc := rfl
@[simp] theorem State.takeDin_bwAcc (n : BitVec 24) : (s.takeDin n).bwAcc = s.bwAcc := rfl
@[simp] theorem State.takeDin_bwCnt (n : BitVec 24) : (s.takeDin n).bwCnt = s.bwCnt := rfl
@[simp] theorem State.takeDin_blkBuf (n : BitVec 24) : (s.takeDin n).blkBuf = s.blkBuf := rfl
@[simp] theorem State.takeDin_runByte (n : BitVec 24) : (s.takeDin n).runByte = s.runByte := rfl
@[simp] theorem State.takeDin_runLen (n : BitVec 24) : (s.takeDin n).runLen = s.runLen := rfl
@[simp] theorem State.takeDin_bcrc (n : BitVec 24) : (s.takeDin n).bcrc = s.bcrc := rfl
@[simp] theorem State.takeDin_blkFull (n : BitVec 24) : (s.takeDin n).blkFull = s.blkFull := rfl
@[simp] theorem State.takeDin_bwtOut (n : BitVec 24) : (s.takeDin n).bwtOut = s.bwtOut := rfl
@[simp] theorem State.takeDin_ptr (n : BitVec 24) : (s.takeDin n).ptr = s.ptr := rfl
@[simp] theorem State.takeDin_present (n : BitVec 24) : (s.takeDin n).present = s.present := rfl
@[simp] theorem State.takeDin_alpha (n : BitVec 24) : (s.takeDin n).alpha = s.alpha := rfl
@[simp] theorem State.takeDin_mtfList (n : BitVec 24) : (s.takeDin n).mtfList = s.mtfList := rfl
@[simp] theorem State.takeDin_ranks (n : BitVec 24) : (s.takeDin n).ranks = s.ranks := rfl
@[simp] theorem State.takeDin_sym (n : BitVec 24) : (s.takeDin n).sym = s.sym := rfl
@[simp] theorem State.takeDin_freq (n : BitVec 24) : (s.takeDin n).freq = s.freq := rfl
@[simp] theorem State.takeDin_ntrees (n : BitVec 24) : (s.takeDin n).ntrees = s.ntrees := rfl
@[simp] theorem State.takeDin_nsel (n : BitVec 24) : (s.takeDin n).nsel = s.nsel := rfl
@[simp] theorem State.takeDin_len (n : BitVec 24) : (s.takeDin n).len = s.len := rfl
@[simp] theorem State.takeDin_code (n : BitVec 24) : (s.takeDin n).code = s.code := rfl
@[simp] theorem State.takeDin_sel (n : BitVec 24) : (s.takeDin n).sel = s.sel := rfl
@[simp] theorem State.takeDin_selRank (n : BitVec 24) : (s.takeDin n).selRank = s.selRank := rfl
@[simp] theorem State.takeDin_cmd (n : BitVec 24) : (s.takeDin n).cmd = s.cmd := rfl
@[simp] theorem State.takeDin_din (n : BitVec 24) : (s.takeDin n).din = lastByte s.din (s.dinIn.take n.toNat) := rfl
@[simp] theorem State.takeDin_result (n : BitVec 24) : (s.takeDin n).result = s.result := rfl
@[simp] theorem State.takeDin_dout (n : BitVec 24) : (s.takeDin n).dout = s.dout := rfl
@[simp] theorem State.takeDin_writeIn (n : BitVec 24) : (s.takeDin n).writeIn = s.dinIn.take n.toNat := rfl
@[simp] theorem State.takeDin_hostQueue (n : BitVec 24) : (s.takeDin n).hostQueue = s.hostQueue := rfl
@[simp] theorem State.takeDin_dinIn (n : BitVec 24) : (s.takeDin n).dinIn = s.dinIn.drop n.toNat := rfl
@[simp] theorem State.takeDin_sinkScript (n : BitVec 24) : (s.takeDin n).sinkScript = s.sinkScript := rfl
@[simp] theorem State.takeDin_sinkRest (n : BitVec 24) : (s.takeDin n).sinkRest = s.sinkRest := rfl
@[simp] theorem State.takeDin_sinkBytes (n : BitVec 24) : (s.takeDin n).sinkBytes = s.sinkBytes := rfl
@[simp] theorem State.takeDin_uopRet (n : BitVec 24) : (s.takeDin n).uopRet = s.uopRet := rfl
@[simp] theorem State.takeDin_draws (n : BitVec 24) : (s.takeDin n).draws = s.draws := rfl
@[simp] theorem State.takeDin_tieOrder (n : BitVec 24) : (s.takeDin n).tieOrder = s.tieOrder := rfl

/-! ### discardDin -/

@[simp] theorem State.discardDin_sstate (n : BitVec 24) : (s.discardDin n).sstate = s.sstate := rfl
@[simp] theorem State.discardDin_phase (n : BitVec 24) : (s.discardDin n).phase = s.phase := rfl
@[simp] theorem State.discardDin_level (n : BitVec 24) : (s.discardDin n).level = s.level := rfl
@[simp] theorem State.discardDin_cap (n : BitVec 24) : (s.discardDin n).cap = s.cap := rfl
@[simp] theorem State.discardDin_err (n : BitVec 24) : (s.discardDin n).err = s.err := rfl
@[simp] theorem State.discardDin_scrc (n : BitVec 24) : (s.discardDin n).scrc = s.scrc := rfl
@[simp] theorem State.discardDin_bwAcc (n : BitVec 24) : (s.discardDin n).bwAcc = s.bwAcc := rfl
@[simp] theorem State.discardDin_bwCnt (n : BitVec 24) : (s.discardDin n).bwCnt = s.bwCnt := rfl
@[simp] theorem State.discardDin_blkBuf (n : BitVec 24) : (s.discardDin n).blkBuf = s.blkBuf := rfl
@[simp] theorem State.discardDin_runByte (n : BitVec 24) : (s.discardDin n).runByte = s.runByte := rfl
@[simp] theorem State.discardDin_runLen (n : BitVec 24) : (s.discardDin n).runLen = s.runLen := rfl
@[simp] theorem State.discardDin_bcrc (n : BitVec 24) : (s.discardDin n).bcrc = s.bcrc := rfl
@[simp] theorem State.discardDin_blkFull (n : BitVec 24) : (s.discardDin n).blkFull = s.blkFull := rfl
@[simp] theorem State.discardDin_bwtOut (n : BitVec 24) : (s.discardDin n).bwtOut = s.bwtOut := rfl
@[simp] theorem State.discardDin_ptr (n : BitVec 24) : (s.discardDin n).ptr = s.ptr := rfl
@[simp] theorem State.discardDin_present (n : BitVec 24) : (s.discardDin n).present = s.present := rfl
@[simp] theorem State.discardDin_alpha (n : BitVec 24) : (s.discardDin n).alpha = s.alpha := rfl
@[simp] theorem State.discardDin_mtfList (n : BitVec 24) : (s.discardDin n).mtfList = s.mtfList := rfl
@[simp] theorem State.discardDin_ranks (n : BitVec 24) : (s.discardDin n).ranks = s.ranks := rfl
@[simp] theorem State.discardDin_sym (n : BitVec 24) : (s.discardDin n).sym = s.sym := rfl
@[simp] theorem State.discardDin_freq (n : BitVec 24) : (s.discardDin n).freq = s.freq := rfl
@[simp] theorem State.discardDin_ntrees (n : BitVec 24) : (s.discardDin n).ntrees = s.ntrees := rfl
@[simp] theorem State.discardDin_nsel (n : BitVec 24) : (s.discardDin n).nsel = s.nsel := rfl
@[simp] theorem State.discardDin_len (n : BitVec 24) : (s.discardDin n).len = s.len := rfl
@[simp] theorem State.discardDin_code (n : BitVec 24) : (s.discardDin n).code = s.code := rfl
@[simp] theorem State.discardDin_sel (n : BitVec 24) : (s.discardDin n).sel = s.sel := rfl
@[simp] theorem State.discardDin_selRank (n : BitVec 24) : (s.discardDin n).selRank = s.selRank := rfl
@[simp] theorem State.discardDin_cmd (n : BitVec 24) : (s.discardDin n).cmd = s.cmd := rfl
@[simp] theorem State.discardDin_din (n : BitVec 24) : (s.discardDin n).din = lastByte s.din (s.dinIn.take n.toNat) := rfl
@[simp] theorem State.discardDin_result (n : BitVec 24) : (s.discardDin n).result = s.result := rfl
@[simp] theorem State.discardDin_dout (n : BitVec 24) : (s.discardDin n).dout = s.dout := rfl
@[simp] theorem State.discardDin_writeIn (n : BitVec 24) : (s.discardDin n).writeIn = s.writeIn := rfl
@[simp] theorem State.discardDin_hostQueue (n : BitVec 24) : (s.discardDin n).hostQueue = s.hostQueue := rfl
@[simp] theorem State.discardDin_dinIn (n : BitVec 24) : (s.discardDin n).dinIn = s.dinIn.drop n.toNat := rfl
@[simp] theorem State.discardDin_sinkScript (n : BitVec 24) : (s.discardDin n).sinkScript = s.sinkScript := rfl
@[simp] theorem State.discardDin_sinkRest (n : BitVec 24) : (s.discardDin n).sinkRest = s.sinkRest := rfl
@[simp] theorem State.discardDin_sinkBytes (n : BitVec 24) : (s.discardDin n).sinkBytes = s.sinkBytes := rfl
@[simp] theorem State.discardDin_uopRet (n : BitVec 24) : (s.discardDin n).uopRet = s.uopRet := rfl
@[simp] theorem State.discardDin_draws (n : BitVec 24) : (s.discardDin n).draws = s.draws := rfl
@[simp] theorem State.discardDin_tieOrder (n : BitVec 24) : (s.discardDin n).tieOrder = s.tieOrder := rfl

end Sys2Proof.Machine
end

