-- ==== Sys2Proof/Laws/Ops.lean ====
section
/-! SUPPORT. What the shared operations of Machine/Ops.lean do: sequencing, the end of a command, the
views of the state, and the sink port. -/

set_option Elab.async false

namespace Sys2Proof.Machine

/-! ### Sequencing -/

@[simp] theorem andThen_next (s : State) (f : State → Result) : andThen (.next s) f = f s := rfl
@[simp] theorem andThen_fault (r : Fault) (f : State → Result) : andThen (.fault r) f = .fault r := rfl
@[simp] theorem andThen_refused (r : Refusal) (f : State → Result) :
    andThen (.refused r) f = .refused r := rfl

/-- A sequence answers a next state exactly when both parts do. -/
theorem andThen_eq_next {o : Result} {f : State → Result} {t : State} :
    andThen o f = .next t ↔ ∃ s, o = .next s ∧ f s = .next t := by
  cases o <;> simp [andThen]

/-- A sequence faults when one of its parts does. -/
theorem andThen_eq_fault {o : Result} {f : State → Result} {r : Fault} :
    andThen o f = .fault r ↔ o = .fault r ∨ ∃ s, o = .next s ∧ f s = .fault r := by
  cases o <;> simp [andThen]

/-- A sequence is refused when one of its parts is. -/
theorem andThen_eq_refused {o : Result} {f : State → Result} {r : Refusal} :
    andThen o f = .refused r ↔ o = .refused r ∨ ∃ s, o = .next s ∧ f s = .refused r := by
  cases o <;> simp [andThen]

theorem andThen_assoc (o : Result) (f g : State → Result) :
    andThen (andThen o f) g = andThen o fun s => andThen (f s) g := by
  cases o <;> rfl

@[simp] theorem endCommand_next (f : State → State) (c : State → BitVec 24) (s : State) :
    endCommand f c (.next s) = .next (f s) := rfl
@[simp] theorem endCommand_fault (f : State → State) (c : State → BitVec 24) (r : Fault) :
    endCommand f c (.fault r) = .fault (r.inCommand c) := rfl
@[simp] theorem endCommand_refused (f : State → State) (c : State → BitVec 24) (r : Refusal) :
    endCommand f c (.refused r) = .refused r := rfl

/-- A command answers a next state exactly when its rule does, and that state is completed. -/
theorem endCommand_eq_next {f : State → State} {c : State → BitVec 24} {o : Result} {t : State} :
    endCommand f c o = .next t ↔ ∃ s, o = .next s ∧ f s = t := by
  cases o <;> simp [endCommand]

/-- An invariant break is never a next state. -/
theorem faultInvariant_ne_next (w : Violation) (s t : State) : faultInvariant w s ≠ .next t := by
  simp [faultInvariant]

/-! ### Views -/

@[simp] theorem State.writer_setWriter (s : State) (w : Writer) : (s.setWriter w).writer = w := rfl
@[simp] theorem State.setWriter_writer (s : State) : s.setWriter s.writer = s := rfl
@[simp] theorem State.setWriter_setWriter (s : State) (v w : Writer) :
    (s.setWriter v).setWriter w = s.setWriter w := rfl
@[simp] theorem State.block_setBlock (s : State) (b : Block) : (s.setBlock b).block = b := rfl
@[simp] theorem State.setBlock_block (s : State) : s.setBlock s.block = s := rfl
@[simp] theorem State.setBlock_setBlock (s : State) (a b : Block) :
    (s.setBlock a).setBlock b = s.setBlock b := rfl
@[simp] theorem State.setPhase_setPhase (s : State) (p q : Phase) :
    (s.setPhase p).setPhase q = s.setPhase q := rfl
@[simp] theorem State.setPhase_phase_self (s : State) : s.setPhase s.phase = s := rfl
@[simp] theorem State.writer_setPhase (s : State) (p : Phase) : (s.setPhase p).writer = s.writer := rfl
@[simp] theorem State.block_setPhase (s : State) (p : Phase) : (s.setPhase p).block = s.block := rfl
@[simp] theorem State.block_eff (s : State) : s.block.eff = s.eff := rfl

/-- Nothing but the writer's part differs after a writer operation. -/
theorem sameButWriter_setWriter (s : State) (w : Writer) (h : w.rest = s.sinkRest) :
    SameButWriter s (s.setWriter w) := by
  simp [SameButWriter, State.setWriter, h]

/-! ### The sink port -/

/-- An offer the sink accepts. -/
theorem Writer.offer_ok {w : Writer} (b : Byte) (h : w.answerAt 0 = .ok) :
    w.offer b = { w with dout := b, script := w.script.tail, bytes := w.bytes ++ [b] } := by
  simp [Writer.offer, h]

/-- An offer the sink fails: the byte is not delivered and ERR is SinkIOError (R343). -/
theorem Writer.offer_fail {w : Writer} (b : Byte) (h : w.answerAt 0 = .fail) :
    w.offer b = { w with dout := b, script := w.script.tail, err := .sinkIOError } := by
  simp [Writer.offer, h]

/-- The sink either accepts or fails. -/
theorem Writer.answerAt_cases (w : Writer) (k : Nat) : w.answerAt k = .ok ∨ w.answerAt k = .fail := by
  cases w.answerAt k <;> simp

/-- An answer used is used up. -/
theorem Writer.answerAt_tail (w v : Writer) (k : Nat) (hs : v.script = w.script.tail)
    (hr : v.rest = w.rest) : v.answerAt k = w.answerAt (k + 1) := by
  cases hw : w.script <;> simp [Writer.answerAt, hs, hr, hw]

@[simp] theorem Writer.offer_answerAt (w : Writer) (b : Byte) (k : Nat) :
    (w.offer b).answerAt k = w.answerAt (k + 1) := by
  rcases w.answerAt_cases 0 with h | h
  · exact Writer.answerAt_tail w _ k (by simp [Writer.offer_ok b h]) (by simp [Writer.offer_ok b h])
  · exact Writer.answerAt_tail w _ k (by simp [Writer.offer_fail b h]) (by simp [Writer.offer_fail b h])

@[simp] theorem Writer.offer_rest (w : Writer) (b : Byte) : (w.offer b).rest = w.rest := by
  rcases w.answerAt_cases 0 with h | h <;> simp [Writer.offer, h]

/-- An offer only adds to the delivered bytes (R64). -/
theorem Writer.bytes_prefix_offer (w : Writer) (b : Byte) : w.bytes <+: (w.offer b).bytes := by
  rcases w.answerAt_cases 0 with h | h <;> simp [Writer.offer, h]

/-! ### The queue -/

/-- What a step does, by the host's next action. -/
theorem step_cases (s : State) :
    (s.hostQueue = [] ∧ step s = .next s) ∨
    (∃ w es, s.hostQueue = .command w :: es ∧ s.phase = .idle ∧
      ((∃ i, decode (.command w) = .ok i ∧ step s = exec i { s with hostQueue := es, cmd := w }) ∨
       (∃ e, decode (.command w) = .error e ∧
         step s = .next (illegalCommand { s with hostQueue := es, cmd := w })))) ∨
    (∃ l r es, s.hostQueue = .attachSink l r :: es ∧ s.phase = .idle ∧
      step s = .next (attachSink l r { s with hostQueue := es })) ∨
    (∃ bytes es, s.hostQueue = .uop bytes :: es ∧
      ((∃ i, decode (.uop bytes) = .ok i ∧ step s = exec i { s with hostQueue := es }) ∨
       (∃ e, decode (.uop bytes) = .error e ∧
         step s = faultInvariant .unknownUop { s with hostQueue := es }))) ∨
    (s.phase ≠ .idle ∧ step s = .refused .hostBusy) := by
  rcases hq : s.hostQueue with _ | ⟨e, es⟩
  · left; simp [step, fetch, hq]
  · cases e with
    | command w =>
      cases hp : s.phase <;> simp [step, fetch, hq, hp]
      cases hd : decode (.command w) <;> simp
    | attachSink l r =>
      cases hp : s.phase <;> simp [step, fetch, hq, hp]
    | uop bytes =>
      simp only [step, fetch, hq]
      cases hd : decode (.uop bytes) <;> simp [hd]

end Sys2Proof.Machine
end

