-- ==== Sys2Proof/Laws/BitWriter.lean ====
section
/-! SUPPORT. What the bit writer does (40_bit_writer.md): it does nothing while ERR is set, it only
adds to the delivered bytes, and while the sink accepts, the bits written join the stream in order. -/

set_option Elab.async false

namespace Sys2Proof.Machine

/-- The bits sent or pending, of a writer. -/
def Writer.stream (w : Writer) : List Bool := bitsOf w.bytes ++ pendingBits w.acc w.cnt

@[simp] theorem State.writer_stream (s : State) : s.writer.stream = s.stream := rfl

/-- The writer's sink accepts the next `k` offers. -/
def Writer.accepts (w : Writer) (k : Nat) : Prop := ∀ j < k, w.answerAt j = .ok

/-! ### While ERR is set (R126) -/

theorem Writer.shiftBit_of_err {w : Writer} (b : Bool) (h : w.err ≠ .noError) : w.shiftBit b = w := by
  simp [Writer.shiftBit, h]

theorem Writer.writeBitList_of_err {w : Writer} (l : List Bool) (h : w.err ≠ .noError) :
    w.writeBitList l = w := by
  induction l with
  | nil => rfl
  | cons b l ih => simpa [Writer.writeBitList, Writer.shiftBit_of_err b h] using ih

theorem Writer.writeFields_of_err {w : Writer} (fs : List Field) (h : w.err ≠ .noError) :
    w.writeFields fs = w := by
  induction fs with
  | nil => rfl
  | cons f fs ih =>
    simpa [Writer.writeFields, Writer.writeBits, Writer.writeBitList_of_err _ h] using ih

theorem Writer.pad_of_err {w : Writer} (h : w.err ≠ .noError) : w.pad = w := by
  simp [Writer.pad, h]

theorem Writer.rawBytes_of_err {w : Writer} (d : List Byte) (h : w.err ≠ .noError) :
    d.foldl Writer.rawByte w = w := by
  induction d with
  | nil => rfl
  | cons b d ih => simpa [Writer.rawByte, h] using ih

/-! ### Lists of bits and fields -/

@[simp] theorem Writer.writeBitList_nil (w : Writer) : w.writeBitList [] = w := rfl

theorem Writer.writeBitList_cons (w : Writer) (b : Bool) (l : List Bool) :
    w.writeBitList (b :: l) = (w.shiftBit b).writeBitList l := rfl

theorem Writer.writeBitList_append (w : Writer) (l m : List Bool) :
    w.writeBitList (l ++ m) = (w.writeBitList l).writeBitList m := by
  simp [Writer.writeBitList, List.foldl_append]

/-- A list of fields is one list of bits (R127). -/
theorem Writer.writeFields_eq (w : Writer) (fs : List Field) :
    w.writeFields fs = w.writeBitList (fs.flatMap Field.bits) := by
  induction fs generalizing w with
  | nil => rfl
  | cons f fs ih =>
    simp only [Writer.writeFields, List.foldl_cons, List.flatMap_cons, Writer.writeBitList_append]
    exact ih _

/-- The bits of a field, most significant first. -/
theorem msbFirst_eq (n : Nat) (v : BitVec 64) :
    msbFirst n v = (List.range n).map fun i => v.getLsbD (n - 1 - i) := by
  apply List.ext_getElem <;> simp [msbFirst]

theorem msbFirst_eq_lowBits (n : Nat) (v : BitVec 64) : msbFirst n v = lowBits n v.toNat := by
  simp [msbFirst_eq, lowBits, BitVec.getLsbD]

@[simp] theorem msbFirst_length (n : Nat) (v : BitVec 64) : (msbFirst n v).length = n := by
  simp [msbFirst]

@[simp] theorem lowBits_length (n v : Nat) : (lowBits n v).length = n := by simp [lowBits]

/-- A field made from numbers has the bits of its value. -/
theorem fieldOf_bits {n : Nat} (v : Nat) (h : n ≤ 64) : (fieldOf n v).bits = lowBits n v := by
  simp only [fieldOf, Field.bits, msbFirst_eq_lowBits, lowBits, BitVec.toNat_ofNat]
  apply List.map_congr_left
  intro i hi
  have : n - 1 - i < 64 := by have := List.mem_range.mp hi; omega
  show (v % 2 ^ 64).testBit _ = _
  rw [Nat.testBit_mod_two_pow, decide_eq_true this, Bool.true_and]

/-! ### Only more bytes (R64) -/

theorem Writer.bytes_prefix_shiftBit (w : Writer) (b : Bool) : w.bytes <+: (w.shiftBit b).bytes := by
  unfold Writer.shiftBit
  split
  · exact List.prefix_rfl
  · simp only
    split
    · have h := Writer.bytes_prefix_offer { w with acc := 0, cnt := 0 } (w.acc ++ BitVec.ofBool b)
      split <;> exact h
    · exact List.prefix_rfl

theorem Writer.bytes_prefix_writeBitList (w : Writer) (l : List Bool) :
    w.bytes <+: (w.writeBitList l).bytes := by
  induction l generalizing w with
  | nil => exact List.prefix_rfl
  | cons b l ih => exact (w.bytes_prefix_shiftBit b).trans (ih _)

theorem Writer.bytes_prefix_pad (w : Writer) : w.bytes <+: w.pad.bytes := by
  unfold Writer.pad
  split
  · exact List.prefix_rfl
  · split
    · exact List.prefix_rfl
    · exact w.bytes_prefix_writeBitList _

theorem Writer.bytes_prefix_rawBytes (w : Writer) (d : List Byte) :
    w.bytes <+: (d.foldl Writer.rawByte w).bytes := by
  induction d generalizing w with
  | nil => exact List.prefix_rfl
  | cons b d ih =>
    refine List.IsPrefix.trans ?_ (ih (w.rawByte b))
    unfold Writer.rawByte
    split
    · exact List.prefix_rfl
    · exact w.bytes_prefix_offer b

@[simp] theorem Writer.shiftBit_rest (w : Writer) (b : Bool) : (w.shiftBit b).rest = w.rest := by
  unfold Writer.shiftBit
  split
  · rfl
  · simp only
    split
    · have h := Writer.offer_rest { w with acc := 0, cnt := 0 } (w.acc ++ BitVec.ofBool b)
      split <;> exact h
    · rfl

@[simp] theorem Writer.writeBitList_rest (w : Writer) (l : List Bool) :
    (w.writeBitList l).rest = w.rest := by
  induction l generalizing w with
  | nil => rfl
  | cons b l ih => rw [Writer.writeBitList_cons, ih]; simp

@[simp] theorem Writer.writeFields_rest (w : Writer) (fs : List Field) :
    (w.writeFields fs).rest = w.rest := by simp [Writer.writeFields_eq]

@[simp] theorem Writer.pad_rest (w : Writer) : w.pad.rest = w.rest := by
  unfold Writer.pad
  split
  · rfl
  · split
    · rfl
    · simp [Writer.writeBits]

/-! ### One bit -/

/-- A bit that completes no byte. -/
theorem Writer.shiftBit_quiet {w : Writer} (b : Bool) (he : w.err = .noError) (hc : w.cnt ≠ 7) :
    w.shiftBit b =
      { w with acc := (w.acc ++ BitVec.ofBool b).extractLsb' 0 7, cnt := w.cnt + 1 } := by
  unfold Writer.shiftBit
  rw [if_neg (by simp [he])]
  simp only
  rw [if_neg hc]

/-- A bit that completes a byte the sink accepts. -/
theorem Writer.shiftBit_byte {w : Writer} (b : Bool) (he : w.err = .noError) (hc : w.cnt = 7)
    (ha : w.answerAt 0 = .ok) :
    w.shiftBit b =
      { w with acc := 0, cnt := 0, dout := w.acc ++ BitVec.ofBool b, script := w.script.tail,
               bytes := w.bytes ++ [w.acc ++ BitVec.ofBool b] } := by
  have h : ({ w with acc := 0, cnt := 0 } : Writer).answerAt 0 = .ok := ha
  unfold Writer.shiftBit
  rw [if_neg (by simp [he])]
  simp only
  rw [if_pos hc, Writer.offer_ok _ h]
  simp [he]

/-- A bit that completes a byte the sink fails: the byte is lost, ERR is SinkIOError, and BW_ACC and
BW_CNT are free values (R122). -/
theorem Writer.shiftBit_fail {w : Writer} (b : Bool) (he : w.err = .noError) (hc : w.cnt = 7)
    (ha : w.answerAt 0 = .fail) :
    w.shiftBit b =
      { w with acc := Config.freeBwAcc w.draws, cnt := Config.freeBwCnt w.draws,
               err := .sinkIOError, dout := w.acc ++ BitVec.ofBool b, script := w.script.tail,
               draws := w.draws + 1 } := by
  have h : ({ w with acc := 0, cnt := 0 } : Writer).answerAt 0 = .fail := ha
  unfold Writer.shiftBit
  rw [if_neg (by simp [he])]
  simp only
  rw [if_pos hc, Writer.offer_fail _ h]
  simp

/-- The pending bits grow by the bit that joins BW_ACC. -/
theorem pendingBits_shift (acc : BitVec 7) (cnt : BitVec 3) (b : Bool) (h : cnt ≠ 7) :
    pendingBits ((acc ++ BitVec.ofBool b).extractLsb' 0 7) (cnt + 1) = pendingBits acc cnt ++ [b] := by
  have hc : cnt.toNat < 7 := by
    have := cnt.isLt
    have : cnt.toNat ≠ 7 := fun e => h (BitVec.eq_of_toNat_eq e)
    omega
  have hs : (cnt + 1).toNat = cnt.toNat + 1 := by
    rw [BitVec.toNat_add]; simp; omega
  apply List.ext_getElem
  · simp only [pendingBits, hs, List.length_map, List.length_range, List.length_append,
      List.length_singleton]
  · intro i h1 h2
    simp only [pendingBits, List.length_map, List.length_range, hs] at h1
    simp only [pendingBits, List.getElem_map, List.getElem_range, hs, List.getElem_append,
      List.length_map, List.length_range]
    by_cases hi : i < cnt.toNat
    · have h3 : cnt.toNat + 1 - 1 - i = (cnt.toNat - 1 - i) + 1 := by omega
      simp only [hi, dite_true, h3]
      rw [BitVec.getLsbD_extractLsb', BitVec.getLsbD_append]
      have : cnt.toNat - 1 - i + 1 < 7 := by omega
      simp [this]
    · have h3 : cnt.toNat + 1 - 1 - i = 0 := by omega
      simp only [hi, dite_false, h3, List.getElem_singleton]
      rw [BitVec.getLsbD_extractLsb', BitVec.getLsbD_append]
      simp

/-- Seven pending bits and one more are the bits of the byte. -/
theorem byteBits_full (acc : BitVec 7) (b : Bool) :
    byteBits (acc ++ BitVec.ofBool b) = pendingBits acc 7 ++ [b] := by
  cases b <;> revert acc <;> decide

theorem bitsOf_append (l m : List Byte) : bitsOf (l ++ m) = bitsOf l ++ bitsOf m := by
  simp [bitsOf]

@[simp] theorem pendingBits_zero (acc : BitVec 7) : pendingBits acc 0 = [] := by simp [pendingBits]

@[simp] theorem pendingBits_length (acc : BitVec 7) (cnt : BitVec 3) :
    (pendingBits acc cnt).length = cnt.toNat := by simp [pendingBits]

@[simp] theorem byteBits_length (b : Byte) : (byteBits b).length = 8 := by simp [byteBits]

theorem bitsOf_length (l : List Byte) : (bitsOf l).length = 8 * l.length := by
  induction l with
  | nil => rfl
  | cons b l ih => simp only [bitsOf, List.flatMap_cons, List.length_append] at *; simp [ih]; omega

/-! ### Bits while the sink accepts (R120, R127) -/

/-- What is left after bits have been written to a sink that accepts. -/
structure Writer.Extends (w v : Writer) (l : List Bool) : Prop where
  err : v.err = .noError
  stream : v.stream = w.stream ++ l
  cnt : v.cnt.toNat = (w.cnt.toNat + l.length) % 8
  bytes : v.bytes.length = w.bytes.length + (w.cnt.toNat + l.length) / 8
  draws : v.draws = w.draws
  answers : ∀ k, v.answerAt k = w.answerAt (k + (w.cnt.toNat + l.length) / 8)

theorem Writer.shiftBit_extends {w : Writer} (b : Bool) (he : w.err = .noError)
    (ha : w.cnt = 7 → w.answerAt 0 = .ok) : w.Extends (w.shiftBit b) [b] := by
  by_cases hc : w.cnt = 7
  · have h7 : w.cnt.toNat = 7 := by rw [hc]; rfl
    rw [Writer.shiftBit_byte b he hc (ha hc)]
    constructor
    · exact he
    · rw [Writer.stream, Writer.stream, bitsOf_append, hc, pendingBits_zero, List.append_nil,
        List.append_assoc, ← byteBits_full]
      simp [bitsOf]
    · simp [h7]
    · simp [h7]
    · rfl
    · intro k; rw [h7, show (7 + [b].length) / 8 = 1 by simp]
      apply Writer.answerAt_tail w <;> rfl
  · have h7 : w.cnt.toNat < 7 := by
      have := w.cnt.isLt
      have : w.cnt.toNat ≠ 7 := fun e => hc (BitVec.eq_of_toNat_eq e)
      omega
    have hs : (w.cnt + 1).toNat = w.cnt.toNat + 1 := by
      rw [BitVec.toNat_add]; simp; omega
    have hd : (w.cnt.toNat + 1) / 8 = 0 := by omega
    rw [Writer.shiftBit_quiet b he hc]
    constructor
    · exact he
    · rw [Writer.stream, Writer.stream, pendingBits_shift _ _ _ hc, List.append_assoc]
    · rw [hs]; simp; omega
    · simp [hd]
    · rfl
    · intro k; simp [hd, Writer.answerAt]

theorem Writer.Extends.trans {w v u : Writer} {l m : List Bool} (h1 : w.Extends v l)
    (h2 : v.Extends u m) : w.Extends u (l ++ m) := by
  have hc := h1.cnt
  constructor
  · exact h2.err
  · rw [h2.stream, h1.stream, List.append_assoc]
  · rw [h2.cnt, hc, List.length_append]; omega
  · rw [h2.bytes, h1.bytes, hc, List.length_append]; omega
  · rw [h2.draws, h1.draws]
  · intro k
    rw [h2.answers, h1.answers, hc, List.length_append]
    congr 1; omega

/-- Bits written to a sink that accepts every byte they complete. -/
theorem Writer.writeBitList_extends {w : Writer} (l : List Bool) (he : w.err = .noError)
    (ha : w.accepts ((w.cnt.toNat + l.length) / 8)) : w.Extends (w.writeBitList l) l := by
  induction l generalizing w with
  | nil =>
    constructor
    · exact he
    · simp
    · have := w.cnt.isLt; simp; omega
    · have := w.cnt.isLt; have : w.cnt.toNat / 8 = 0 := by omega
      simp [this]
    · rfl
    · intro k; have := w.cnt.isLt; have : w.cnt.toNat / 8 = 0 := by omega
      simp [this]
  | cons b l ih =>
    have h1 : w.Extends (w.shiftBit b) [b] := by
      apply Writer.shiftBit_extends b he
      intro hc
      apply ha
      have : w.cnt.toNat = 7 := by rw [hc]; rfl
      simp [this]; omega
    have h2 : (w.shiftBit b).Extends ((w.shiftBit b).writeBitList l) l := by
      apply ih h1.err
      intro j hj
      rw [h1.answers]
      apply ha
      have := h1.cnt
      simp at this hj ⊢
      omega
    exact h1.trans h2

/-- Bits written to a sink that never fails. -/
theorem Writer.writeBitList_extends_healthy {w : Writer} (l : List Bool) (he : w.err = .noError)
    (ha : ∀ j, w.answerAt j = .ok) : w.Extends (w.writeBitList l) l :=
  Writer.writeBitList_extends l he fun j _ => ha j

/-- After bits are written with no error, every byte they completed was accepted. -/
theorem Writer.writeBitList_ok {w : Writer} (l : List Bool)
    (h : (w.writeBitList l).err = .noError) : w.Extends (w.writeBitList l) l := by
  have he : w.err = .noError := by
    by_contra hn; rw [Writer.writeBitList_of_err l hn] at h; exact hn h
  induction l generalizing w with
  | nil => exact Writer.writeBitList_extends [] he (by intro j hj; have := w.cnt.isLt; simp at hj; omega)
  | cons b l ih =>
    rw [Writer.writeBitList_cons] at h
    have h1 : (w.shiftBit b).err = .noError := by
      by_contra hn; rw [Writer.writeBitList_of_err l hn] at h; exact hn h
    have h2 : w.Extends (w.shiftBit b) [b] := by
      apply Writer.shiftBit_extends b he
      intro hc
      rcases w.answerAt_cases 0 with ha | ha
      · exact ha
      · rw [Writer.shiftBit_fail b he hc ha] at h1; cases h1
    exact h2.trans (ih h h1)

/-- The error a writer operation can leave is the one it found or SinkIOError (R341). -/
theorem Writer.writeBitList_err (w : Writer) (l : List Bool) :
    (w.writeBitList l).err = w.err ∨ (w.writeBitList l).err = .sinkIOError := by
  induction l generalizing w with
  | nil => exact .inl rfl
  | cons b l ih =>
    rw [Writer.writeBitList_cons]
    rcases ih (w.shiftBit b) with h | h
    · rw [h]
      by_cases he : w.err = .noError
      · by_cases hc : w.cnt = 7
        · rcases w.answerAt_cases 0 with ha | ha
          · rw [Writer.shiftBit_byte b he hc ha]; exact .inl rfl
          · rw [Writer.shiftBit_fail b he hc ha]; exact .inr rfl
        · rw [Writer.shiftBit_quiet b he hc]; exact .inl rfl
      · rw [Writer.shiftBit_of_err b he]; exact .inl rfl
    · exact .inr h

/-- Raw bytes offered to a sink that accepts them (R125). -/
theorem Writer.rawBytes_ok {w : Writer} (d : List Byte) (he : w.err = .noError)
    (ha : w.accepts d.length) :
    d.foldl Writer.rawByte w =
      { w with dout := lastByte w.dout d, script := w.script.drop d.length, bytes := w.bytes ++ d } := by
  induction d generalizing w with
  | nil => simp [lastByte]
  | cons b d ih =>
    have h0 : w.answerAt 0 = .ok := ha 0 (by simp)
    have hb : w.rawByte b = { w with dout := b, script := w.script.tail, bytes := w.bytes ++ [b] } := by
      simp [Writer.rawByte, he, Writer.offer_ok b h0]
    have hn : (w.rawByte b).accepts d.length := by
      intro j hj
      rw [Writer.answerAt_tail w (w.rawByte b) j (by rw [hb]) (by rw [hb])]
      exact ha (j + 1) (by simp; omega)
    rw [List.foldl_cons, ih (by rw [hb]; exact he) hn, hb]
    cases d <;> simp [lastByte, List.getLastD]

end Sys2Proof.Machine
end

