-- ==== Sys2Proof/Laws/Decode.lean ====
section
/-! SUPPORT. What the operand readers of the decoder do: a value written most significant byte first is
read back, and the fields of a command word are those it was made of. -/

set_option Elab.async false

namespace Sys2Proof

@[simp] theorem bytesBE_length (k v : Nat) : (bytesBE k v).length = k := by
  induction k with
  | zero => rfl
  | succ k ih => simp [bytesBE, ih]

/-- Reading on from a value `u`. -/
theorem foldl_bytesBE (k u v : Nat) :
    (bytesBE k v).foldl (fun a b => a * 256 + b.toNat) u = u * 256 ^ k + v % 256 ^ k := by
  induction k generalizing u with
  | zero => simp [bytesBE, Nat.mod_one]
  | succ k ih =>
    simp only [bytesBE, List.foldl_cons, ih, BitVec.toNat_ofNat, Nat.shiftRight_eq_div_pow]
    have h8 : (2 : Nat) ^ (8 * k) = 256 ^ k := by rw [pow_mul]; rfl
    have h := Nat.mod_mul (x := v) (a := 256 ^ k) (b := 256)
    rw [h8, show (256 : Nat) ^ (k + 1) = 256 ^ k * 256 from pow_succ _ _, h,
      show (2 : Nat) ^ 8 = 256 from rfl]
    ring

/-- A value of at most `k` bytes is read back. -/
theorem natOfBE_bytesBE {k v : Nat} (h : v < 256 ^ k) : natOfBE (bytesBE k v) = v := by
  rw [natOfBE, foldl_bytesBE, Nat.mod_eq_of_lt h]; simp

/-- `readNat` takes exactly the bytes `bytesBE` wrote. -/
theorem readNat_bytesBE {k v : Nat} (l : List Byte) (h : v < 256 ^ k) :
    readNat k (bytesBE k v ++ l) = some (v, l) := by
  simp [readNat, natOfBE_bytesBE h]

/-- `k` bytes hold a value below `256 ^ k`. -/
theorem natOfBE_lt (l : List Byte) : natOfBE l < 256 ^ l.length := by
  induction l using List.reverseRecOn with
  | nil => simp [natOfBE]
  | append_singleton l b ih =>
    have hb := b.isLt
    simp only [natOfBE, List.foldl_append, List.foldl_cons, List.foldl_nil, List.length_append,
      List.length_singleton, pow_succ] at ih ⊢
    omega

/-- The bytes read are the bytes of the value read. -/
theorem bytesBE_natOfBE (l : List Byte) : bytesBE l.length (natOfBE l) = l := by
  induction l with
  | nil => rfl
  | cons b l ih =>
    have hb := b.isLt
    have hl := natOfBE_lt l
    have hn : natOfBE (b :: l) = b.toNat * 256 ^ l.length + natOfBE l := by
      have := foldl_bytesBE l.length b.toNat (natOfBE l)
      rw [ih, Nat.mod_eq_of_lt hl] at this
      simpa [natOfBE] using this
    have htop : ∀ k v u : Nat, v < 256 ^ k → bytesBE k (u * 256 ^ k + v) = bytesBE k v := by
      intro k v u _
      have hgen : ∀ j ≤ k, bytesBE j (u * 256 ^ k + v) = bytesBE j v := by
        intro j
        induction j with
        | zero => intro _; rfl
        | succ j ihj =>
          intro hj
          have h8 : (2 : Nat) ^ (8 * j) = 256 ^ j := by rw [pow_mul]; rfl
          simp only [bytesBE, ihj (by omega), List.cons.injEq, and_true]
          apply BitVec.eq_of_toNat_eq
          simp only [BitVec.toNat_ofNat, Nat.shiftRight_eq_div_pow, h8]
          have hk : 256 ^ k = 256 ^ j * (256 * 256 ^ (k - j - 1)) := by
            rw [← pow_succ', ← pow_add]; congr 1; omega
          rw [hk, show u * (256 ^ j * (256 * 256 ^ (k - j - 1))) + v =
            v + 256 ^ j * (256 * (u * 256 ^ (k - j - 1))) by ring,
            Nat.add_mul_div_left _ _ (by positivity)]
          rw [show (2 : Nat) ^ 8 = 256 from rfl, Nat.add_mul_mod_self_left]
      exact hgen k le_rfl
    have h8 : (2 : Nat) ^ (8 * l.length) = 256 ^ l.length := by rw [pow_mul]; rfl
    simp only [List.length_cons, bytesBE, hn, htop _ _ _ hl, ih, List.cons.injEq, and_true]
    apply BitVec.eq_of_toNat_eq
    simp only [BitVec.toNat_ofNat, Nat.shiftRight_eq_div_pow, h8]
    rw [Nat.add_comm, Nat.add_mul_div_right _ _ (by positivity), Nat.div_eq_of_lt hl, Nat.zero_add]
    exact Nat.mod_eq_of_lt hb

/-- What a successful read says of the transfer. -/
theorem readNat_eq_some {k v : Nat} {l m : List Byte} :
    readNat k l = some (v, m) ↔ l = bytesBE k v ++ m ∧ v < 256 ^ k := by
  constructor
  · intro h
    unfold readNat at h
    split at h
    · rename_i hk
      simp only [Option.some.injEq, Prod.mk.injEq] at h
      obtain ⟨rfl, rfl⟩ := h
      have hlen : (l.take k).length = k := by simp [hk]
      have h1 := bytesBE_natOfBE (l.take k)
      have h2 := natOfBE_lt (l.take k)
      rw [hlen] at h1 h2
      rw [h1]
      exact ⟨(List.take_append_drop k l).symm, h2⟩
    · cases h
  · rintro ⟨rfl, h⟩
    exact readNat_bytesBE m h

/-! ### The command word (R80) -/

@[simp] theorem cmdOp_commandWord (op : BitVec 8) (imm : BitVec 24) :
    cmdOp (commandWord op imm) = op := by
  apply BitVec.eq_of_getLsbD_eq
  intro i hi
  simp only [cmdOp, commandWord, BitVec.getLsbD_extractLsb', BitVec.getLsbD_append, hi]
  simp

@[simp] theorem cmdImm_commandWord (op : BitVec 8) (imm : BitVec 24) :
    cmdImm (commandWord op imm) = imm := by
  apply BitVec.eq_of_getLsbD_eq
  intro i hi
  simp only [cmdImm, commandWord, BitVec.getLsbD_extractLsb', BitVec.getLsbD_append, hi]
  simp [hi]

/-- A command word is its two fields. -/
theorem commandWord_fields (w : Word) : commandWord (cmdOp w) (cmdImm w) = w := by
  apply BitVec.eq_of_getLsbD_eq
  intro i hi
  simp only [cmdImm, cmdOp, commandWord, BitVec.getLsbD_append, BitVec.getLsbD_extractLsb']
  by_cases h : i < 24
  · simp [h]
  · have : 24 + (i - 24) = i := by omega
    have h2 : i - 24 < 8 := by omega
    simp [h, h2, this]

end Sys2Proof
end

