-- ==== Sys2Proof/Laws/PerInstr.lean ====
section
/-! SUPPORT. Statements per instruction: the encoding of an instruction is the command word or the
transfer of its row of spec/opcode_table.json (30_encoding.md R81, R88). -/

set_option Elab.async false

namespace Sys2Proof.Laws

/-- The code of an instruction's row: `op` of R81 or the uop code of R88. -/
def rowCode : Instr → Nat
  | .config _ => 0x01
  | .write _ => 0x02
  | .flush => 0x03
  | .close => 0x04
  | .reset => 0x05
  | .bwWriteBits _ _ => 0x10
  | .bwPad => 0x11
  | .bwRawBytes _ => 0x12
  | .crcUpdate _ _ => 0x13
  | .crcCombine _ _ => 0x14
  | .symAnalyze => 0x15
  | .rle1Accept => 0x16
  | .rle1Finish => 0x17
  | .bwtSort => 0x18
  | .mtfRun => 0x19
  | .rle2Run => 0x1A
  | .huffBuild => 0x1B
  | .huffCodes => 0x1C
  | .selMtf => 0x1D
  | .blkSerialize => 0x1E
  | .streamHeader => 0x1F
  | .streamFooter => 0x20

/-- The encoding carries the row's code in its place, and a host command is a command word. -/
def OpcodeField.Statement (i : Instr) : Prop :=
  match encode i with
  | .command w => i.isCommand = true ∧ (cmdOp w).toNat = rowCode i
  | .uop bytes => i.isCommand = false ∧ bytes.head?.map BitVec.toNat = some (rowCode i)

theorem OpcodeField.config (lv : BitVec 4) : OpcodeField.Statement (.config lv) :=
  ⟨rfl, by rw [cmdOp_commandWord]; rfl⟩

theorem OpcodeField.write (n : BitVec 24) : OpcodeField.Statement (.write n) :=
  ⟨rfl, by rw [cmdOp_commandWord]; rfl⟩

theorem OpcodeField.flush : OpcodeField.Statement .flush :=
  ⟨rfl, by rw [cmdOp_commandWord]; rfl⟩

theorem OpcodeField.close : OpcodeField.Statement .close :=
  ⟨rfl, by rw [cmdOp_commandWord]; rfl⟩

theorem OpcodeField.reset : OpcodeField.Statement .reset :=
  ⟨rfl, by rw [cmdOp_commandWord]; rfl⟩

theorem OpcodeField.bwWriteBits (n : BitVec 7) (v : BitVec 64) : OpcodeField.Statement (.bwWriteBits n v) :=
  ⟨rfl, rfl⟩

theorem OpcodeField.bwPad : OpcodeField.Statement .bwPad :=
  ⟨rfl, rfl⟩

theorem OpcodeField.bwRawBytes (d : List Byte) : OpcodeField.Statement (.bwRawBytes d) :=
  ⟨rfl, rfl⟩

theorem OpcodeField.crcUpdate (crc : Word) (d : List Byte) : OpcodeField.Statement (.crcUpdate crc d) :=
  ⟨rfl, rfl⟩

theorem OpcodeField.crcCombine (a b : Word) : OpcodeField.Statement (.crcCombine a b) :=
  ⟨rfl, rfl⟩

theorem OpcodeField.symAnalyze : OpcodeField.Statement .symAnalyze :=
  ⟨rfl, rfl⟩

theorem OpcodeField.rle1Accept : OpcodeField.Statement .rle1Accept :=
  ⟨rfl, rfl⟩

theorem OpcodeField.rle1Finish : OpcodeField.Statement .rle1Finish :=
  ⟨rfl, rfl⟩

theorem OpcodeField.bwtSort : OpcodeField.Statement .bwtSort :=
  ⟨rfl, rfl⟩

theorem OpcodeField.mtfRun : OpcodeField.Statement .mtfRun :=
  ⟨rfl, rfl⟩

theorem OpcodeField.rle2Run : OpcodeField.Statement .rle2Run :=
  ⟨rfl, rfl⟩

theorem OpcodeField.huffBuild : OpcodeField.Statement .huffBuild :=
  ⟨rfl, rfl⟩

theorem OpcodeField.huffCodes : OpcodeField.Statement .huffCodes :=
  ⟨rfl, rfl⟩

theorem OpcodeField.selMtf : OpcodeField.Statement .selMtf :=
  ⟨rfl, rfl⟩

theorem OpcodeField.blkSerialize : OpcodeField.Statement .blkSerialize :=
  ⟨rfl, rfl⟩

theorem OpcodeField.streamHeader : OpcodeField.Statement .streamHeader :=
  ⟨rfl, rfl⟩

theorem OpcodeField.streamFooter : OpcodeField.Statement .streamFooter :=
  ⟨rfl, rfl⟩

end Sys2Proof.Laws
end

