-- ==== Sys2Proof/Laws/Rle1.lean ====
section
/-! SUPPORT. What RLE stage 1 does with an offered byte (43_rle1_block.md): everything a byte can do to
the open block, and what is left when the loop of R174 ends. -/

set_option Elab.async false

namespace Sys2Proof.Machine

/-! ### Entries of BLK_BUF -/

/-- A commit appends, exactly when BLK_BUF has the entries (20_memory.md R61). -/
theorem Block.commit_eq_some {b b' : Block} {l : List Byte} :
    b.commit l = some b' ↔ b.buf.length + l.length ≤ Config.capMax ∧ b' = { b with buf := b.buf ++ l } := by
  unfold Block.commit
  split
  · rename_i h; simp [h, eq_comm]
  · rename_i h; simp [h]

theorem Block.commit_eq_none {b : Block} {l : List Byte} :
    b.commit l = none ↔ Config.capMax < b.buf.length + l.length := by
  unfold Block.commit
  split
  · rename_i h; simp; omega
  · rename_i h; simp; omega

/-- A pending length byte is one byte of the effective length (R172). -/
theorem Block.eff_eq (b : Block) : b.eff = b.buf.length + b.pending.length := by
  unfold Block.eff Block.pending
  split <;> simp

@[simp] theorem Block.fold_buf (b : Block) (x : Byte) : (b.fold x).buf = b.buf := rfl
@[simp] theorem Block.fold_runByte (b : Block) (x : Byte) : (b.fold x).runByte = b.runByte := rfl
@[simp] theorem Block.fold_runLen (b : Block) (x : Byte) : (b.fold x).runLen = b.runLen := rfl
@[simp] theorem Block.fold_bcrc (b : Block) (x : Byte) : (b.fold x).bcrc = crcUpdate b.bcrc [x] := rfl

/-! ### One byte -/

/-- Everything an accepted byte can do: raise the pending length byte, add a copy to the open unit, or
start a new unit (R174). -/
theorem Block.accept_taken {cap : Nat} {x : Byte} {b b' : Block} :
    b.accept cap x = .taken b' ↔
      (b.continues x = true ∧ lengthPending b.runLen = true ∧
        b' = ({ b with runLen := b.runLen + 1 } : Block).fold x) ∨
      (b.continues x = true ∧ lengthPending b.runLen = false ∧
        b.eff + (if b.runLen = 3 then 2 else 1) ≤ cap ∧ b.buf.length + 1 ≤ Config.capMax ∧
        b' = ({ b with buf := b.buf ++ [x], runLen := b.runLen + 1 } : Block).fold x) ∨
      (b.continues x = false ∧ b.eff + 1 ≤ cap ∧ b.eff + 1 ≤ Config.capMax ∧
        b' = ({ b with buf := b.buf ++ (b.pending ++ [x]), runByte := x, runLen := 1 } : Block).fold x) := by
  have hl : b.buf.length + (b.pending ++ [x]).length = b.eff + 1 := by
    rw [Block.eff_eq, List.length_append, List.length_singleton]; omega
  unfold Block.accept
  generalize (if b.runLen = 3 then 2 else 1) = k
  cases hc : b.continues x
  · rcases hm : b.commit (b.pending ++ [x]) with _ | b1
    · rw [Block.commit_eq_none, hl] at hm
      by_cases hf : cap < b.eff + 1
      · simp [hf]; omega
      · simp [hf]; omega
    · rw [Block.commit_eq_some, hl] at hm
      obtain ⟨hm, rfl⟩ := hm
      by_cases hf : cap < b.eff + 1
      · simp [hf]; omega
      · have hf' : b.eff + 1 ≤ cap := by omega
        simp only [Bool.false_eq_true, if_false, if_neg hf, Offered.taken.injEq, hf', hm, true_and,
          false_and, false_or]
        exact eq_comm
  · cases hp : lengthPending b.runLen
    · rcases hm : b.commit [x] with _ | b1
      · rw [Block.commit_eq_none, List.length_singleton] at hm
        by_cases hf : cap < b.eff + k
        · simp [hf]
        · simp [hf]; omega
      · rw [Block.commit_eq_some, List.length_singleton] at hm
        obtain ⟨hm, rfl⟩ := hm
        by_cases hf : cap < b.eff + k
        · simp [hf]
        · have hf' : b.eff + k ≤ cap := by omega
          simp only [Bool.false_eq_true, if_true, if_false, if_neg hf, Offered.taken.injEq, hf', hm,
            true_and, false_and, false_or, or_false, reduceCtorEq]
          exact eq_comm
    · simp [eq_comm]

/-- The room a byte needs is one byte, or two for the fourth copy (R175, R176). -/
theorem need_bounds (n : BitVec 9) : 1 ≤ (if n = 3 then 2 else 1) ∧ (if n = 3 then 2 else 1) ≤ 2 := by
  split <;> omega

/-- A refused byte had no room (R178). -/
theorem Block.accept_full {cap : Nat} {x : Byte} {b : Block} (h : b.accept cap x = .full) :
    cap < b.eff + 2 := by
  have hk := need_bounds b.runLen
  unfold Block.accept at h
  generalize (if b.runLen = 3 then 2 else 1) = k at h hk
  cases hc : b.continues x
  · by_cases hf : cap < b.eff + 1
    · omega
    · cases hm : b.commit (b.pending ++ [x]) <;> simp [hc, hf, hm] at h
  · cases hp : lengthPending b.runLen
    · by_cases hf : cap < b.eff + k
      · omega
      · cases hm : b.commit [x] <;> simp [hc, hp, hf, hm] at h
    · simp [hc, hp] at h

/-- A block within a capacity that BLK_BUF has never runs out of entries. -/
theorem Block.accept_ne_outside {cap : Nat} {x : Byte} {b : Block} (hcap : cap ≤ Config.capMax) :
    b.accept cap x ≠ .outside := by
  intro h
  have hk := need_bounds b.runLen
  have he := b.eff_eq
  unfold Block.accept at h
  generalize (if b.runLen = 3 then 2 else 1) = k at h hk
  cases hc : b.continues x
  · by_cases hf : cap < b.eff + 1
    · simp [hc, hf] at h
    · cases hm : b.commit (b.pending ++ [x])
      · rw [Block.commit_eq_none, List.length_append, List.length_singleton] at hm
        omega
      · simp [hc, hf, hm] at h
  · cases hp : lengthPending b.runLen
    · by_cases hf : cap < b.eff + k
      · simp [hc, hp, hf] at h
      · cases hm : b.commit [x]
        · rw [Block.commit_eq_none, List.length_singleton] at hm
          omega
        · simp [hc, hp, hf, hm] at h
    · simp [hc, hp] at h

/-- The room a byte needs, as the block's loop asks it (R175, R176, R177). -/
theorem State.roomNeeded_eq (s : State) (x : Byte) :
    s.roomNeeded x =
      if s.block.continues x then
        if lengthPending s.runLen then 0 else if s.runLen = 3 then 2 else 1
      else 1 := by
  have h3 : s.runLen = 3 ↔ s.runLen.toNat = 3 := by rw [← BitVec.toNat_inj]; rfl
  have h0 : s.runLen = 0 ↔ s.runLen.toNat = 0 := by rw [← BitVec.toNat_inj]; rfl
  have hc : s.block.continues x = true ↔ s.runByte = x ∧ s.runLen ≠ 0 ∧ s.runLen.toNat ≤ 258 := by
    have hu : s.runLen.toNat < Config.rle1Unit ↔ s.runLen.toNat ≤ 258 := Nat.lt_succ_iff
    simp only [Block.continues, State.block, Bool.and_eq_true, bne_iff_ne, beq_iff_eq,
      decide_eq_true_iff, hu]
    tauto
  have hp : lengthPending s.runLen = true ↔ 4 ≤ s.runLen.toNat := decide_eq_true_iff
  simp only [State.roomNeeded, hc, hp, h3]
  split
  · rename_i h
    rw [ne_eq, h0] at h
    split
    · rw [if_neg (by omega), if_neg (by omega)]
    · split
      · rw [if_neg (by omega)]
      · rw [if_pos (by omega)]
  · rfl

/-- With no open unit every byte starts one (R177). -/
theorem State.roomNeeded_closed {s : State} (x : Byte) (h : s.runLen = 0) : s.roomNeeded x = 1 := by
  simp [State.roomNeeded, h]

/-- A byte is refused exactly when the block, within its capacity, has not the room it needs (R178). -/
theorem State.accept_full_iff {s : State} {x : Byte} (h : s.eff ≤ s.cap.toNat)
    (hcap : s.cap.toNat ≤ Config.capMax) :
    s.block.accept s.cap.toNat x = .full ↔ s.cap.toNat < s.eff + s.roomNeeded x := by
  have hne := Block.accept_ne_outside (x := x) (b := s.block) hcap
  have he : s.block.eff = s.eff := rfl
  have hr : s.block.runLen = s.runLen := rfl
  rw [State.roomNeeded_eq]
  unfold Block.accept at hne ⊢
  rw [he, hr] at hne ⊢
  generalize (if s.runLen = 3 then 2 else 1) = k at hne ⊢
  cases hc : s.block.continues x
  · by_cases hf : s.cap.toNat < s.eff + 1
    · simp [hf]
    · cases hm : s.block.commit (s.block.pending ++ [x]) <;> simp [hf]
  · cases hp : lengthPending s.runLen
    · by_cases hf : s.cap.toNat < s.eff + k
      · simp [hf]
      · cases hm : s.block.commit [x] <;> simp [hf]
    · simpa using h

/-- An accepted byte joins BCRC (R180). -/
theorem Block.accept_taken_bcrc {cap : Nat} {x : Byte} {b b' : Block}
    (h : b.accept cap x = .taken b') : b'.bcrc = crcUpdate b.bcrc [x] := by
  rcases Block.accept_taken.mp h with ⟨-, -, rfl⟩ | ⟨-, -, -, -, rfl⟩ | ⟨-, -, -, rfl⟩ <;> rfl

/-! ### The loop -/

/-- The loop, one byte at a time. -/
inductive Block.Accepts (cap : Nat) : Block → List Byte → Block → Prop where
  | nil (b : Block) : Block.Accepts cap b [] b
  | cons {b b' c : Block} {x : Byte} {xs : List Byte} (h : b.accept cap x = .taken b')
      (rest : Block.Accepts cap b' xs c) : Block.Accepts cap b (x :: xs) c

/-- What the loop leaves: it took a prefix of the offered bytes, and stopped because they were all
taken or because the next one was refused. -/
theorem Block.acceptAll_eq_some {cap : Nat} {l : List Byte} {b : Block} {a : Accepted}
    (h : b.acceptAll cap l = some a) :
    ∃ taken, l = taken ++ a.rest ∧ Block.Accepts cap b taken a.block ∧
      ((a.rest = [] ∧ a.full = (a.block.eff == cap)) ∨
       (a.full = true ∧ ∃ x xs, a.rest = x :: xs ∧ a.block.accept cap x = .full)) := by
  induction l generalizing b with
  | nil =>
    simp only [Block.acceptAll, Option.some.injEq] at h
    subst h
    exact ⟨[], rfl, .nil _, .inl ⟨rfl, rfl⟩⟩
  | cons x xs ih =>
    unfold Block.acceptAll at h
    split at h
    · rename_i b' hb
      obtain ⟨taken, h1, h2, h3⟩ := ih h
      exact ⟨x :: taken, by rw [h1]; rfl, .cons hb h2, h3⟩
    · rename_i hb
      simp only [Option.some.injEq] at h
      subst h
      exact ⟨[], rfl, .nil _, .inr ⟨rfl, x, xs, rfl, hb⟩⟩
    · cases h

/-- The loop ends when BLK_BUF has an entry for every byte of the capacity. -/
theorem Block.acceptAll_isSome {cap : Nat} (hcap : cap ≤ Config.capMax) (l : List Byte) (b : Block) :
    ∃ a, b.acceptAll cap l = some a := by
  induction l generalizing b with
  | nil => exact ⟨_, rfl⟩
  | cons x xs ih =>
    unfold Block.acceptAll
    split
    · exact ih _
    · exact ⟨_, rfl⟩
    · rename_i hb; exact absurd hb (Block.accept_ne_outside hcap)

/-- What an accepted byte keeps is kept by the loop. -/
theorem Block.Accepts.keeps {cap : Nat} {P : Block → Prop}
    (step : ∀ b b' x, P b → b.accept cap x = .taken b' → P b') {b c : Block} {l : List Byte}
    (h : Block.Accepts cap b l c) (hb : P b) : P c := by
  induction h with
  | nil => exact hb
  | cons h _ ih => exact ih (step _ _ _ hb h)

/-- RLE1_ACCEPT (R174) in a state whose capacity BLK_BUF has. -/
theorem execRle1Accept_next {s : State} (hcap : s.cap.toNat ≤ Config.capMax) :
    ∃ a, s.block.acceptAll s.cap.toNat s.writeIn = some a ∧
      execRle1Accept s = .next
        { s.setBlock a.block with
          blkFull := a.full
          writeIn := a.rest
          uopRet := BitVec.ofNat 32 (s.writeIn.length - a.rest.length) } := by
  obtain ⟨a, ha⟩ := Block.acceptAll_isSome hcap s.writeIn s.block
  exact ⟨a, ha, by simp [execRle1Accept, ha]⟩

/-- RLE1_FINISH (R179) in a block with an entry for its pending length byte. -/
theorem execRle1Finish_next {s : State} (h : s.eff ≤ Config.capMax) :
    execRle1Finish s =
      .next (s.setBlock { s.block with buf := s.blkBuf ++ s.block.pending, runLen := 0 }) := by
  have hm : s.block.commit s.block.pending =
      some { s.block with buf := s.blkBuf ++ s.block.pending } :=
    Block.commit_eq_some.mpr ⟨by rw [← Block.eff_eq]; exact h, rfl⟩
  simp [execRle1Finish, hm]

end Sys2Proof.Machine
end

