-- ==== Sys2Proof/Laws/Units.lean ====
section
/-! SUPPORT. What the transform units do (44_bwt.md to 47_huffman.md): when each completes, and the one
fact about its data that the units after it need. -/

set_option Elab.async false

namespace Sys2Proof.Machine

/-! ### BWT (R200) -/

theorem bwtOrder_perm (S : List Byte) : (bwtOrder S).Perm (List.range S.length) :=
  List.perm_insertionSort _ _

@[simp] theorem bwtBytes_length (S : List Byte) : (bwtBytes S).length = S.length := by
  simp [bwtBytes, (bwtOrder_perm S).length_eq]

/-- BWT_SORT completes on every non-empty block the buffers hold. -/
theorem execBwtSort_next {s : State} (hn : s.blkBuf ≠ []) (h : s.blkLen ≤ Config.capMax) :
    execBwtSort s =
      .next { s with bwtOut := bwtBytes s.blkBuf, ptr := BitVec.ofNat 24 (bwtPointer s.blkBuf) } := by
  simp [execBwtSort, hn, Nat.not_lt.mpr h]

/-! ### MTF (R220) -/

/-- Moving an entry to the front keeps the entries. -/
theorem toFront_perm {α : Type} (l : List α) (r : Nat) (x : α) (h : l[r]? = some x) :
    (toFront l r x).Perm l := by
  obtain ⟨hr, rfl⟩ := List.getElem?_eq_some_iff.mp h
  have h1 : l = l.take r ++ l[r] :: l.drop (r + 1) := by simp
  unfold toFront
  exact (List.perm_middle.symm).trans (List.Perm.of_eq h1.symm)

/-- Ranks exist exactly when every value is in the list; the list keeps its entries. -/
theorem mtfGo_isSome {α : Type} [DecidableEq α] (l xs : List α) (h : ∀ x ∈ xs, x ∈ l) :
    ∃ rs l', mtfGo l xs = some (rs, l') ∧ rs.length = xs.length ∧ l'.Perm l ∧
      ∀ r ∈ rs, r < l.length := by
  induction xs generalizing l with
  | nil => exact ⟨[], l, rfl, rfl, .refl _, by simp⟩
  | cons x xs ih =>
    have hr : l.idxOf x < l.length := List.idxOf_lt_length_of_mem (h x (by simp))
    have hx : l[l.idxOf x]? = some x := by simp [hr]
    have hp := toFront_perm l _ x hx
    obtain ⟨rs, l', h1, h2, h3, h4⟩ := ih (toFront l (l.idxOf x) x)
      fun y hy => hp.mem_iff.mpr (h y (by simp [hy]))
    refine ⟨l.idxOf x :: rs, l', by simp [mtfGo, hr, h1], by simp [h2], h3.trans hp, ?_⟩
    intro r hm
    rcases List.mem_cons.mp hm with rfl | hm
    · exact hr
    · rw [← hp.length_eq]; exact h4 r hm

/-- A value outside the list has no rank. -/
theorem mtfGo_eq_none {α : Type} [DecidableEq α] (l xs : List α) (h : ∃ x ∈ xs, x ∉ l) :
    mtfGo l xs = none := by
  induction xs generalizing l with
  | nil => obtain ⟨x, hx, -⟩ := h; cases hx
  | cons x xs ih =>
    unfold mtfGo
    by_cases hr : l.idxOf x < l.length
    · have hx : l[l.idxOf x]? = some x := by simp [hr]
      have hp := toFront_perm l _ x hx
      have hmem : x ∈ l := List.idxOf_lt_length_iff.mp hr
      obtain ⟨y, hy, hn⟩ := h
      rcases List.mem_cons.mp hy with rfl | hy
      · exact absurd hmem hn
      · simp [hr, ih _ ⟨y, hy, fun hh => hn (hp.mem_iff.mp hh)⟩]
    · simp [hr]

/-! ### RLE2 (R230) -/

/-- Digits are RUNA or RUNB. -/
theorem zeroRunGo_le_one (fuel z : Nat) : ∀ y ∈ zeroRunGo fuel z, y ≤ 1 := by
  induction fuel generalizing z with
  | zero => simp [zeroRunGo]
  | succ fuel ih =>
    intro y hy
    unfold zeroRunGo at hy
    split at hy
    · cases hy
    · split at hy <;>
      · rcases List.mem_cons.mp hy with rfl | hy
        · omega
        · exact ih _ y hy

/-- A run of `z` zeros takes at most `z` symbols. -/
theorem zeroRunGo_length (fuel z : Nat) : (zeroRunGo fuel z).length ≤ z := by
  induction fuel generalizing z with
  | zero => simp [zeroRunGo]
  | succ fuel ih =>
    unfold zeroRunGo
    split
    · simp
    · split
      · have := ih ((z - 1) / 2); simp; omega
      · have := ih ((z - 2) / 2); simp; omega

/-- At most one symbol per rank before EOB (R235). -/
theorem rle2Go_length (rs : List Byte) (z : Nat) : (rle2Go rs z).length ≤ rs.length + z := by
  induction rs generalizing z with
  | nil => simpa [rle2Go, zeroRun] using zeroRunGo_length z z
  | cons r rs ih =>
    unfold rle2Go
    split
    · have := ih (z + 1); simp; omega
    · have h1 := zeroRunGo_length z z
      have h2 := ih 0
      simp [zeroRun]; omega

/-- Symbols lie below EOB. -/
theorem rle2Go_le (m : Nat) (hm : 1 ≤ m) (rs : List Byte) (z : Nat) (h : ∀ r ∈ rs, r.toNat < m) :
    ∀ y ∈ rle2Go rs z, y ≤ m := by
  induction rs generalizing z with
  | nil => intro y hy; have := zeroRunGo_le_one z z y hy; omega
  | cons r rs ih =>
    intro y hy
    unfold rle2Go at hy
    split at hy
    · exact ih (z + 1) (fun r hr => h r (by simp [hr])) y hy
    · rcases List.mem_append.mp hy with hy | hy
      · have := zeroRunGo_le_one z z y hy; omega
      · rcases List.mem_cons.mp hy with rfl | hy
        · have := h r (by simp); omega
        · exact ih 0 (fun r hr => h r (by simp [hr])) y hy

/-! ### Huffman (R245) -/

/-- A pop splits the heap. -/
theorem popLeast_perm {tie : List Nat} {heap rest : List HeapNode} {n : HeapNode}
    (h : popLeast tie heap = some (n, rest)) :
    (n :: rest).Perm heap := by
  induction heap generalizing n rest with
  | nil => cases h
  | cons m ms ih =>
    unfold popLeast at h
    split at h
    · rename_i hn
      simp only [Option.some.injEq, Prod.mk.injEq] at h
      obtain ⟨rfl, rfl⟩ := h
      cases ms with
      | nil => exact .refl _
      | cons k ks =>
        unfold popLeast at hn
        split at hn
        · cases hn
        · split at hn <;> cases hn
    · rename_i k rest' hk
      split at h
      · simp only [Option.some.injEq, Prod.mk.injEq] at h
        obtain ⟨rfl, rfl⟩ := h
        exact (List.Perm.swap _ _ _).trans ((ih hk).cons _)
      · simp only [Option.some.injEq, Prod.mk.injEq] at h
        obtain ⟨rfl, rfl⟩ := h
        exact (ih hk).cons _

/-- A pop fails on the empty heap only. -/
theorem popLeast_eq_none {tie : List Nat} {heap : List HeapNode} : popLeast tie heap = none ↔ heap = [] := by
  cases heap with
  | nil => simp [popLeast]
  | cons m ms =>
    unfold popLeast
    split
    · simp
    · split <;> simp

/-- The tie order puts no two order numbers in one place. -/
theorem tieKey_injective (tie : List Nat) {j k : Nat} (h : tieKey tie j = tieKey tie k) : j = k := by
  have hlt (i : Nat) (hi : i ∈ tie) : tie.idxOf i < tie.length := List.idxOf_lt_length_of_mem hi
  unfold tieKey at h
  split at h <;> split at h
  · rename_i hj hk
    simpa [hlt j hj, hlt k hk] using congrArg (tie[·]?) h
  · rename_i hj _; have := hlt j hj; omega
  · rename_i _ hk; have := hlt k hk; omega
  · omega

/-- With nothing listed the tie order is the order numbers themselves (R246). -/
@[simp] theorem tieKey_nil (k : Nat) : tieKey [] k = k := by simp [tieKey]

/-- What it is not to be popped before a node. -/
theorem HeapNode.before_eq_false {tie : List Nat} {p q : HeapNode} :
    p.before tie q = false ↔
      q.weight < p.weight ∨ (q.weight = p.weight ∧ tieKey tie q.order ≤ tieKey tie p.order) := by
  simp only [HeapNode.before, Bool.or_eq_false_iff, Bool.and_eq_false_iff, decide_eq_false_iff_not,
    beq_eq_false_iff_ne]
  omega

/-- What it is to be popped before a node (R246). -/
theorem HeapNode.before_eq_true {tie : List Nat} {p q : HeapNode} :
    p.before tie q = true ↔
      p.weight < q.weight ∨ (p.weight = q.weight ∧ tieKey tie p.order < tieKey tie q.order) := by
  simp [HeapNode.before]

/-- No node that is left is popped before the node popped (R245, R246). -/
theorem popLeast_least {tie : List Nat} {heap rest : List HeapNode} {n : HeapNode}
    (h : popLeast tie heap = some (n, rest)) : ∀ m ∈ rest, m.before tie n = false := by
  induction heap generalizing n rest with
  | nil => cases h
  | cons a as ih =>
    unfold popLeast at h
    split at h
    · cases h; simp
    · rename_i k left hk
      have hk := ih hk
      split at h <;> rename_i hb <;> cases h <;> rw [List.forall_mem_cons]
      · refine ⟨?_, hk⟩
        rw [HeapNode.before_eq_true] at hb
        rw [HeapNode.before_eq_false]; omega
      · rw [Bool.not_eq_true] at hb
        refine ⟨hb, fun m hm => ?_⟩
        have hm := hk m hm
        rw [HeapNode.before_eq_false] at hb hm ⊢; omega

/-- A merge of two or more nodes leaves one fewer. -/
theorem mergeStep_length (tie : List Nat) (k : Nat) (heap : List HeapNode) (h : 2 ≤ heap.length) :
    (mergeStep tie k heap).length = heap.length - 1 := by
  unfold mergeStep
  split
  · rename_i hp; rw [popLeast_eq_none.mp hp] at h; simp at h
  · rename_i p rest hp
    have h1 := (popLeast_perm hp).length_eq
    split
    · rename_i hq; rw [popLeast_eq_none.mp hq] at h1; simp at h1; omega
    · rename_i q rest' hq
      have h2 := (popLeast_perm hq).length_eq
      simp at h1 h2 ⊢; omega

/-- `n` merges leave `n` fewer nodes. -/
theorem mergeLoop_length (tie : List Nat) (n k : Nat) (heap : List HeapNode) (h : n + 1 ≤ heap.length) :
    (mergeLoop tie n k heap).length = heap.length - n := by
  induction n generalizing k heap with
  | zero => simp [mergeLoop]
  | succ n ih =>
    have h1 := mergeStep_length tie k heap (by omega)
    unfold mergeLoop
    rw [ih (k + 1) (mergeStep tie k heap) (by omega), h1]; omega

/-- The merges end in one tree (R245). -/
theorem huffTree_isSome (tie freq : List Nat) (h : freq ≠ []) : ∃ t, huffTree tie freq = some t := by
  have hl : 1 ≤ freq.length := List.length_pos_iff.mpr h
  have hn : (leavesOf freq).length = freq.length := by simp [leavesOf]
  have h1 := mergeLoop_length tie (freq.length - 1) freq.length (leavesOf freq) (by omega)
  unfold huffTree
  cases hm : mergeLoop tie (freq.length - 1) freq.length (leavesOf freq) with
  | nil => rw [hm] at h1; simp at h1; omega
  | cons n ns => exact ⟨n.tree, by simp⟩

/-- The symbols of a tree's leaves. -/
def HuffTree.symbols : HuffTree → List Nat
  | .leaf x => [x]
  | .node p q => p.symbols ++ q.symbols

/-- A symbol has a depth exactly when it has a leaf. -/
theorem HuffTree.depth_isSome (t : HuffTree) (y : Nat) : (∃ d, t.depth y = some d) ↔ y ∈ t.symbols := by
  induction t with
  | leaf x =>
    by_cases h : x = y
    · simp [HuffTree.depth, HuffTree.symbols, h]
    · simp [HuffTree.depth, HuffTree.symbols, h, Ne.symm h]
  | node p q ihp ihq =>
    simp only [HuffTree.symbols, List.mem_append, ← ihp, ← ihq, HuffTree.depth]
    cases p.depth y <;> cases q.depth y <;> simp

/-! ### Canonical codes (R248) -/

/-- HUFF_CODES completes exactly when the entries LEN[0..NTREES)[0..A) are written. -/
theorem execHuffCodes_next {s : State} (hm : s.m ≤ Config.byteValues)
    (hn : s.ntrees.toNat ≤ s.len.length)
    (hl : ∀ lens ∈ s.len.take s.ntrees.toNat, s.alphabetSize ≤ lens.length) :
    execHuffCodes s = .next
      { s with code := (liveLengths s).map fun lens => (canonicalCodes lens).map (BitVec.ofNat 20) } := by
  have h : (liveLengths s).any (fun lens => lens.length < s.alphabetSize) = false := by
    rw [List.any_eq_false]
    intro l hm
    obtain ⟨lens, hmem, rfl⟩ := List.mem_map.mp hm
    have := hl lens hmem
    simp; omega
  simp [execHuffCodes, Nat.not_lt.mpr hm, Nat.not_lt.mpr hn, h]

end Sys2Proof.Machine
end

