-- ==== Sys2Proof/Laws/Stream.lean ====
section
/-! SUPPORT. What the serializer and the stream commands do (48_block_serializer.md,
49_stream_commands.md, 60_exceptions.md R350-R352): the ways each can end. -/

set_option Elab.async false

namespace Sys2Proof.Machine

/-! ### Error entry -/

/-- The entry of an error writes ERR when it is sticky (R351). -/
theorem State.raise_sticky (s : State) {e : ErrCode} (h : e.sticky = true) :
    s.raise e = { s with err := e } := by simp [State.raise, h]

theorem State.raise_not_sticky (s : State) {e : ErrCode} (h : e.sticky = false) : s.raise e = s := by
  simp [State.raise, h]

/-- The error of a check or of ERR, raised again, leaves ERR as it is (R351, R352). -/
theorem State.raise_own_err (s : State) : s.raise s.err = s := by
  cases h : s.err <;> simp [State.raise, ErrCode.sticky, h] <;> rw [← h]

/-- The checks of R350 pass exactly when the stream is open. -/
theorem State.check_eq_none {s : State} : s.check = none ↔ s.streamOpen := by
  unfold State.check State.streamOpen
  cases hs : s.sstate <;> by_cases he : s.err = .noError <;> simp [he]

/-- The error a check finds (R350, steps 3, 5, 6). -/
theorem State.check_eq_some {s : State} {e : ErrCode} :
    s.check = some e ↔
      (s.sstate = .unconfigured ∧ e = .notConfigured) ∨
      (s.sstate ≠ .unconfigured ∧ s.err ≠ .noError ∧ e = s.err) ∨
      (s.sstate = .closed ∧ s.err = .noError ∧ e = .writeAfterClose) := by
  unfold State.check
  cases hs : s.sstate <;> by_cases he : s.err = .noError <;> simp [he, eq_comm]

/-! ### The writer on the state -/

/-- Fields written with no error: their bits join the stream, and only the writer's part differs. -/
theorem State.writeFields_ok {s : State} (fs : List Field) (h : (s.writeFields fs).err = .noError) :
    SameButWriter s (s.writeFields fs) ∧
      (s.writeFields fs).stream = s.stream ++ fs.flatMap Field.bits ∧
      (s.writeFields fs).draws = s.draws := by
  have h' : (s.writer.writeBitList (fs.flatMap Field.bits)).err = .noError := by
    rw [← Writer.writeFields_eq]; exact h
  have hx := Writer.writeBitList_ok _ h'
  rw [← Writer.writeFields_eq] at hx
  exact ⟨sameButWriter_setWriter s _ (by simp; rfl), hx.stream, hx.draws⟩

/-- The error after fields are written is the one before or SinkIOError. -/
theorem State.writeFields_err (s : State) (fs : List Field) :
    (s.writeFields fs).err = s.err ∨ (s.writeFields fs).err = .sinkIOError := by
  have h := Writer.writeBitList_err s.writer (fs.flatMap Field.bits)
  rw [← Writer.writeFields_eq] at h
  exact h

theorem State.sinkBytes_prefix_writeFields (s : State) (fs : List Field) :
    s.sinkBytes <+: (s.writeFields fs).sinkBytes := by
  have h := s.writer.bytes_prefix_writeBitList (fs.flatMap Field.bits)
  rw [← Writer.writeFields_eq] at h
  exact h

/-! ### Block serialisation -/

/-- The ways BLK_SERIALIZE ends in a next state: the transform ran, the fields were sent, and completion
was performed unless the sink failed (R270, R282, R283). -/
theorem execBlkSerialize_next {s t : State} (h : execBlkSerialize s = .next t) :
    s.blockEmpty = false ∧ ∃ u fs, blkTransform s = .next u ∧
      blockFields (u.setPhase (.serialize .emit)) = some fs ∧
      ∃ v, v = (u.setPhase (.serialize .emit)).writeFields fs ∧
        ((v.err = .noError ∧ t = (blkComplete (v.setPhase (.serialize .complete))).setPhase s.phase) ∨
         (v.err ≠ .noError ∧ t = v.setPhase s.phase)) := by
  unfold execBlkSerialize at h
  split at h
  · exact absurd h (faultInvariant_ne_next _ _ _)
  · rename_i hb
    obtain ⟨u, hu, h⟩ := andThen_eq_next.mp h
    obtain ⟨v, hv, h⟩ := andThen_eq_next.mp h
    refine ⟨by simpa using hb, u, ?_⟩
    unfold atStep blkEmit at hv
    split at hv
    · rename_i fs hfs
      have hv' : v = (u.setPhase (.serialize .emit)).writeFields fs := by simpa using hv.symm
      refine ⟨fs, hu, hfs, v, hv', ?_⟩
      by_cases he : v.err = .noError
      · exact .inl ⟨he, by simpa [he] using h.symm⟩
      · exact .inr ⟨he, by simpa [he] using h.symm⟩
    · exact absurd hv (faultInvariant_ne_next _ _ _)

/-- The transform is its eight units in order (R270). -/
theorem blkTransform_next {s t : State} (h : blkTransform s = .next t) :
    ∃ s1 s2 s3 s4 s5 s6 s7,
      atStep .rle1Finish execRle1Finish s = .next s1 ∧ atStep .bwtSort execBwtSort s1 = .next s2 ∧
      atStep .symAnalyze execSymAnalyze s2 = .next s3 ∧ atStep .mtfRun execMtfRun s3 = .next s4 ∧
      atStep .rle2Run execRle2Run s4 = .next s5 ∧ atStep .huffBuild execHuffBuild s5 = .next s6 ∧
      atStep .huffCodes execHuffCodes s6 = .next s7 ∧ atStep .selMtf execSelMtf s7 = .next t := by
  unfold blkTransform at h
  obtain ⟨s1, h1, h⟩ := andThen_eq_next.mp h
  obtain ⟨s2, h2, h⟩ := andThen_eq_next.mp h
  obtain ⟨s3, h3, h⟩ := andThen_eq_next.mp h
  obtain ⟨s4, h4, h⟩ := andThen_eq_next.mp h
  obtain ⟨s5, h5, h⟩ := andThen_eq_next.mp h
  obtain ⟨s6, h6, h⟩ := andThen_eq_next.mp h
  obtain ⟨s7, h7, h⟩ := andThen_eq_next.mp h
  exact ⟨s1, s2, s3, s4, s5, s6, s7, h1, h2, h3, h4, h5, h6, h7, h⟩

/-! ### Commands -/

/-- One pass of the block cycle of WRITE (R303): the ways it ends in a next state. -/
theorem blockCycle_next {fuel : Nat} {s t : State} (h : blockCycle (fuel + 1) s = .next t) :
    ∃ u, execRle1Accept (s.setPhase .accept) = .next u ∧
      ∃ v, ((u.blkFull = true ∧ execBlkSerialize { u with blkFull := false } = .next v) ∨
            (u.blkFull = false ∧ v = u)) ∧
        ((v.err ≠ .noError ∧ t = v) ∨ (v.err = .noError ∧ v.writeIn = [] ∧ t = v) ∨
         (v.err = .noError ∧ v.writeIn ≠ [] ∧ blockCycle fuel v = .next t)) := by
  unfold blockCycle at h
  obtain ⟨u, hu, h⟩ := andThen_eq_next.mp h
  obtain ⟨v, hv, h⟩ := andThen_eq_next.mp h
  refine ⟨u, hu, v, ?_, ?_⟩
  · cases hf : u.blkFull
    · right; rw [hf] at hv; exact ⟨rfl, by simpa using hv.symm⟩
    · left; rw [hf] at hv; exact ⟨rfl, by simpa using hv⟩
  · by_cases he : v.err = .noError
    · by_cases hw : v.writeIn = []
      · exact .inr (.inl ⟨he, hw, by simpa [he, hw] using h.symm⟩)
      · exact .inr (.inr ⟨he, hw, by simpa [he, hw] using h⟩)
    · exact .inl ⟨he, by simpa [he] using h.symm⟩

/-- The ways WRITE ends in a next state. -/
theorem execWrite_next {s t : State} {n : BitVec 24} (h : execWrite n s = .next t) :
    s.dinReady n = true ∧
      ((∃ e, s.check = some e ∧ t = (s.discardDin n).failWrite n e) ∨
       (s.check = none ∧ ∃ u, writeBody (s.takeDin n) = .next u ∧ t = finishWrite n u)) := by
  unfold execWrite at h
  split at h
  · rename_i hd
    refine ⟨hd, ?_⟩
    split at h
    · rename_i e he
      exact .inl ⟨e, he, by simpa using h.symm⟩
    · rename_i he
      obtain ⟨u, hu, rfl⟩ := endCommand_eq_next.mp h
      exact .inr ⟨he, u, hu, rfl⟩
  · cases h

/-- The ways FLUSH ends in a next state. -/
theorem execFlush_next {s t : State} (h : execFlush s = .next t) :
    (∃ e, s.check = some e ∧ t = s.failWith e 0) ∨
    (s.check = none ∧ ∃ u, serializeOpen s = .next u ∧ t = u.finish 0) := by
  unfold execFlush at h
  split at h
  · rename_i e he; exact .inl ⟨e, he, by simpa using h.symm⟩
  · rename_i he
    obtain ⟨u, hu, rfl⟩ := endCommand_eq_next.mp h
    exact .inr ⟨he, u, hu, rfl⟩

/-- The ways CLOSE ends in a next state. -/
theorem execClose_next {s t : State} (h : execClose s = .next t) :
    (∃ e, s.check = some e ∧ t = s.failWith e 0) ∨
    (s.check = none ∧ ∃ u, closeBody s = .next u ∧ t = u.finish 0) := by
  unfold execClose at h
  split at h
  · rename_i e he; exact .inl ⟨e, he, by simpa using h.symm⟩
  · rename_i he
    obtain ⟨u, hu, rfl⟩ := endCommand_eq_next.mp h
    exact .inr ⟨he, u, hu, rfl⟩

end Sys2Proof.Machine
end

