-- ==== Sys2Proof/Tests/Slice0.lean ====
section
/-! SUPPORT. The model's own tests, their expected values taken from 95_test_vectors.md and
30_encoding.md, and for every obligation with hypotheses a state and operands that meet them. -/

set_option Elab.async false

namespace Sys2Proof.Machine.Tests

/-! ### Helpers -/

/-- The bytes of an ASCII string. -/
def ascii (s : String) : List Byte := s.toList.map fun c => BitVec.ofNat 8 c.toNat

/-- A view of the next state of an outcome. -/
def view {α : Type} (f : State → α) (o : Result) : Option α := (nextState o).map f

/-- A view that is there is the view of a next state. -/
theorem view_some {α : Type} {f : State → α} {o : Result} {a : α} (h : view f o = some a) :
    ∃ t, o = .next t ∧ f t = a := by
  cases o with
  | next s => exact ⟨s, rfl, by simpa [view, nextState] using h⟩
  | fault r => simp [view, nextState] at h
  | refused r => simp [view, nextState] at h

/-- What a fault says. -/
def faultErr : Result → Option ErrCode
  | .next _ => none
  | .refused _ => none
  | .fault (.unalignedWrite t) => some t.err
  | .fault (.invariantViolation _ t) => some t.err
  | .fault (.codeLengthOverflow _ t) => some t.err

/-- A stream at level 1 whose header has been sent. -/
def opened : State := { State.reset with sstate := .headerWritten, level := 1, cap := 100000 }

/-- A stream at level 1 before its header. -/
def unopened : State := { opened with sstate := .unopened }

/-- A closed stream at level 1. -/
def closed : State := { opened with sstate := .closed }

/-- `s` with the bytes `d` supplied on DIN. -/
def withDin (d : List Byte) (s : State) : State := { s with dinIn := d }

/-- The open block of program P2: "banana". -/
def banana : State :=
  { opened with blkBuf := ascii "banana", runByte := 0x61, runLen := 1, bcrc := 0xEFB6EC01 }

/-- `s` with a sink that fails its offer number `k`. -/
def failing (k : Nat) (s : State) : State :=
  { s with sinkScript := List.replicate k .ok ++ [.fail] }

/-- `s` with the action `e` pending. -/
def pend (e : HostEvent) (s : State) : State := { s with hostQueue := [e] }

/-- An open block of `f` bytes at level 1 with an open unit of `n` copies of `x`. -/
def filled (f : Nat) (x : Byte) (n : BitVec 9) : State :=
  { opened with blkBuf := List.replicate f 0x63, runByte := x, runLen := n }

/-! ### Decoding: the words of 30_encoding.md R81-R84 and R88 -/

theorem test_decode_config : decodeTableWord 32 0x01000009 = some (.config 9) := by decide
theorem test_decode_write : decodeTableWord 32 0x0201869F = some (.write 99999) := by decide
theorem test_decode_flush : decodeTableWord 32 0x03000000 = some .flush := by decide
theorem test_decode_close : decodeTableWord 32 0x04000000 = some .close := by decide
theorem test_decode_reset : decodeTableWord 32 0x05000000 = some .reset := by decide
theorem test_decode_bw_writebits :
    decode (.uop [0x10, 64, 0x01, 0x23, 0x45, 0x67, 0x89, 0xAB, 0xCD, 0xEF]) =
      .ok (.bwWriteBits 64 0x0123456789ABCDEF) := by decide
theorem test_decode_bw_pad : decodeTableWord 8 0x11 = some .bwPad := by decide
theorem test_decode_bw_rawbytes :
    decode (.uop [0x12, 0x42, 0x5A]) = .ok (.bwRawBytes [0x42, 0x5A]) := by decide
theorem test_decode_crc_update :
    decode (.uop [0x13, 0x59, 0x6A, 0x3B, 0x55, 0x35]) =
      .ok (.crcUpdate 0x596A3B55 [0x35]) := by decide
theorem test_decode_crc_combine :
    decode (.uop [0x14, 0x80, 0, 0, 1, 0, 0, 0, 1]) = .ok (.crcCombine 0x80000001 1) := by decide
theorem test_decode_sym_analyze : decodeTableWord 8 0x15 = some .symAnalyze := by decide
theorem test_decode_rle1_accept : decodeTableWord 8 0x16 = some .rle1Accept := by decide
theorem test_decode_rle1_finish : decodeTableWord 8 0x17 = some .rle1Finish := by decide
theorem test_decode_bwt_sort : decodeTableWord 8 0x18 = some .bwtSort := by decide
theorem test_decode_mtf_run : decodeTableWord 8 0x19 = some .mtfRun := by decide
theorem test_decode_rle2_run : decodeTableWord 8 0x1A = some .rle2Run := by decide
theorem test_decode_huff_build : decodeTableWord 8 0x1B = some .huffBuild := by decide
theorem test_decode_huff_codes : decodeTableWord 8 0x1C = some .huffCodes := by decide
theorem test_decode_sel_mtf : decodeTableWord 8 0x1D = some .selMtf := by decide
theorem test_decode_blk_serialize : decodeTableWord 8 0x1E = some .blkSerialize := by decide
theorem test_decode_stream_header : decodeTableWord 8 0x1F = some .streamHeader := by decide
theorem test_decode_stream_footer : decodeTableWord 8 0x20 = some .streamFooter := by decide

/-- R85 and 95_test_vectors.md B-CMD-6 to B-CMD-9. -/
theorem test_decode_illegal :
    decodeCommand 0x00000000 = .error .illegalOp ∧ decodeCommand 0x06000000 = .error .illegalOp ∧
    decodeCommand 0x01000010 = .error .mustBeZero ∧ decodeCommand 0x03000001 = .error .mustBeZero := by
  decide

/-- R88: no code below 0x10 or above 0x20 is a uop. -/
theorem test_decode_no_uop : decodeTableWord 8 0x0F = none ∧ decodeTableWord 8 0x21 = none := by decide

/-- The operand bits the opcode table does not give are 0. -/
theorem test_table_operands_zero :
    decodeTableWord 8 0x10 = some (.bwWriteBits 0 0) ∧ decodeTableWord 8 0x12 = some (.bwRawBytes []) ∧
    decodeTableWord 8 0x13 = some (.crcUpdate 0 []) ∧ decodeTableWord 8 0x14 = some (.crcCombine 0 0) := by
  decide

/-! ### WellFormed: no check is left, since every field width is a type and every byte count is allowed;
an ill-formed transfer is refused by the decoder -/

theorem test_well_formed (d : List Byte) : (Instr.bwRawBytes d).wellFormed = true := rfl
theorem test_ill_formed_transfers :
    decode (.uop [0x10, 0x80, 0, 0, 0, 0, 0, 0, 0, 0]) = .error .badOperands ∧
    decode (.uop [0x13, 0, 0, 0]) = .error .badOperands ∧
    decode (.uop [0x14, 0, 0, 0, 0, 0, 0, 0]) = .error .badOperands ∧
    decode (.uop [0x11, 0]) = .error .badOperands ∧ decode (.uop []) = .error .badOperands := by decide

/-! ### The step from power-on -/

/-- A placed command word runs as the first step (B-CMD-10: CONFIG 0 gives STATUS 0x00000C01). -/
theorem test_step_config :
    view (fun t => (t.statusWord, t.cap, t.result)) (step (State.reset.withFetchWord 32 0x01000000)) =
      some (0x00000C01, 600000, 0) := by decide
/-- A placed WRITE has the zero bytes it needs. -/
theorem test_step_write :
    view (fun t => (t.dinIn, t.hostQueue)) (step (State.reset.withFetchWord 32 0x02000002)) =
      some ([], []) := by decide
/-- A placed uop runs as the first step (R302: level 0 sends `30`). -/
theorem test_step_uop :
    view State.sinkBytes (step (State.reset.withFetchWord 8 0x1F)) = some [0x42, 0x5A, 0x68, 0x30] := by
  decide +kernel

/-! ### Bit writer (B-BW) -/

/-- B-BW-1. -/
theorem test_bw_writebits :
    (view (exec (.bwWriteBits 5 0b00011)) (exec (.bwWriteBits 3 0b101) opened)).bind
      (view fun t => (t.sinkBytes, t.bwCnt)) = some ([0xA3], 0) := by decide +kernel
/-- B-BW-17. -/
theorem test_bw_writebits_too_wide :
    faultErr (exec (.bwWriteBits 65 0) opened) = some .invariantViolation := by decide
/-- B-BW-11. -/
theorem test_bw_pad :
    (view (exec .bwPad) (exec (.bwWriteBits 3 0b101) opened)).bind
      (view fun t => (t.sinkBytes, t.bwCnt)) = some ([0xA0], 0) := by decide +kernel
/-- B-BW-15 and B-BW-16. -/
theorem test_bw_rawbytes :
    view State.sinkBytes (exec (.bwRawBytes [0x42, 0x5A]) opened) = some [0x42, 0x5A] ∧
    faultErr (exec (.bwRawBytes [0x42]) { opened with bwAcc := 1, bwCnt := 1 }) =
      some .unalignedWrite := by decide
/-- B-BW-18: the byte is lost and ERR is SinkIOError. -/
theorem test_bw_sink_failure :
    view (fun t => (t.sinkBytes, t.err)) (exec (.bwWriteBits 16 0x425A) (failing 0 opened)) =
      some ([], .sinkIOError) := by decide +kernel

/-! ### CRC (B-CRC) -/

/-- B-CRC-1. -/
theorem test_crc_update :
    view State.uopRet (exec (.crcUpdate 0 (ascii "123456789")) opened) = some 0xFC891918 := by
  decide +kernel
/-- B-CRC-12. -/
theorem test_crc_combine :
    view State.uopRet (exec (.crcCombine 0x80000001 1) opened) = some 2 := by decide
/-- B-CRC-15. -/
theorem test_crc_table :
    [crcT 0x00, crcT 0x01, crcT 0x02, crcT 0x80, crcT 0xFF] =
      [0x00000000, 0x04C11DB7, 0x09823B6E, 0x690CE0EE, 0xB1F740B4] := by decide +kernel

/-! ### Symbol set (B-SYM) -/

/-- B-SYM-3. -/
theorem test_sym_analyze :
    view (fun t => (t.alpha, rangeBitmap t.present,
        [rangeWord t.present 0, rangeWord t.present 1, rangeWord t.present 15]))
      (exec .symAnalyze { opened with bwtOut := [0x00, 0x0F, 0x10, 0xFF] }) =
      some ([0x00, 0x0F, 0x10, 0xFF], 0xC001, [0x8001, 0x8000, 0x0001]) := by decide +kernel

/-! ### RLE1 (B-RLE1) -/

/-- B-RLE1-4: "aaaaab". -/
theorem test_rle1_accept :
    view (fun t => (t.blkBuf, t.bcrc, t.uopRet))
      (exec .rle1Accept { opened with writeIn := ascii "aaaaab" }) =
      some ([0x61, 0x61, 0x61, 0x61, 0x01, 0x62], 0x97628619, 6) := by decide +kernel
/-- B-RLE1-5 (S4), in a block of capacity 10 with room 4: the fourth copy is refused. -/
theorem test_rle1_accept_boundary :
    view (fun t => (t.uopRet, t.blkFull, t.eff, t.blkLen, t.runLen))
      (exec .rle1Accept
        { filled 6 0x63 1 with cap := 10, writeIn := [0x62, 0x62, 0x62, 0x62] }) =
      some (3, true, 9, 9, 3) := by decide +kernel
/-- B-RLE1-3: "aaaaa". -/
theorem test_rle1_finish :
    (view (exec .rle1Finish) (exec .rle1Accept { opened with writeIn := ascii "aaaaa" })).bind
      (view fun t => (t.blkBuf, t.runLen)) = some ([0x61, 0x61, 0x61, 0x61, 0x01], 0) := by
  decide +kernel

/-! ### BWT, MTF, RLE2 -/

/-- B-BWT-2. -/
theorem test_bwt_sort :
    view (fun t => (t.bwtOut, t.ptr)) (exec .bwtSort { opened with blkBuf := ascii "baanana" }) =
      some (ascii "bnnaaaa", 4) := by decide +kernel
/-- B-BWT-5 and B-BWT-9: equal rotations by their start index; a rotation sort, no terminator. -/
theorem test_bwt_sort_ties :
    (bwtBytes (ascii "abcabc"), bwtPointer (ascii "abcabc")) = (ascii "ccaabb", 0) ∧
    (bwtBytes (ascii "baa"), bwtPointer (ascii "baa")) = (ascii "baa", 2) := by decide +kernel
/-- S2. -/
theorem test_mtf_run :
    view (fun t => (t.ranks, t.mtfList))
      (exec .mtfRun { opened with alpha := ascii "abn", bwtOut := ascii "nnbaaa" }) =
      some ([2, 0, 2, 2, 0, 0], ascii "abn") := by decide +kernel
/-- S3. -/
theorem test_rle2_run :
    view (fun t => (t.sym, t.freq))
      (exec .rle2Run { opened with alpha := ascii "abn", ranks := [2, 0, 2, 2, 0, 0, 0, 0, 0] }) =
      some ([3, 0, 3, 3, 0, 1, 4], [2, 1, 0, 3, 1]) := by decide +kernel
/-- The zero-run table of section 2.7. -/
theorem test_zero_run :
    [6, 11, 14, 255, 256, 1000].map zeroRun =
      [[1, 1], [0, 0, 1], [1, 1, 1], [0, 0, 0, 0, 0, 0, 0, 0], [1, 0, 0, 0, 0, 0, 0, 0],
       [1, 0, 0, 1, 0, 1, 1, 1, 1]] := by decide +kernel

/-! ### Huffman (B-HUF) -/

/-- B-HUF-5. -/
theorem test_huff_build :
    view (fun t => (t.ntrees, t.len, t.sel))
      (exec .huffBuild
        { opened with alpha := ascii "abn", sym := [3, 0, 3, 3, 1, 4], freq := [1, 1, 0, 3, 1] }) =
      some (2, [[3, 3, 3, 1, 3], [3, 3, 3, 1, 3]], [0]) := by decide +kernel
/-- B-HUF-9: a longest code of 21 bits is CodeLengthOverflow, one of 20 bits is accepted. -/
theorem test_huff_build_limit :
    faultErr (exec .huffBuild
      { opened with
        alpha := (List.range 20).map (BitVec.ofNat 8)
        freq := [17711, 10946, 6765, 4181, 2584, 1597, 987, 610, 377, 233, 144, 89, 55, 34, 21, 13,
                 8, 5, 3, 2, 1, 1] }) = some .codeLengthOverflow ∧
    (view State.len (exec .huffBuild
      { opened with
        alpha := (List.range 19).map (BitVec.ofNat 8)
        freq := [10946, 6765, 4181, 2584, 1597, 987, 610, 377, 233, 144, 89, 55, 34, 21, 13, 8, 5, 3,
                 2, 1, 1] })).map (·.map maxLength) = some [20, 20] := by decide +kernel
/-- The parameter HUFF_TIE, by hand. The leaves 0 and 1 merge into node 4, of weight 2 like the leaves 2 and
3: by default these two merge next; with node 4 first in the tie order, node 4 and leaf 2 do. -/
theorem test_huff_tie :
    huffLengths [] [1, 1, 2, 2] = some [2, 2, 2, 2] ∧
    huffLengths [4] [1, 1, 2, 2] = some [3, 3, 2, 1] := by decide +kernel
/-- `opened` with an alphabet of `m` bytes, `n` trees and the tables `l`. -/
def tabled (m : Nat) (n : BitVec 3) (l : List (List Nat)) : State :=
  { opened with alpha := (List.range m).map (BitVec.ofNat 8), ntrees := n, len := l }

/-- B-HUF-3 and B-HUF-5; a table from NTREES on is not read. -/
theorem test_huff_codes :
    view State.code (exec .huffCodes (tabled 4 1 [[4, 4, 3, 3, 3, 1]])) =
      some [[0b1110, 0b1111, 0b100, 0b101, 0b110, 0]] ∧
    view State.code (exec .huffCodes (tabled 3 1 [[3, 3, 3, 1, 3], [1, 2, 3, 4, 4]])) =
      some [[0b100, 0b101, 0b110, 0, 0b111]] := by
  decide +kernel
/-- B-HUF-7. -/
theorem test_huff_schedule :
    [1, 50, 51, 100, 101, 250, 251, 301, 900001].map (fun l => (nselOf l, ntreesOf (nselOf l))) =
      [(1, 2), (1, 2), (2, 2), (2, 2), (3, 3), (5, 5), (6, 6), (7, 6), (18001, 6)] := by decide +kernel
/-- B-HUF-10. -/
theorem test_sel_mtf :
    view State.selRank
      (exec .selMtf { opened with ntrees := 6, nsel := 8, sel := [0, 1, 2, 3, 4, 5, 0, 1] }) =
      some [0, 1, 2, 3, 4, 5, 5, 5] := by decide +kernel

/-! ### Block serializer and stream -/

/-- Program P2: the block "banana" and the footer after the header, and the state of CORE. -/
theorem test_blk_serialize :
    view (fun t => (t.sinkBytes.length * 8 + t.bwCnt.toNat, t.scrc, t.blkBuf, t.bcrc))
      (exec .blkSerialize banana) = some (212, 0xEFB6EC01, [], 0) := by decide +kernel
/-- Program P2's output after the header, CLOSE beginning on a byte boundary. -/
theorem test_close_banana :
    view (fun t => (t.sinkBytes, t.statusWord))
      (exec .close { banana with sinkBytes := [0x42, 0x5A, 0x68, 0x31] }) =
      some ([0x42, 0x5A, 0x68, 0x31, 0x31, 0x41, 0x59, 0x26, 0x53, 0x59, 0xEF, 0xB6, 0xEC, 0x01, 0x00,
        0x00, 0x01, 0x81, 0x00, 0x30, 0x01, 0x20, 0x00, 0x20, 0xD0, 0xF5, 0x03, 0x43, 0xD4, 0x42,
        0xF1, 0x77, 0x24, 0x53, 0x85, 0x09, 0x0E, 0xFB, 0x6E, 0xC0, 0x10], 0x00000203) := by
  decide +kernel
/-- Program P1, level 9. -/
theorem test_close_empty :
    view State.sinkBytes (exec .close { unopened with level := 9 }) =
      some [0x42, 0x5A, 0x68, 0x39, 0x17, 0x72, 0x45, 0x38, 0x50, 0x90, 0, 0, 0, 0] := by
  decide +kernel
/-- R302. -/
theorem test_stream_header :
    view (fun t => (t.sinkBytes, t.sstate)) (exec .streamHeader { unopened with level := 9 }) =
      some ([0x42, 0x5A, 0x68, 0x39], .headerWritten) := by decide +kernel
/-- R308. -/
theorem test_stream_footer :
    view State.sinkBytes (exec .streamFooter { opened with scrc := 0xEFB6EC01, bwCnt := 4 }) =
      some [0x01, 0x77, 0x24, 0x53, 0x85, 0x09, 0x0E, 0xFB, 0x6E, 0xC0, 0x10] := by decide +kernel
/-- B-CMD-4 and B-CMD-12: a bad level changes RESULT only. -/
theorem test_config_error :
    view (fun t => (t.result, t.sstate, t.level)) (exec (.config 12) { opened with level := 3 }) =
      some (0x10000000, .headerWritten, 3) := by decide
/-- Program P3: the run goes on over two WRITEs. -/
theorem test_write :
    (view (exec (.write 2)) (exec (.write 3) (withDin (ascii "aaaaa") unopened))).bind
      (view fun t => (t.result, t.blkBuf, t.runLen, t.eff)) = some (2, ascii "aaaa", 5, 5) := by
  decide +kernel
/-- A WRITE that exactly fills the block serialises it (R304), here with capacity 6. -/
theorem test_write_exact_fill :
    view (fun t => (t.result, t.blkLen, t.bcrc, t.scrc))
      (exec (.write 6) (withDin (ascii "banana") { opened with cap := 6 })) =
      some (6, 0, 0, 0xEFB6EC01) := by decide +kernel
/-- Program P4: FLUSH leaves 6 bits pending. -/
theorem test_flush :
    (view (exec .flush) (exec (.write 2) (withDin (ascii "ab") unopened))).bind
      (view fun t => (t.sinkBytes.length, t.bwCnt, t.scrc, t.statusWord)) =
      some (28, 6, 0xE993FDCD, 0x00000382) := by decide +kernel
/-- B-CMD-14: FLUSH of an empty block sends nothing. -/
theorem test_flush_empty :
    view (fun t => (t.result, t.sinkBytes, t.sstate)) (exec .flush unopened) =
      some (0, [], .unopened) := by decide
/-- B-CMD-18. -/
theorem test_reset :
    view (fun t => (t.result, t.statusWord)) (exec .reset { closed with err := .writeAfterClose }) =
      some (0, 0x00000201) := by decide
/-- B-CMD-3. -/
theorem test_reset_unconfigured :
    view (fun t => (t.result, t.statusWord)) (exec .reset State.reset) = some (0x80000000, 0) := by
  decide
/-- Program P9: the third byte of the header fails. -/
theorem test_write_sink_failure :
    view (fun t => (t.sinkBytes, t.err, t.sstate, t.blkLen, t.dinIn))
      (exec (.write 2) (withDin (ascii "ab") (failing 2 unopened))) =
      some ([0x42, 0x5A], .sinkIOError, .unopened, 0, []) := by decide +kernel

/-! ### Assembler (R90, R91) -/

theorem test_asm_write :
    (parseLine "WRITE \"abc\", 0x00 0x61 x 2 ; text") =
      some (some (.write [0x61, 0x62, 0x63, 0x00, 0x61, 0x61])) := by decide +kernel
theorem test_asm_words :
    assemble (.write [0x61, 0x62, 0x63]) = some [(.command 0x02000003, [0x61, 0x62, 0x63])] ∧
    assemble (.compress 9 [0x61]) = some [(.command 0x01000009, []), (.command 0x02000001, [0x61]),
      (.command 0x04000000, [])] ∧ assemble (.config 16) = none := by decide

/-! ### Witnesses: states and operands that meet the hypotheses of each obligation -/

/-- The sink of every state here but the failing ones accepts every byte. -/
theorem healthy_of_script {s : State} (h : s.sinkScript = []) (hr : s.sinkRest = .ok) :
    s.sinkHealthy := by
  intro j; simp [State.writer, Writer.answerAt, h, hr]

theorem bounded_opened : opened.BlockBounded := ⟨by decide, by decide, by decide, by decide⟩
theorem bounded_banana : banana.BlockBounded := ⟨by decide, by decide, by decide, by decide⟩
theorem bounded_unopened : unopened.BlockBounded := ⟨by decide, by decide, by decide, by decide⟩

theorem settled_opened : opened.Settled :=
  ⟨by simp [State.HostOnly, opened, State.reset], rfl, rfl, rfl, by decide, by decide⟩
theorem settled_unopened : unopened.Settled :=
  ⟨by simp [State.HostOnly, unopened, opened, State.reset], rfl, rfl, rfl, by decide, by decide⟩
theorem sized_reset : State.reset.Sized := by constructor <;> decide

theorem witness_DecodeOfEncodeIsIdentity :
    (Instr.bwRawBytes [0x42]).wellFormed = true ∧ (Instr.crcUpdate 0 []).wellFormed = true ∧
    (Instr.bwWriteBits 127 0).wellFormed = true := by decide

theorem witness_EncodeOfDecodeIsIdentity :
    decode (.command 0x0100000F) = .ok (.config 15) ∧
    decode (.uop [0x10, 127, 0, 0, 0, 0, 0, 0, 0, 1]) = .ok (.bwWriteBits 127 1) := by decide

theorem witness_IllegalCommandWritesResultOnly :
    State.reset.phase = .idle ∧ IllegalWord 0x00000000 ∧ IllegalWord 0x06000000 ∧
    IllegalWord 0xFF000000 ∧ IllegalWord 0x01000010 ∧ IllegalWord 0x03000001 ∧
    IllegalWord 0x04800000 ∧ IllegalWord 0x05000001 ∧ ¬ IllegalWord 0x0100000F ∧
    ¬ IllegalWord 0x05000000 := by
  refine ⟨rfl, ?_, ?_, ?_, ?_, ?_, ?_, ?_, ?_, ?_⟩ <;> unfold IllegalWord <;> decide

theorem witness_StepRunsDecodedInstruction :
    ((pend (.command 0x03000000) opened).phase = .idle ∧
      decode (.command 0x03000000) = .ok .flush) ∧ decode (.uop [0x11]) = .ok .bwPad := by decide

theorem witness_IdleStepKeepsState : State.reset.hostQueue = [] ∧ opened.hostQueue = [] := by decide

theorem witness_HostOutsideContractIsRefused :
    { pend (.command 0x03000000) opened with phase := .accept }.phase ≠ .idle ∧
    { pend (.attachSink [] .ok) opened with phase := .footer }.phase ≠ .idle ∧
    (withDin [0x61] opened).dinIn.length < (2 : BitVec 24).toNat := by decide

theorem witness_UnknownUopFaults :
    (0x0F : Byte).toNat < 0x10 ∧ 0x20 < (0x21 : Byte).toNat ∧
    (pend (.uop [0x21]) opened).hostQueue = .uop (0x21 :: []) :: [] := by decide

theorem witness_AttachSinkChangesSinkPortOnly :
    (pend (.attachSink [.ok, .fail] .ok) opened).phase = .idle ∧
    (pend (.attachSink [.ok, .fail] .ok) opened).hostQueue = .attachSink [.ok, .fail] .ok :: [] := by
  decide

theorem witness_ConfigSetsLevelOrRejects :
    (cmdOp 0x01000010 = 0x01 ∧ 16 ≤ (cmdImm 0x01000010).toNat) ∧ (0 : BitVec 4).toNat ≤ 9 ∧ (9 : BitVec 4).toNat ≤ 9 ∧ 9 < (10 : BitVec 4).toNat ∧
    9 < (15 : BitVec 4).toNat := by decide

theorem witness_ResetRestartsConfiguredStream :
    closed.sstate ≠ .unconfigured ∧ State.reset.sstate = .unconfigured := by decide

theorem witness_UnconfiguredCommandsAnswerNotConfigured :
    (withDin [0x61, 0x62] State.reset).sstate = .unconfigured ∧
    (2 : BitVec 24).toNat ≤ (withDin [0x61, 0x62] State.reset).dinIn.length := by decide

theorem witness_StickyErrorIsAnswered :
    { withDin [0x61] opened with err := .sinkIOError }.sstate ≠ .unconfigured ∧
    { withDin [0x61] opened with err := .sinkIOError }.err ≠ .noError ∧
    (1 : BitVec 24).toNat ≤ { withDin [0x61] opened with err := .sinkIOError }.dinIn.length := by
  decide

theorem witness_ClosedStreamRejectsCommands :
    (withDin [0x61] closed).sstate = .closed ∧ (withDin [0x61] closed).err = .noError ∧
    (1 : BitVec 24).toNat ≤ (withDin [0x61] closed).dinIn.length := by decide

/-- Each command answers a next state: with success, with an error inside it, and at a check. -/
theorem witness_StreamStateTransitions :
    (∃ t, exec (.config 1) State.reset = .next t ∧ t.sstate = .unopened) ∧
    (∃ t, exec (.config 10) closed = .next t ∧ t.sstate = .closed) ∧
    (∃ t, exec (.write 1) (withDin [0x61] unopened) = .next t ∧
      (t.err, t.sstate) = (.noError, .headerWritten)) ∧
    (∃ t, exec (.write 1) (withDin [0x61] (failing 3 unopened)) = .next t ∧
      (t.err, t.sstate) = (.sinkIOError, .unopened)) ∧
    (∃ t, exec .flush opened = .next t ∧ t.sstate = .headerWritten) ∧
    (∃ t, exec .close unopened = .next t ∧ (t.err, t.sstate) = (.noError, .closed)) ∧
    (∃ t, exec .close (failing 4 unopened) = .next t ∧
      (t.err, t.sstate) = (.sinkIOError, .headerWritten)) ∧
    (∃ h, exec .streamHeader unopened = .next h ∧ h.err = .noError) ∧
    (∃ h, exec .streamHeader (failing 3 unopened) = .next h ∧ h.err = .sinkIOError) ∧
    (opened.streamOpen ∧ unopened.streamOpen ∧ (failing 3 unopened).streamOpen) ∧
    ∃ t, exec .reset closed = .next t ∧ t.sstate = .unopened := by
  refine ⟨view_some ?_, view_some ?_, view_some ?_, view_some ?_, view_some ?_, view_some ?_,
    view_some ?_, view_some ?_, view_some ?_, ⟨⟨.inr rfl, rfl⟩, ⟨.inl rfl, rfl⟩, .inl rfl, rfl⟩,
    view_some ?_⟩ <;> decide +kernel

/-- A width of 64 and of 65, an error, a sink that accepts, and sinks that fail the first and the last
of the completed bytes. -/
theorem witness_WriteBitsAppendsLowBits :
    (64 : BitVec 7).toNat ≤ 64 ∧ 64 < (65 : BitVec 7).toNat ∧
    { opened with err := .sinkIOError }.err ≠ .noError ∧ opened.err = .noError ∧
    opened.sinkAccepts ((opened.bwCnt.toNat + 64) / 8) ∧ (failing 0 opened).sinkFailsAt 0 ∧
    (failing 7 opened).sinkFailsAt 7 ∧ 7 < ((failing 7 opened).bwCnt.toNat + 64) / 8 := by
  unfold State.sinkFailsAt State.sinkAccepts; decide

theorem witness_PadFillsByteWithZeros :
    { opened with bwCnt := 7 }.err = .noError ∧ { opened with bwCnt := 7 }.bwCnt ≠ 0 ∧
    { opened with bwCnt := 1 }.sinkAccepts 1 ∧ (failing 0 { opened with bwCnt := 1 }).sinkFailsAt 0 ∧
    opened.bwCnt = 0 := by
  unfold State.sinkFailsAt State.sinkAccepts; decide

theorem witness_RawBytesNeedByteBoundary :
    { opened with err := .sinkIOError }.err ≠ .noError ∧
    ({ opened with bwCnt := 1 }.err = .noError ∧ { opened with bwCnt := 1 }.bwCnt ≠ 0) ∧
    opened.err = .noError ∧ opened.bwCnt = 0 ∧ opened.sinkAccepts 2 ∧
    (failing 0 opened).sinkFailsAt 0 ∧ (failing 1 opened).sinkFailsAt 1 := by
  unfold State.sinkFailsAt State.sinkAccepts; decide

theorem witness_CrcUpdateChunkIndependence :
    0 ≤ (ascii "123456789").length ∧ 9 ≤ (ascii "123456789").length := by decide

/-- B-RLE1-5 leaves a byte over, after three that are taken. -/
theorem witness_Rle1AcceptTakesPrefix :
    banana.BlockBounded ∧ opened.BlockBounded ∧
    { filled 6 0x63 1 with cap := 10, writeIn := [0x62, 0x62, 0x62, 0x62] }.BlockBounded ∧
    view State.writeIn (exec .rle1Accept
      { filled 6 0x63 1 with cap := 10, writeIn := [0x62, 0x62, 0x62, 0x62] }) = some [0x62] :=
  ⟨bounded_banana, bounded_opened, ⟨by decide, by decide, by decide, by decide⟩, by decide +kernel⟩

theorem witness_Rle1BlockHoldsCodeOfAcceptedBytes :
    (opened.blkBuf = [] ∧ opened.runLen = 0 ∧ opened.bcrc = 0) ∧ banana.BlockBounded ∧
    banana.holdsCode (ascii "banana") := by
  refine ⟨by decide, bounded_banana, ?_⟩
  refine ⟨by decide +kernel, ?_, by decide +kernel⟩
  have h : (runsOf (ascii "banana")).getLast? = some (0x61, 1) := by decide +kernel
  simp [runStateOf, h, banana]

/-- `filled` with the byte `x` offered. -/
def offering (x : Byte) (s : State) : State := { s with writeIn := [x] }

/-- Small capacities, so that the room is 0, 1 and 2: copies 2, 3, 4, 5 and 259 of the open unit, a new
unit after 259 copies, and a byte of another value. -/
theorem witness_Rle1RoomOfAnOfferedByte :
    (∀ n ∈ [(1 : BitVec 9), 2, 3], ∀ room ∈ [0, 1, 2],
      { offering 0x63 (filled 3 0x63 n) with cap := 3 + BitVec.ofNat 20 room }.BlockBounded ∧
      { offering 0x63 (filled 3 0x63 n) with cap := 3 + BitVec.ofNat 20 room }.eff + room =
        { offering 0x63 (filled 3 0x63 n) with cap := 3 + BitVec.ofNat 20 room }.cap.toNat) ∧
    (offering 0x63 (filled 3 0x63 1)).runByte = 0x63 ∧
    (offering 0x64 (filled 3 0x63 1)).runByte ≠ 0x64 ∧
    ∀ n ∈ [(4 : BitVec 9), 258, 259], ∀ room ∈ [0, 1],
      { offering 0x63 (filled 4 0x63 n) with cap := 5 + BitVec.ofNat 20 room }.BlockBounded ∧
      { offering 0x63 (filled 4 0x63 n) with cap := 5 + BitVec.ofNat 20 room }.eff + room =
        { offering 0x63 (filled 4 0x63 n) with cap := 5 + BitVec.ofNat 20 room }.cap.toNat := by
  refine ⟨fun n hn room hr => ?_, by decide, by decide, fun n hn room hr => ?_⟩ <;>
    fin_cases hn <;> fin_cases hr <;>
    exact ⟨⟨by decide, by decide, by decide, by decide⟩, by decide⟩

/-- No pending length byte, and the pending length bytes 0 and 255. -/
theorem witness_Rle1FinishCommitsLengthByte :
    (filled 3 0x63 3).BlockBounded ∧ (filled 4 0x63 4).BlockBounded ∧
    (filled 4 0x63 259).BlockBounded :=
  ⟨⟨by decide, by decide, by decide, by decide⟩, ⟨by decide, by decide, by decide, by decide⟩,
    ⟨by decide, by decide, by decide, by decide⟩⟩

theorem witness_Rle1FinishedBlockDecodes :
    banana.BlockBounded ∧ banana.holdsCode (ascii "banana") :=
  witness_Rle1BlockHoldsCodeOfAcceptedBytes.2

theorem witness_BwtSortsRotations :
    banana.blkBuf ≠ [] ∧ banana.blkBuf.length ≤ 900000 ∧ opened.blkBuf = [] := by decide

theorem witness_BwtOutputIsPermutation :
    banana.blkBuf ≠ [] ∧ banana.blkBuf.length ≤ 900000 := by decide

/-- The working registers of "banana" before MTF_RUN. -/
def analyzed : State := { opened with alpha := ascii "abn", bwtOut := ascii "nnbaaa" }

theorem witness_MtfRanksDecodeToData :
    analyzed.alpha.length ≤ 256 ∧ analyzed.bwtOut.length ≤ 900000 ∧
    ∀ x ∈ analyzed.bwtOut, x ∈ analyzed.alpha := by decide

/-- The working registers of S3 before RLE2_RUN. -/
def ranked : State := { analyzed with ranks := [2, 0, 2, 2, 0, 0, 0, 0, 0] }

theorem witness_Rle2SymbolsDecodeToRanks :
    ranked.alpha.length ≤ 256 ∧ ranked.ranks.length ≤ 900000 ∧
    ∀ r ∈ ranked.ranks, r.toNat < ranked.m := by decide

theorem witness_Rle2FrequenciesCountSymbols :
    ranked.alpha.length ≤ 256 ∧ ranked.ranks.length ≤ 900000 ∧
    ∀ r ∈ ranked.ranks, r.toNat < ranked.m := witness_Rle2SymbolsDecodeToRanks

/-- `opened` with the committed bytes `l`. -/
def holding (l : List Byte) : State := { opened with blkBuf := l }

/-- Symbols 2 are ranks 1. -/
theorem rle2Decode_twos (n : Nat) : rle2Decode [] (List.replicate n 2) = List.replicate n 1 := by
  induction n with
  | zero => rfl
  | succ n ih => simp [List.replicate_succ, rle2Decode, runValue, ih]

/-- RLE1_ACCEPT at the end of BLK_BUF, in a block whose capacity is greater. -/
theorem accept_outside (l : List Byte) (x : Byte) (h : l.length = 900000) :
    ∃ t, exec .rle1Accept { holding l with cap := 900001, writeIn := [] } = .next t ∧
      t.writeIn = [] ∧ 1 ≤ t.roomNeeded x ∧ t.eff + t.roomNeeded x ≤ t.cap.toNat ∧ 900000 ≤ t.eff := by
  refine ⟨_, rfl, rfl, ?_⟩
  rw [State.roomNeeded_closed x rfl]
  refine ⟨le_rfl, ?_, ?_⟩
  · show l.length + 0 + 1 ≤ 900001
    rw [h]
  · show 900000 ≤ l.length + 0
    rw [h]

/-- Each clause just outside its buffer, and at a missing entry; RLE1_FINISH at 900000 bytes and a pending
length byte. -/
theorem witness_IndexOutsideBufferFaults (b : Byte) :
    900000 < { opened with blkBuf := List.replicate 900001 b }.blkBuf.length ∧
    256 < { opened with alpha := List.replicate 257 b }.alpha.length ∧
    900000 < { opened with bwtOut := List.replicate 900001 b }.bwtOut.length ∧
    (∃ x ∈ { analyzed with bwtOut := [0x63] }.bwtOut, x ∉ analyzed.alpha) ∧
    (∃ r ∈ { analyzed with ranks := [4] }.ranks, analyzed.m < r.toNat) ∧
    { analyzed with freq := [1, 1, 1, 1] }.freq.length < analyzed.m + 2 ∧
    900050 < { opened with sym := List.replicate 900051 0 }.sym.length ∧
    (rle2Decode [] (List.replicate 900001 2) =
        { ranked with ranks := List.replicate 900001 1 }.ranks.map BitVec.toNat ∧
      900000 < (List.replicate 900001 2).length) ∧
    (tabled 3 2 [[3, 3, 3, 1, 3]]).len.length < (2 : BitVec 3).toNat ∧
    (∃ lens ∈ (tabled 3 1 [[1, 1]]).len.take 1, lens.length < (tabled 3 1 [[1, 1]]).m + 2) ∧
    900000 < { holding (List.replicate 900000 b) with runLen := 4 }.eff ∧
    { opened with nsel := 2, sel := [0] }.sel.length < (2 : BitVec 15).toNat ∧
    (∃ g ∈ { opened with ntrees := 2, nsel := 1, sel := [2] }.sel.take 1, (2 : BitVec 3).toNat ≤ g) ∧
    (opened.blkBuf = [] ∧ opened.runLen = 0) := by
  simp only [List.length_replicate, List.map_replicate, State.eff, State.blkLen, holding]
  refine ⟨by decide, by decide, by decide, by decide, by decide, by decide, by decide,
    ⟨rle2Decode_twos 900001, by decide⟩, by decide, by decide, Nat.lt_succ_self 900000, by decide,
    by decide, by decide⟩

/-- The working registers of "banana" before HUFF_BUILD. -/
def counted : State := { analyzed with sym := [3, 0, 3, 3, 1, 4], freq := [1, 1, 0, 3, 1] }

/-- The working registers of B-HUF-9, whose longest code has 21 bits. -/
def fibonacci : State :=
  { opened with
    alpha := (List.range 20).map (BitVec.ofNat 8)
    freq := [17711, 10946, 6765, 4181, 2584, 1597, 987, 610, 377, 233, 144, 89, 55, 34, 21, 13, 8, 5, 3,
             2, 1, 1] }

/-- A table whose lengths are all at most 20, and one with a length of 21. -/
theorem witness_HuffBuildGivesCompleteLengthTables :
    (counted.freq.length = counted.m + 2 ∧ counted.m ≤ 256 ∧ counted.sym.length ≤ 900001 ∧
      huffLengths counted.tieOrder counted.freq = some [3, 3, 3, 1, 3]) ∧
    (fibonacci.freq.length = fibonacci.m + 2 ∧ fibonacci.m ≤ 256 ∧ fibonacci.sym.length ≤ 900001 ∧
      (huffLengths fibonacci.tieOrder fibonacci.freq).map maxLength = some 21) := by decide +kernel

theorem witness_HuffBuildCompletesForSmallAlphabets :
    counted.m ≤ 19 ∧ counted.freq.length = counted.m + 2 ∧ counted.sym.length ≤ 900001 := by decide

/-- Symbol 3 has frequency 3 and length 1, symbol 0 frequency 1 and length 3. -/
theorem witness_FrequentSymbolsHaveNoLongerCodes :
    counted.freq.length = counted.m + 2 ∧ counted.freq[3]? = some 3 ∧ counted.freq[0]? = some 1 ∧
    ∃ t, exec .huffBuild counted = .next t ∧ t.len = [[3, 3, 3, 1, 3], [3, 3, 3, 1, 3]] :=
  ⟨by decide, by decide, by decide, view_some (by decide +kernel)⟩

/-- A table with a code of 20 bits. -/
def deepTable : List Nat := [1, 2, 3, 4, 5, 6, 7, 8, 9, 10, 11, 12, 13, 14, 15, 16, 17, 18, 19, 20, 20]

/-- The lengths of B-HUF-3 in one of two tables, and two tables with a code of 20 bits. -/
theorem witness_HuffCodesAreCanonical :
    ∀ s ∈ [tabled 4 1 [[4, 4, 3, 3, 3, 1], []], tabled 19 2 [deepTable, deepTable]],
      s.m ≤ 256 ∧ s.ntrees.toNat ≤ s.len.length ∧
      (∀ lens ∈ s.len.take s.ntrees.toNat, s.m + 2 ≤ lens.length) ∧
      ∀ lens ∈ (s.len.take s.ntrees.toNat).map (fun lens => lens.take (s.m + 2)),
        KraftEquality 20 lens ∧ ∀ l ∈ lens, 1 ≤ l := by
  unfold KraftEquality; decide +kernel

theorem witness_HuffCodesArePrefixFree :
    (tabled 19 2 [deepTable, deepTable]).m ≤ 256 ∧
    ∀ lens ∈ [deepTable, deepTable], 19 + 2 ≤ lens.length ∧ KraftEquality 20 lens ∧ ∀ l ∈ lens, 1 ≤ l := by
  unfold KraftEquality; decide +kernel

/-- `opened` with `n` trees and the selectors `l`. -/
def scheduled (n : BitVec 3) (l : List Nat) : State :=
  { opened with ntrees := n, nsel := BitVec.ofNat 15 l.length, sel := l }

/-- A round-robin schedule that goes round, and one that is not round-robin. -/
theorem witness_SelectorRanksOfRoundRobin :
    ((scheduled 3 [0, 1, 2, 0]).nsel.toNat ≤ (scheduled 3 [0, 1, 2, 0]).sel.length ∧
      (∀ g ∈ (scheduled 3 [0, 1, 2, 0]).sel.take 4, g < (3 : BitVec 3).toNat) ∧
      (scheduled 3 [0, 1, 2, 0]).sel.take 4 = (List.range 4).map (· % (3 : BitVec 3).toNat)) ∧
    (scheduled 2 [1, 0]).nsel.toNat ≤ (scheduled 2 [1, 0]).sel.length ∧
    ∀ g ∈ (scheduled 2 [1, 0]).sel.take 2, g < (2 : BitVec 3).toNat := by decide

theorem serialized_banana : ∃ t, exec .blkSerialize banana = .next t ∧ t.err = .noError :=
  view_some (by decide +kernel)

theorem witness_SerializeRunsUnitsInOrder : ∃ t, exec .blkSerialize banana = .next t := by
  obtain ⟨t, h, -⟩ := serialized_banana; exact ⟨t, h⟩

theorem few_banana : banana.fewValues 19 := by unfold State.fewValues; decide +kernel

theorem witness_SerializeCompletesBlock :
    banana.BlockBounded ∧ banana.blockEmpty = false ∧ banana.fewValues 19 ∧ banana.err = .noError ∧
    banana.sinkHealthy :=
  ⟨bounded_banana, by decide, few_banana, by decide, healthy_of_script rfl rfl⟩

theorem witness_SerializeSendsBlockLayout :
    banana.BlockBounded ∧ banana.err = .noError ∧
    ∃ t, exec .blkSerialize banana = .next t ∧ t.err = .noError :=
  ⟨bounded_banana, by decide, serialized_banana⟩

theorem witness_SerializedBlockLength :
    banana.BlockBounded ∧ banana.err = .noError ∧
    ∃ t, exec .blkSerialize banana = .next t ∧ t.err = .noError := witness_SerializeSendsBlockLayout

theorem witness_SerializeFaultsOnlyOnLongCodes :
    banana.BlockBounded ∧ banana.blockEmpty = false ∧ banana.err = .noError :=
  ⟨bounded_banana, by decide, by decide⟩

theorem witness_StreamHeaderSendsFourBytes :
    { unopened with err := .sinkIOError }.err ≠ .noError ∧ unopened.err = .noError ∧
    unopened.sinkHealthy ∧ unopened.bwCnt = 0 ∧ unopened.sinkAccepts 4 ∧
    (failing 0 unopened).sinkFailsAt 0 ∧ (failing 3 unopened).sinkFailsAt 3 := by
  refine ⟨by decide, by decide, healthy_of_script rfl rfl, by decide, ?_⟩
  unfold State.sinkFailsAt State.sinkAccepts; decide

theorem witness_StreamFooterSendsCrcAndPads :
    { opened with err := .sinkIOError }.err ≠ .noError ∧ opened.err = .noError ∧ opened.sinkHealthy :=
  ⟨by decide, by decide, healthy_of_script rfl rfl⟩

/-- A block past the end of BLK_BUF, on which BLK_SERIALIZE faults. -/
theorem faulting_of_length (l : List Byte) (h : Config.capMax < l.length) :
    (holding l).blockEmpty = false ∧ ∃ r, exec .blkSerialize (holding l) = .fault r := by
  have he : (holding l).blockEmpty = false := by
    cases l with
    | nil => simp at h
    | cons x xs => rfl
  have hc : ((holding l).setPhase (.serialize .rle1Finish)).block.commit
      ((holding l).setPhase (.serialize .rle1Finish)).block.pending = none := by
    rw [Block.commit_eq_none]; exact h
  refine ⟨he, .invariantViolation .indexOutside
    (((holding l).setPhase (.serialize .rle1Finish)).raise .invariantViolation), ?_⟩
  have h1 : atStep .rle1Finish execRle1Finish (holding l) =
      faultInvariant .indexOutside ((holding l).setPhase (.serialize .rle1Finish)) := by
    simp only [atStep, execRle1Finish, hc]
  show execBlkSerialize (holding l) = _
  simp only [execBlkSerialize, blkTransform, he, h1, Bool.false_eq_true, if_false]
  rfl

theorem faulting_oversized (b : Byte) :
    (holding (List.replicate 900001 b)).blockEmpty = false ∧
    ∃ r, exec .blkSerialize (holding (List.replicate 900001 b)) = .fault r :=
  faulting_of_length _ (by rw [List.length_replicate]; decide)

theorem witness_FlushSerialisesOpenBlock :
    opened.streamOpen ∧ (opened.blkBuf = [] ∧ opened.runLen = 0) ∧ banana.streamOpen ∧
    banana.blockEmpty = false ∧ (∃ t, exec .blkSerialize banana = .next t) ∧ banana.BlockBounded ∧
    banana.fewValues 19 ∧ banana.sinkHealthy :=
  ⟨⟨.inr rfl, rfl⟩, by decide, ⟨.inr rfl, rfl⟩, by decide, witness_SerializeRunsUnitsInOrder,
    bounded_banana, few_banana, healthy_of_script rfl rfl⟩

theorem witness_CloseOfEmptyStreamSendsFourteenBytes :
    unopened.sstate = .unopened ∧ unopened.err = .noError ∧ unopened.blkBuf = [] ∧
    unopened.runLen = 0 ∧ unopened.bwCnt = 0 ∧ unopened.scrc = 0 ∧ unopened.sinkAccepts 14 := by
  unfold State.sinkAccepts; decide

/-- In Unopened a header that is sent and one that fails; in HeaderWritten an empty block with a footer
that is sent and one that fails, a block that is serialised, one whose first byte fails, one whose footer
fails, and one that faults; and the healthy sink of the last clause. -/
theorem witness_CloseSerialisesAndFinishes :
    ((∃ h, exec .streamHeader unopened = .next h ∧ h.err = .noError) ∧
      ∃ h, exec .streamHeader (failing 3 unopened) = .next h ∧ h.err = .sinkIOError) ∧
    ((opened.blkBuf = [] ∧ opened.runLen = 0) ∧
      (∃ u, exec .streamFooter opened = .next u ∧ u.err = .noError) ∧
      ∃ u, exec .streamFooter (failing 0 opened) = .next u ∧ u.err = .sinkIOError) ∧
    ((∃ t, exec .blkSerialize banana = .next t ∧ t.err = .noError) ∧
      (∃ t, exec .blkSerialize (failing 0 banana) = .next t ∧ t.err = .sinkIOError) ∧
      (∃ t, exec .blkSerialize (failing 26 banana) = .next t ∧
        (t.err = .noError ∧ view State.err (exec .streamFooter t) = some .sinkIOError)) ∧
      ∃ r, exec .blkSerialize (holding (List.replicate 900001 0)) = .fault r) ∧
    banana.sstate = .headerWritten ∧ banana.err = .noError ∧ banana.BlockBounded ∧
    banana.blockEmpty = false ∧ banana.fewValues 19 ∧ banana.sinkHealthy := by
  refine ⟨⟨view_some ?_, view_some ?_⟩, ⟨⟨rfl, rfl⟩, view_some ?_, view_some ?_⟩,
    ⟨view_some ?_, view_some ?_, ?_, (faulting_oversized 0).2⟩, rfl, rfl, bounded_banana, rfl,
    few_banana, healthy_of_script rfl rfl⟩
  on_goal 7 =>
    obtain ⟨t, h, h'⟩ := view_some (o := exec .blkSerialize (failing 26 banana))
      (f := fun t => (t.err, view State.err (exec .streamFooter t)))
      (a := (.noError, some .sinkIOError)) (by decide +kernel)
    exact ⟨t, h, congrArg Prod.fst h', congrArg Prod.snd h'⟩
  all_goals decide +kernel

theorem bounded_withDin {s : State} (d : List Byte) (h : s.BlockBounded) : (withDin d s).BlockBounded :=
  ⟨h.eff, h.cap, h.unit, h.literal⟩

theorem settled_withDin {s : State} (d : List Byte) (h : s.Settled) : (withDin d s).Settled :=
  ⟨h.host, h.phase, h.blkFull, h.writeIn, h.level, h.fresh⟩

/-- A WRITE before the header, and one of no bytes. -/
theorem witness_WriteThatFitsAcceptsEveryByte :
    (withDin [0x61, 0x62] unopened).streamOpen ∧ (withDin [0x61, 0x62] unopened).BlockBounded ∧
    (2 : BitVec 24).toNat ≤ (withDin [0x61, 0x62] unopened).dinIn.length ∧
    (withDin [0x61, 0x62] unopened).eff + 2 * (2 : BitVec 24).toNat <
      (withDin [0x61, 0x62] unopened).cap.toNat ∧
    (withDin [0x61, 0x62] unopened).sinkHealthy ∧
    (opened.streamOpen ∧ (0 : BitVec 24).toNat ≤ opened.dinIn.length) :=
  ⟨⟨.inl rfl, rfl⟩, bounded_withDin _ bounded_unopened, by decide, by decide,
    healthy_of_script rfl rfl, ⟨.inr rfl, rfl⟩, by decide⟩

/-- A WRITE of `d` whose bytes have been taken from DIN. -/
def taking (d : List Byte) (s : State) : State :=
  { s with writeIn := d, dinIn := [], din := d.getLastD s.din }

/-- `opened` with a block of capacity `n`. -/
def small (n : BitVec 20) : State := { opened with cap := n }

/-- `s` with BLK_FULL consumed. -/
def unfilled (s : State) : State := { s with blkFull := false }

/-- The outcome is a fault. -/
def faults (o : Result) : Bool :=
  match o with
  | .next _ => false
  | .fault _ => true
  | .refused _ => false

/-- A settled state; a header that is sent; and a pass that does not fill the block, one that fills it
exactly, one that leaves a byte over, whose serialisation the next WRITE follows, one whose serialisation
the sink fails, one whose next WRITE the sink fails, one whose next WRITE faults (no block has a capacity
of 0), and one that faults. -/
theorem witness_WriteBlockCycleEnds :
    ((withDin [0x61] opened).Settled ∧ (withDin [0x61] opened).BlockBounded ∧
      (withDin [0x61] opened).streamOpen ∧
      (1 : BitVec 24).toNat ≤ (withDin [0x61] opened).dinIn.length) ∧
    (unopened.sstate = .unopened ∧
      ∃ h, exec .streamHeader (withDin [0x61] unopened) = .next h ∧ h.err = .noError) ∧
    ((small 2).BlockBounded ∧ (small 2).sstate = .headerWritten ∧ (small 2).err = .noError ∧
      (∃ a, exec .rle1Accept (taking [0x61] (small 2)) = .next a ∧ a.blkFull = false) ∧
      (∃ a, exec .rle1Accept (taking [0x61, 0x62] (small 2)) = .next a ∧
        (a.blkFull, a.writeIn) = (true, [])) ∧
      (∃ a, exec .rle1Accept (taking [0x61, 0x62, 0x63] (small 2)) = .next a ∧
        (a.blkFull, a.writeIn, view State.err (exec .blkSerialize (unfilled a)),
          (view (fun b => exec (.write 1) { b with writeIn := [], dinIn := a.writeIn ++ b.dinIn })
            (exec .blkSerialize (unfilled a))).bind (view State.err)) =
          (true, [0x63], some .noError, some .noError)) ∧
      (∃ a, exec .rle1Accept (taking [0x61, 0x62] (failing 0 (small 2))) = .next a ∧
        (a.blkFull, view State.err (exec .blkSerialize (unfilled a))) = (true, some .sinkIOError)) ∧
      (∃ a, exec .rle1Accept (taking [0x61, 0x62, 0x63, 0x64] (failing 30 (small 2))) = .next a ∧
        (a.blkFull, a.writeIn, view State.err (exec .blkSerialize (unfilled a)),
          (view (fun b => exec (.write 2) { b with writeIn := [], dinIn := a.writeIn ++ b.dinIn })
            (exec .blkSerialize (unfilled a))).bind (view State.err)) =
          (true, [0x63, 0x64], some .noError, some .sinkIOError)) ∧
      (∃ a, exec .rle1Accept (taking [0x61] { filled 1 0x63 1 with cap := 0 }) = .next a ∧
        (a.blkFull, a.writeIn, view State.err (exec .blkSerialize (unfilled a)),
          view (fun b => faults (exec (.write 1) { b with writeIn := [], dinIn := a.writeIn ++ b.dinIn }))
            (exec .blkSerialize (unfilled a))) = (true, [0x61], some .noError, some true)) ∧
      ∃ a, exec .rle1Accept (taking [0x61] (small 0)) = .next a ∧
        (a.blkFull, faults (exec .blkSerialize (unfilled a))) = (true, true)) := by
  refine ⟨⟨settled_withDin _ settled_opened, bounded_withDin _ bounded_opened, ⟨.inr rfl, rfl⟩,
    by decide⟩, ⟨rfl, view_some ?_⟩, ⟨?_, ?_, ?_, ?_⟩, rfl, rfl, view_some ?_, view_some ?_,
    view_some ?_, view_some ?_, view_some ?_, view_some ?_, view_some ?_⟩ <;> decide +kernel

/-- A WRITE that succeeds, one whose header fails, and one before CONFIG. -/
theorem witness_WriteResultCount :
    ((withDin [0x61] unopened).streamOpen ∧
      ∃ t, exec (.write 1) (withDin [0x61] unopened) = .next t ∧ t.err = .noError) ∧
    ((withDin [0x61] (failing 3 unopened)).streamOpen ∧
      ∃ t, exec (.write 1) (withDin [0x61] (failing 3 unopened)) = .next t ∧ t.err = .sinkIOError) ∧
    ∃ t, exec (.write 1) (withDin [0x61] State.reset) = .next t ∧ t.sstate = .unconfigured :=
  ⟨⟨⟨.inl rfl, rfl⟩, view_some (by decide +kernel)⟩, ⟨⟨.inl rfl, rfl⟩, view_some (by decide +kernel)⟩,
    view_some (by decide +kernel)⟩

theorem witness_WritePartitionKeepsOpenBlock :
    (withDin [0x61, 0x61, 0x61] unopened).streamOpen ∧
    (withDin [0x61, 0x61, 0x61] unopened).BlockBounded ∧
    (3 : BitVec 24).toNat = (2 : BitVec 24).toNat + (1 : BitVec 24).toNat ∧
    (3 : BitVec 24).toNat ≤ (withDin [0x61, 0x61, 0x61] unopened).dinIn.length ∧
    (withDin [0x61, 0x61, 0x61] unopened).eff + 2 * (3 : BitVec 24).toNat <
      (withDin [0x61, 0x61, 0x61] unopened).cap.toNat ∧
    (withDin [0x61, 0x61, 0x61] unopened).sinkHealthy :=
  ⟨⟨.inl rfl, rfl⟩, bounded_withDin _ bounded_unopened, by decide, by decide, by decide,
    healthy_of_script rfl rfl⟩

/-- A step that sends bytes. -/
theorem witness_DeliveredBytesAreFinal :
    (∃ t, step (pend (.command 0x04000000) unopened) = .next t ∧ t.sinkBytes.length = 14) ∧
    ∀ l r es, (pend (.command 0x04000000) unopened).hostQueue ≠ .attachSink l r :: es :=
  ⟨view_some (by decide +kernel), by simp [pend]⟩

theorem witness_StepKeepsBufferSizes :
    State.reset.Sized ∧ ∃ t, step State.reset = .next t := ⟨sized_reset, State.reset, rfl⟩

theorem witness_StepKeepsBlockWithinCapacity :
    (withDin [0x61] opened).BlockBounded ∧
    ∃ t, step (pend (.uop [0x16]) opened) = .next t :=
  ⟨bounded_withDin _ bounded_opened, by
    obtain ⟨t, h, -⟩ := view_some (f := State.err) (o := step (pend (.uop [0x16]) opened))
      (a := .noError) (by decide +kernel)
    exact ⟨t, h⟩⟩

theorem witness_StepKeepsSettled :
    (pend (.command 0x03000000) opened).Settled ∧
    ∃ t, step (pend (.command 0x03000000) opened) = .next t ∧ t.err = .noError :=
  ⟨⟨by simp [State.HostOnly, pend], rfl, rfl, rfl, by decide, by decide⟩,
    view_some (by decide +kernel)⟩

end Sys2Proof.Machine.Tests
end

section
/-! PROOFS. The frames of the writer operations and of a block's serialisation: what each leaves
unchanged (48_block_serializer.md R270, 49_stream_commands.md R302, R308). -/

namespace Sys2Proof.Machine

variable {s t u : State}

/-! ### The relations -/

theorem SameButBlock.trans (h : SameButBlock s t) (h' : SameButBlock t u) : SameButBlock s u := by
  unfold SameButBlock at *
  conv_lhs => rw [h', h]

/-- PHASE may be set alike on both sides. -/
theorem SameButBlock.setPhase (h : SameButBlock s t) (p : Phase) :
    SameButBlock (s.setPhase p) (t.setPhase p) :=
  congrArg (State.setPhase · p) h

theorem SameButWriter.sameButBlock (h : SameButWriter s t) : SameButBlock s t := by
  obtain ⟨w, hw, rfl⟩ : ∃ w : Writer, w.rest = s.sinkRest ∧ t = s.setWriter w :=
    ⟨{ t.writer with rest := s.sinkRest }, rfl, h⟩
  simp [SameButBlock, State.setWriter, hw]

/-- The registers outside the block and the bit writer that State.Settled speaks of, SSTATE and PHASE
excepted. -/
def State.control (s : State) : List HostEvent × BitVec 4 × BitVec 20 × Bool × List Byte :=
  (s.hostQueue, s.level, s.cap, s.blkFull, s.writeIn)

theorem SameButBlock.control (h : SameButBlock s t) : t.control = s.control := by
  unfold SameButBlock at h; rw [h]; rfl

theorem SameButBlock.sstate (h : SameButBlock s t) : t.sstate = s.sstate := by
  unfold SameButBlock at h; rw [h]

theorem SameButWriter.block (h : SameButWriter s t) : t.block = s.block := by
  unfold SameButWriter at h; rw [h]; rfl

/-- A frame with PHASE set aside: what the steps of a serialisation, which set PHASE, have in common. -/
def SameButBlockAndPhase (s t : State) : Prop := SameButBlock (s.setPhase .idle) (t.setPhase .idle)

theorem SameButBlockAndPhase.trans (h : SameButBlockAndPhase s t) (h' : SameButBlockAndPhase t u) :
    SameButBlockAndPhase s u :=
  SameButBlock.trans h h'

/-- Setting PHASE back turns it into the frame itself. -/
theorem SameButBlockAndPhase.sameButBlock (h : SameButBlockAndPhase s t) :
    SameButBlock s (t.setPhase s.phase) :=
  SameButBlock.setPhase h s.phase

/-- A step of a serialisation has the frame of its uop, PHASE set aside. -/
theorem atStep_sameButBlock {p : SerStep} {uop : State → Result}
    (frame : ∀ {s t : State}, uop s = .next t → SameButBlock s t) (h : atStep p uop s = .next t) :
    SameButBlockAndPhase s t :=
  (frame h).setPhase .idle

/-! ### The writer -/

theorem State.writeFields_sameButWriter (s : State) (fs : List Field) :
    SameButWriter s (s.writeFields fs) := by
  have h := Writer.writeFields_rest s.writer fs
  exact sameButWriter_setWriter s _ h

/-- STREAM_FOOTER writes the bit writer only. -/
theorem State.streamFooter_sameButWriter (s : State) : SameButWriter s s.streamFooter := by
  unfold State.streamFooter
  generalize streamFooterFields s.scrc = fs
  have h := (Writer.pad_rest (s.writer.writeFields fs)).trans (Writer.writeFields_rest s.writer fs)
  exact sameButWriter_setWriter s _ h

/-- STREAM_HEADER moves SSTATE on exactly when no error is raised. -/
theorem State.streamHeader_sstate (s : State) :
    s.streamHeader.sstate = if s.streamHeader.err = .noError then .headerWritten else s.sstate := by
  unfold State.streamHeader
  generalize streamHeaderFields s.level = fs
  by_cases he : (s.writeFields fs).err = .noError
  · simp [he]
  · simp only [he, if_false]
    rfl

/-- STREAM_HEADER writes the bit writer and SSTATE only. -/
theorem State.streamHeader_sameButWriter (s : State) :
    SameButWriter { s with sstate := s.streamHeader.sstate } s.streamHeader := by
  unfold State.streamHeader
  generalize streamHeaderFields s.level = fs
  have h := s.writeFields_sameButWriter fs
  by_cases he : (s.writeFields fs).err = .noError
  · simp only [if_pos he]
    exact congrArg (fun t : State => { t with sstate := .headerWritten }) h
  · simp only [if_neg he]
    exact h

/-! ### The units of a block -/

theorem execRle1Finish_sameButBlock (h : execRle1Finish s = .next t) : SameButBlock s t := by
  unfold execRle1Finish at h
  split at h
  · rename_i b hb
    obtain ⟨-, rfl⟩ := Block.commit_eq_some.mp hb
    cases h
    rfl
  · exact absurd h (faultInvariant_ne_next _ _ _)

theorem execBwtSort_sameButBlock (h : execBwtSort s = .next t) : SameButBlock s t := by
  unfold execBwtSort at h
  split at h
  · exact absurd h (faultInvariant_ne_next _ _ _)
  · split at h
    · exact absurd h (faultInvariant_ne_next _ _ _)
    · cases h; rfl

theorem execSymAnalyze_sameButBlock (h : execSymAnalyze s = .next t) : SameButBlock s t := by
  cases h; rfl

theorem execMtfRun_sameButBlock (h : execMtfRun s = .next t) : SameButBlock s t := by
  unfold execMtfRun at h
  split at h
  · exact absurd h (faultInvariant_ne_next _ _ _)
  · split at h
    · cases h; rfl
    · exact absurd h (faultInvariant_ne_next _ _ _)

theorem execRle2Run_sameButBlock (h : execRle2Run s = .next t) : SameButBlock s t := by
  unfold execRle2Run at h
  dsimp only at h
  split at h
  · exact absurd h (faultInvariant_ne_next _ _ _)
  · cases h; rfl

theorem execHuffBuild_sameButBlock (h : execHuffBuild s = .next t) : SameButBlock s t := by
  unfold execHuffBuild at h
  dsimp only at h
  split at h
  · exact absurd h (faultInvariant_ne_next _ _ _)
  · split at h
    · exact absurd h (faultInvariant_ne_next _ _ _)
    · split at h <;> cases h
      rfl

theorem execHuffCodes_sameButBlock (h : execHuffCodes s = .next t) : SameButBlock s t := by
  unfold execHuffCodes at h
  split at h
  · exact absurd h (faultInvariant_ne_next _ _ _)
  · cases h; rfl

theorem execSelMtf_sameButBlock (h : execSelMtf s = .next t) : SameButBlock s t := by
  unfold execSelMtf at h
  split at h
  · exact absurd h (faultInvariant_ne_next _ _ _)
  · split at h
    · cases h; rfl
    · exact absurd h (faultInvariant_ne_next _ _ _)

/-- The transform phase, by its eight units (R270). -/
theorem blkTransform_sameButBlock (h : blkTransform s = .next t) : SameButBlockAndPhase s t := by
  obtain ⟨s1, s2, s3, s4, s5, s6, s7, h1, h2, h3, h4, h5, h6, h7, h8⟩ := blkTransform_next h
  exact (atStep_sameButBlock execRle1Finish_sameButBlock h1).trans <|
    (atStep_sameButBlock execBwtSort_sameButBlock h2).trans <|
    (atStep_sameButBlock execSymAnalyze_sameButBlock h3).trans <|
    (atStep_sameButBlock execMtfRun_sameButBlock h4).trans <|
    (atStep_sameButBlock execRle2Run_sameButBlock h5).trans <|
    (atStep_sameButBlock execHuffBuild_sameButBlock h6).trans <|
    (atStep_sameButBlock execHuffCodes_sameButBlock h7).trans <|
    atStep_sameButBlock execSelMtf_sameButBlock h8

/-- BLK_SERIALIZE writes what R270 lists and no more, whether the sink failed or not. -/
theorem execBlkSerialize_sameButBlock (h : execBlkSerialize s = .next t) : SameButBlock s t := by
  obtain ⟨-, u, fs, hu, -, v, rfl, hv⟩ := execBlkSerialize_next h
  have hsent : SameButBlockAndPhase s ((u.setPhase (.serialize .emit)).writeFields fs) :=
    (blkTransform_sameButBlock hu).trans
      ((State.writeFields_sameButWriter _ fs).sameButBlock.setPhase .idle)
  rcases hv with ⟨-, rfl⟩ | ⟨-, rfl⟩
  · have hdone : ∀ v : State, SameButBlockAndPhase v (blkComplete (v.setPhase (.serialize .complete))) :=
      fun _ => rfl
    exact (hsent.trans (hdone _)).sameButBlock
  · exact hsent.sameButBlock

end Sys2Proof.Machine
end

section
/-! PROOFS. What State.Settled says of a state inside a command, that every part of a command keeps it,
and that the end of a command makes it State.Settled again. -/

namespace Sys2Proof.Machine

variable {s t : State}

/-- A configured CORE has a level 1..9 and its capacity (10_state.md R24, R25). -/
def State.LevelSet (s : State) : Prop :=
  1 ≤ s.level.toNat ∧ s.level.toNat ≤ 9 ∧ s.cap.toNat = s.level.toNat * 100000

/-- What stays true inside a command: State.Settled without PHASE and the input of a WRITE. -/
structure State.InCommand (s : State) : Prop where
  host : s.HostOnly
  blkFull : s.blkFull = false
  level : s.sstate ≠ .unconfigured → s.LevelSet
  fresh : s.sstate = .unopened → s.blkBuf = [] ∧ s.runLen = 0 ∧ (s.err = .noError → s.bwCnt = 0)

theorem State.Settled.inCommand (h : s.Settled) : s.InCommand := ⟨h.host, h.blkFull, h.level, h.fresh⟩

/-! ### The end of a command -/

/-- Completion makes the state settled when no input is over (R300). -/
theorem State.InCommand.answer (h : s.InCommand) (hw : s.writeIn = []) (e : ErrCode) (c : BitVec 24) :
    (s.answer e c).Settled :=
  ⟨h.host, rfl, h.blkFull, hw, h.level, h.fresh⟩

/-- The entry of an error never clears ERR (R351). -/
theorem State.err_of_raise {e : ErrCode} (h : (s.raise e).err = .noError) : s.err = .noError := by
  cases e <;> simp_all [State.raise, ErrCode.sticky]

theorem State.InCommand.raise (h : s.InCommand) (e : ErrCode) : (s.raise e).InCommand where
  host := h.host
  blkFull := h.blkFull
  level := h.level
  fresh hs :=
    have ⟨hb, hr, hc⟩ := h.fresh hs
    ⟨hb, hr, fun he => hc (State.err_of_raise he)⟩

/-- A command that ends at a check. -/
theorem State.Settled.failWith (h : s.Settled) (e : ErrCode) (c : BitVec 24) :
    (s.failWith e c).Settled :=
  (h.inCommand.raise e).answer h.writeIn e c

/-- A WRITE that ends at an error discards its input (R305). -/
theorem State.InCommand.failWrite (h : s.InCommand) (n : BitVec 24) (e : ErrCode) :
    (s.failWrite n e).Settled :=
  have hr := h.raise e
  ⟨hr.host, rfl, hr.blkFull, rfl, hr.level, hr.fresh⟩

/-- A WRITE ends settled when it took all its input or an error ended it. -/
theorem State.InCommand.finishWrite (h : s.InCommand) (hw : s.err = .noError → s.writeIn = [])
    (n : BitVec 24) : (finishWrite n s).Settled := by
  unfold Machine.finishWrite
  split
  · next he => exact h.answer (hw he) _ _
  · exact h.failWrite n _

/-! ### A fresh stream -/

/-- The common part of CONFIG and RESET, at a level 1..9 (R301, R309). -/
theorem State.inCommand_restart (hh : s.HostOnly) (hl : s.LevelSet) : s.restart.InCommand :=
  ⟨hh, rfl, fun _ => hl, fun _ => ⟨rfl, rfl, fun _ => rfl⟩⟩

/-- The level a CONFIG selects is 1..9 (R82). -/
theorem levelOf_bounds {lv level : BitVec 4} (h : levelOf lv = some level) :
    1 ≤ level.toNat ∧ level.toNat ≤ 9 := by
  unfold levelOf at h
  split at h
  · cases h; decide
  · next h0 =>
    split at h
    · next h9 =>
      cases h
      have hne : lv.toNat ≠ 0 := fun hz => h0 (BitVec.eq_of_toNat_eq hz)
      exact ⟨Nat.one_le_iff_ne_zero.mpr hne, h9⟩
    · cases h

/-- The capacity of a level 1..9 fits CAP (R25). -/
theorem capOf_toNat {level : BitVec 4} (h : level.toNat ≤ 9) :
    (capOf level).toNat = level.toNat * 100000 := by
  have hfit : level.toNat * 100000 < 2 ^ 20 := by omega
  rw [capOf, BitVec.toNat_ofNat, Config.levelUnit, Nat.mod_eq_of_lt hfit]

theorem State.Settled.execConfig (h : s.Settled) {lv : BitVec 4} (he : execConfig lv s = .next t) :
    t.Settled := by
  unfold Machine.execConfig at he
  split at he
  · next level hlevel =>
    obtain ⟨hlow, hhigh⟩ := levelOf_bounds hlevel
    cases he
    have hfresh : (State.restart { s with level := level, cap := capOf level }).InCommand :=
      State.inCommand_restart h.host ⟨hlow, hhigh, capOf_toNat hhigh⟩
    exact hfresh.answer h.writeIn _ _
  · cases he
    exact h.failWith _ _

theorem State.Settled.execReset (h : s.Settled) (he : execReset s = .next t) : t.Settled := by
  unfold Machine.execReset at he
  split at he
  · cases he
    exact h.failWith _ _
  all_goals
    next hs =>
      cases he
      exact (State.inCommand_restart h.host (h.level (by simp [hs]))).answer h.writeIn _ _

/-! ### The header -/

/-- A part of a command of a configured CORE that leaves the host's queue, LEVEL, CAP and BLK_FULL alone
keeps what is true inside a command, if it leaves an Unopened stream fresh. -/
theorem State.InCommand.of_control (h : s.InCommand) (hc : t.control = s.control)
    (hs : s.sstate ≠ .unconfigured)
    (fresh : t.sstate = .unopened →
      t.blkBuf = [] ∧ t.runLen = 0 ∧ (t.err = .noError → t.bwCnt = 0)) : t.InCommand := by
  simp only [State.control, Prod.mk.injEq] at hc
  obtain ⟨hq, hl, hcap, hf, -⟩ := hc
  refine ⟨?_, hf.trans h.blkFull, fun _ => ?_, fresh⟩
  · rw [State.HostOnly, hq]; exact h.host
  · rw [State.LevelSet, hl, hcap]; exact h.level hs

theorem State.control_writeIn (h : t.control = s.control) : t.writeIn = s.writeIn := by
  simp only [State.control, Prod.mk.injEq] at h
  obtain ⟨-, -, -, -, hw⟩ := h
  exact hw

theorem State.streamOpen_configured (h : s.streamOpen) : s.sstate ≠ .unconfigured := by
  rcases h.1 with hs | hs <;> simp [hs]

/-- The header leaves the open block and the control registers alone (R302). -/
theorem State.openStream_frame (s : State) :
    s.openStream.control = s.control ∧ s.openStream.block = s.block := by
  unfold State.openStream
  split
  case h_2 =>
    have h := (s.setPhase .header).streamHeader_sameButWriter
    generalize (s.setPhase .header).streamHeader = u at h
    exact ⟨h.sameButBlock.control, h.block⟩
  all_goals exact ⟨rfl, rfl⟩

/-- An open stream has its header after `openStream`, unless it is Unopened still with ERR set (R302). -/
theorem State.openStream_sstate (h : s.streamOpen) :
    s.openStream.sstate = .headerWritten ∨
    (s.sstate = .unopened ∧ s.openStream.err ≠ .noError) := by
  obtain ⟨hs | hs, -⟩ := h
  · have hh := (s.setPhase .header).streamHeader_sstate
    simp only [State.openStream, hs]
    split at hh
    · exact .inl hh
    · next he => exact .inr ⟨trivial, he⟩
  · exact .inl (by simp [State.openStream, hs])

/-- The header keeps what is true inside a command; when it fails, the stream stays fresh. -/
theorem State.InCommand.openStream (h : s.InCommand) (ho : s.streamOpen) : s.openStream.InCommand := by
  obtain ⟨hc, hblock⟩ := s.openStream_frame
  refine h.of_control hc (State.streamOpen_configured ho) fun hu => ?_
  rcases State.openStream_sstate ho with hs | ⟨hs, he⟩
  · simp [hs] at hu
  · obtain ⟨hb, hr, -⟩ := h.fresh hs
    exact ⟨(congrArg Block.buf hblock).trans hb, (congrArg Block.runLen hblock).trans hr,
      fun h0 => absurd h0 he⟩

/-! ### The open block -/

/-- BLK_SERIALIZE keeps what is true inside a command of a configured CORE: its block is not empty, so
the stream has its header. -/
theorem State.InCommand.execBlkSerialize (h : s.InCommand) (hs : s.sstate ≠ .unconfigured)
    (he : execBlkSerialize s = .next t) : t.InCommand := by
  have hframe := execBlkSerialize_sameButBlock he
  refine h.of_control hframe.control hs fun hu => ?_
  obtain ⟨hb, hr, -⟩ := h.fresh (hframe.sstate ▸ hu)
  have hne := (execBlkSerialize_next he).1
  simp [State.blockEmpty, hb, hr] at hne

/-- The serialisation of the open block, if it has any byte (R306, R307). -/
theorem State.InCommand.serializeOpen (h : s.InCommand) (hs : s.sstate ≠ .unconfigured)
    (he : serializeOpen s = .next t) :
    t.InCommand ∧ t.sstate = s.sstate ∧ t.writeIn = s.writeIn := by
  unfold Machine.serializeOpen at he
  split at he
  · cases he
    exact ⟨h, rfl, rfl⟩
  · have hframe := execBlkSerialize_sameButBlock he
    exact ⟨h.execBlkSerialize hs he, hframe.sstate, State.control_writeIn hframe.control⟩

/-! ### The block cycle of WRITE -/

/-- RLE1_ACCEPT writes the open block, BLK_FULL, the input and the value it returns (R174). -/
theorem execRle1Accept_eq_next (h : execRle1Accept s = .next t) :
    ∃ (b : Block) (full : Bool) (rest : List Byte) (ret : Word),
      t = { s.setBlock b with blkFull := full, writeIn := rest, uopRet := ret } := by
  unfold execRle1Accept at h
  split at h
  · cases h
    exact ⟨_, _, _, _, rfl⟩
  · exact absurd h (faultInvariant_ne_next _ _ _)

/-- RLE1_ACCEPT in a stream with its header: all but BLK_FULL is as inside a command. -/
theorem State.InCommand.execRle1Accept (h : s.InCommand) (hs : s.sstate = .headerWritten)
    (he : execRle1Accept s = .next t) :
    { t with blkFull := false }.InCommand ∧ t.sstate = .headerWritten := by
  obtain ⟨b, full, rest, ret, rfl⟩ := execRle1Accept_eq_next he
  exact ⟨⟨h.host, rfl, h.level, fun hu => by simp [hs] at hu⟩, hs⟩

/-- The block cycle ends with BLK_FULL 0, and with no input over unless an error ended it (R303). -/
theorem State.InCommand.blockCycle {fuel : Nat} (h : s.InCommand) (hs : s.sstate = .headerWritten)
    (he : blockCycle fuel s = .next t) : t.InCommand ∧ (t.err = .noError → t.writeIn = []) := by
  induction fuel generalizing s with
  | zero => exact absurd he (faultInvariant_ne_next _ _ _)
  | succ fuel ih =>
    obtain ⟨u, hu, v, hv, hend⟩ := blockCycle_next he
    have haccept : (s.setPhase .accept).InCommand := ⟨h.host, h.blkFull, h.level, h.fresh⟩
    obtain ⟨hu', hus⟩ := haccept.execRle1Accept hs hu
    have hpass : v.InCommand ∧ v.sstate = .headerWritten := by
      rcases hv with ⟨-, hser⟩ | ⟨hfull, rfl⟩
      · exact ⟨hu'.execBlkSerialize (by simp [hus]) hser,
          (execBlkSerialize_sameButBlock hser).sstate.trans hus⟩
      · exact ⟨⟨hu'.host, hfull, hu'.level, hu'.fresh⟩, hus⟩
    obtain ⟨hv', hvs⟩ := hpass
    rcases hend with ⟨herr, rfl⟩ | ⟨-, hw, rfl⟩ | ⟨-, -, hrest⟩
    · exact ⟨hv', fun h0 => absurd h0 herr⟩
    · exact ⟨hv', fun _ => hw⟩
    · exact ih hv' hvs hrest

/-! ### The commands -/

theorem State.InCommand.writeBody (h : s.InCommand) (ho : s.streamOpen)
    (he : writeBody s = .next t) : t.InCommand ∧ (t.err = .noError → t.writeIn = []) := by
  have hopen := h.openStream ho
  unfold Machine.writeBody at he
  dsimp only at he
  split at he
  · next herr =>
    cases he
    exact ⟨hopen, fun h0 => absurd h0 herr⟩
  · next herr =>
    rcases State.openStream_sstate ho with hs | ⟨-, hne⟩
    · exact hopen.blockCycle hs he
    · exact absurd hne herr

/-- The footer, and SSTATE Closed after it, keep what is true inside a command (R307, R308). -/
theorem State.InCommand.footer (h : s.InCommand) (hs : s.sstate = .headerWritten)
    (ht : (if s.streamFooter.err = .noError then { s.streamFooter with sstate := .closed }
      else s.streamFooter) = t) : t.InCommand ∧ t.writeIn = s.writeIn := by
  have hframe := s.streamFooter_sameButWriter.sameButBlock
  generalize s.streamFooter = u at hframe ht
  have hus : u.sstate = .headerWritten := hframe.sstate.trans hs
  have hw : u.writeIn = s.writeIn := State.control_writeIn hframe.control
  have hu : u.InCommand := h.of_control hframe.control (by simp [hs]) (by simp [hus])
  subst ht
  split
  · exact ⟨hu.of_control rfl (by simp [hus]) (by simp), hw⟩
  · exact ⟨hu, hw⟩

theorem State.InCommand.closeBody (h : s.InCommand) (ho : s.streamOpen)
    (he : closeBody s = .next t) : t.InCommand ∧ t.writeIn = s.writeIn := by
  have hopen := h.openStream ho
  have hw := State.control_writeIn s.openStream_frame.1
  unfold Machine.closeBody at he
  dsimp only at he
  split at he
  · cases he
    exact ⟨hopen, hw⟩
  · next herr =>
    have hs : s.openStream.sstate = .headerWritten := by
      rcases State.openStream_sstate ho with hs | ⟨-, hne⟩
      · exact hs
      · exact absurd hne herr
    obtain ⟨u, hu, he⟩ := andThen_eq_next.mp he
    obtain ⟨hser, hus, huw⟩ := hopen.serializeOpen (by simp [hs]) hu
    split at he
    · cases he
      exact ⟨hser, huw.trans hw⟩
    · have hphase : (u.setPhase .footer).InCommand :=
        ⟨hser.host, hser.blkFull, hser.level, hser.fresh⟩
      obtain ⟨hfoot, hfw⟩ := hphase.footer (hus.trans hs) (Host.Outcome.next.inj he)
      exact ⟨hfoot, hfw.trans (huw.trans hw)⟩

theorem State.Settled.execWrite (h : s.Settled) {n : BitVec 24} (he : execWrite n s = .next t) :
    t.Settled := by
  obtain ⟨-, ⟨e, -, rfl⟩ | ⟨hcheck, u, hu, rfl⟩⟩ := execWrite_next he
  · have hdiscard : (s.discardDin n).InCommand := ⟨h.host, h.blkFull, h.level, h.fresh⟩
    exact hdiscard.failWrite n e
  · have htake : (s.takeDin n).InCommand := ⟨h.host, h.blkFull, h.level, h.fresh⟩
    obtain ⟨hbody, hw⟩ := htake.writeBody (State.check_eq_none.mp hcheck) hu
    exact hbody.finishWrite hw n

theorem State.Settled.execFlush (h : s.Settled) (he : execFlush s = .next t) : t.Settled := by
  obtain ⟨e, -, rfl⟩ | ⟨hcheck, u, hu, rfl⟩ := execFlush_next he
  · exact h.failWith e 0
  · obtain ⟨hbody, -, hw⟩ :=
      h.inCommand.serializeOpen (State.streamOpen_configured (State.check_eq_none.mp hcheck)) hu
    exact hbody.answer (hw.trans h.writeIn) _ _

theorem State.Settled.execClose (h : s.Settled) (he : execClose s = .next t) : t.Settled := by
  obtain ⟨e, -, rfl⟩ | ⟨hcheck, u, hu, rfl⟩ := execClose_next he
  · exact h.failWith e 0
  · obtain ⟨hbody, hw⟩ := h.inCommand.closeBody (State.check_eq_none.mp hcheck) hu
    exact hbody.answer (hw.trans h.writeIn) _ _

/-- A command word decodes to one of the five commands (R81). -/
theorem decodeCommand_isCommand {w : Word} {i : Instr} (h : decodeCommand w = .ok i) :
    i.isCommand = true := by
  unfold decodeCommand at h
  dsimp only at h
  repeat' split at h
  all_goals cases h <;> rfl

/-- Every command ends in a settled state. -/
theorem State.Settled.exec (h : s.Settled) {i : Instr} (hi : i.isCommand = true)
    (he : exec i s = .next t) : t.Settled := by
  cases i <;> cases hi
  case config.refl => exact h.execConfig he
  case write.refl => exact h.execWrite he
  case flush.refl => exact h.execFlush he
  case close.refl => exact h.execClose he
  case reset.refl => exact h.execReset he

/-- Taking the host's next action off the queue keeps a state settled. -/
theorem State.Settled.fetched (h : s.Settled) {e : HostEvent} {es : List HostEvent}
    (hq : s.hostQueue = e :: es) : { s with hostQueue := es }.Settled := by
  refine ⟨fun x hx => ?_, h.phase, h.blkFull, h.writeIn, h.level, h.fresh⟩
  exact h.host x (by rw [hq]; exact List.mem_cons_of_mem e hx)

/-- Writing CMD keeps a state settled. -/
theorem State.Settled.withCmd (h : s.Settled) (w : Word) : { s with cmd := w }.Settled :=
  ⟨h.host, h.phase, h.blkFull, h.writeIn, h.level, h.fresh⟩

/-- The attached sink is no part of what makes a state settled. -/
theorem State.Settled.attachSink (h : s.Settled) (l : List SinkAnswer) (r : SinkAnswer) :
    (attachSink l r s).Settled :=
  ⟨h.host, h.phase, h.blkFull, h.writeIn, h.level, h.fresh⟩

/-- Settles O60, by the host's next action: a command keeps what is true inside a command part by part
and makes the state settled at its end; a host that keeps its contract queues no uop transfer. -/
theorem stepKeepsSettled : Obligations.StepKeepsSettled := by
  intro s t h he
  obtain ⟨-, hstep⟩ | ⟨w, es, hq, -, hcmd⟩ | ⟨l, r, es, hq, -, hstep⟩ | ⟨b, es, hq, -⟩ |
    ⟨-, hstep⟩ := step_cases s
  · cases hstep.symm.trans he
    exact h
  · have hs := (h.fetched hq).withCmd w
    obtain ⟨i, hd, hstep⟩ | ⟨e, -, hstep⟩ := hcmd
    · exact hs.exec (decodeCommand_isCommand hd) (hstep.symm.trans he)
    · cases hstep.symm.trans he
      exact hs.failWith _ _
  · cases hstep.symm.trans he
    exact (h.fetched hq).attachSink l r
  · exact (h.host (.uop b) (by simp [hq])).elim
  · cases hstep.symm.trans he

/-- Settles O57: power-on has no live entry in a buffer, is Unconfigured and Idle, and has no action of
the host pending. -/
theorem powerOnStateMeetsInvariants : Obligations.PowerOnStateMeetsInvariants :=
  ⟨by constructor <;> decide, ⟨by decide, by decide, by decide, by decide⟩,
    ⟨by simp [State.HostOnly, State.reset], rfl, rfl, rfl, by decide, by decide⟩⟩

end Sys2Proof.Machine
end

section
/-! PROOFS. The fields of the host-visible words (10_state.md R43, 30_encoding.md R86). -/

namespace Sys2Proof.Machine

variable (s : State)

/-- The LEVEL field reads 0 while Unconfigured (R43). -/
theorem State.statusLevel_eq :
    s.statusLevel = if s.sstate = .unconfigured then 0 else s.level := by
  unfold State.statusLevel
  cases s.sstate <;> rfl

/-- The open block is empty when it has no committed byte and no open unit (43_rle1_block.md R183). -/
theorem State.blockEmpty_eq_false_iff : s.blockEmpty = false ↔ s.blkBuf ≠ [] ∨ s.runLen ≠ 0 := by
  simp only [State.blockEmpty, Bool.and_eq_false_iff, List.isEmpty_eq_false_iff, beq_eq_false_iff_ne]

/-- STATUS is made by appending its fields, so each is read at the total width of those on its right. -/
theorem statusWord_fields :
    s.statusWord.extractLsb' 0 2 = s.sstate.code ∧
    s.statusWord.extractLsb' 2 4 = s.err.code ∧
    s.statusWord.extractLsb' 6 3 = s.bwCnt ∧
    s.statusWord.extractLsb' 9 4 = s.statusLevel ∧
    s.statusWord.extractLsb' 13 1 = BitVec.ofBool (!s.blockEmpty) ∧
    s.statusWord.extractLsb' 14 18 = 0 := by
  unfold State.statusWord
  simp (disch := omega) only [BitVec.extractLsb'_append_eq_of_add_le,
    BitVec.extractLsb'_append_eq_of_le]
  simp

theorem resultWord_fields (e : ErrCode) (c : BitVec 24) :
    (resultWord e c).extractLsb' 28 4 = e.code ∧ (resultWord e c).extractLsb' 24 4 = 0 ∧
    (resultWord e c).extractLsb' 0 24 = c := by
  unfold resultWord
  simp (disch := omega) only [BitVec.extractLsb'_append_eq_of_add_le,
    BitVec.extractLsb'_append_eq_of_le]
  simp

/-- Settles O16: the two words are their fields appended, and the LEVEL and BLK_NONEMPTY fields are what
R43 says of them. -/
theorem statusAndResultFields : Obligations.StatusAndResultFields := by
  refine ⟨fun s => ?_, resultWord_fields⟩
  obtain ⟨hsstate, herr, hcnt, hlevel, hblk, hzero⟩ := statusWord_fields s
  refine ⟨hsstate, herr, hcnt, hlevel.trans s.statusLevel_eq, ?_, hzero⟩
  rw [hblk, ← s.blockEmpty_eq_false_iff]
  cases s.blockEmpty <;> decide

end Sys2Proof.Machine
end

section
/-! PROOFS. The tables the units of a block make: their lengths and the bounds of their entries
(45_mtf.md R220, 46_rle2.md R230, 47_huffman.md R242 to R250). -/

namespace Sys2Proof.Machine

/-! ### Symbol set and move-to-front -/

/-- There are at most as many byte values in ALPHA as bits in PRESENT (R160). -/
theorem alphaOf_length_le (present : BitVec 256) : (alphaOf present).length ≤ 256 := by
  rw [alphaOf, List.length_map]
  exact (List.length_filter_le _ _).trans_eq List.length_range

/-- When every value has a rank, the ranks are places in the list, which keeps its entries. -/
theorem mtfGo_eq_some {α : Type} [DecidableEq α] {l xs l' : List α} {rs : List Nat}
    (h : mtfGo l xs = some (rs, l')) :
    rs.length = xs.length ∧ l'.Perm l ∧ ∀ r ∈ rs, r < l.length := by
  have hmem : ∀ x ∈ xs, x ∈ l := by
    by_contra! hn
    rw [mtfGo_eq_none l xs hn] at h
    cases h
  obtain ⟨rs', l'', h', hprops⟩ := mtfGo_isSome l xs hmem
  cases h.symm.trans h'
  exact hprops

/-! ### Frequencies -/

/-- Counting symbols into `f` adds to each entry how often its index occurs. -/
theorem foldl_modify_eq_mapIdx (syms f : List Nat) :
    syms.foldl (fun f y => f.modify y (· + 1)) f = f.mapIdx fun i n => n + syms.count i := by
  induction syms generalizing f with
  | nil => apply List.ext_getElem <;> simp
  | cons y ys ih =>
    rw [List.foldl_cons, ih]
    apply List.ext_getElem
    · simp
    · intro i _ _
      simp only [List.getElem_mapIdx, List.getElem_modify, List.count_cons, beq_iff_eq]
      split <;> omega

/-- FREQ is the list of the counts of the symbols (R234). -/
theorem freqOf_eq_map_count (a : Nat) (syms : List Nat) :
    freqOf a syms = (List.range a).map fun y => syms.count y := by
  rw [freqOf, foldl_modify_eq_mapIdx]
  apply List.ext_getElem <;> simp

/-! ### Code lengths and schedule -/

theorem mapM_eq_some_length {α β : Type} {f : α → Option β} {l : List α} {r : List β}
    (h : l.mapM f = some r) : r.length = l.length := by
  induction l generalizing r with
  | nil => cases h; rfl
  | cons x xs ih =>
    simp only [List.mapM_cons, Option.bind_eq_bind, Option.bind_eq_some_iff, Option.pure_def,
      Option.some.injEq] at h
    obtain ⟨b, -, bs, hbs, rfl⟩ := h
    simp [ih hbs]

/-- A code length per symbol (R247). -/
theorem huffLengths_length {tie freq lens : List Nat} (h : huffLengths tie freq = some lens) :
    lens.length = freq.length := by
  unfold huffLengths at h
  split at h
  · cases h
  · simpa using mapM_eq_some_length h

theorem le_maxLength {lens : List Nat} {l : Nat} (h : l ∈ lens) : l ≤ maxLength lens := by
  rw [maxLength, List.foldl_eq_foldr]
  exact List.le_max_of_le h le_rfl

/-- There are 2 to 6 trees (R242). -/
theorem ntreesOf_bounds (nsel : Nat) : 2 ≤ ntreesOf nsel ∧ ntreesOf nsel ≤ 6 := by
  unfold ntreesOf Config.minTrees Config.maxTrees
  split <;> omega

theorem scheduleOf_length (nsel ntrees : Nat) : (scheduleOf nsel ntrees).length = nsel := by
  rw [scheduleOf, List.length_map, List.length_range]

/-- The schedule names live trees only (R250). -/
theorem scheduleOf_lt {nsel ntrees g : Nat} (hpos : 0 < ntrees) (h : g ∈ scheduleOf nsel ntrees) :
    g < ntrees := by
  obtain ⟨i, -, rfl⟩ := List.mem_map.mp h
  exact Nat.mod_lt i hpos

/-! ### Codes -/

theorem assignLength_length (n : Nat) (ls cs : List Nat) (v : Nat) :
    (assignLength n ls cs v).1.length = cs.length := by
  induction ls generalizing cs v with
  | nil => cases cs <;> rfl
  | cons l ls ih =>
    cases cs with
    | nil => rfl
    | cons c cs =>
      unfold assignLength
      split <;> simp [ih]

theorem assignFrom_length (lens : List Nat) (k n : Nat) (codes : List Nat) (v : Nat) :
    (assignFrom lens k n codes v).length = codes.length := by
  induction k generalizing n codes v with
  | zero => rfl
  | succ k ih => exact (ih _ _ _).trans (assignLength_length n lens codes v)

/-- A code per symbol (R248). -/
theorem canonicalCodes_length (lens : List Nat) : (canonicalCodes lens).length = lens.length := by
  rw [canonicalCodes, assignFrom_length, List.length_replicate]

/-- The tables HUFF_CODES reads have at most an entry per symbol. -/
theorem length_le_of_mem_liveLengths {s : State} {lens : List Nat} (h : lens ∈ liveLengths s) :
    lens.length ≤ s.alphabetSize := by
  obtain ⟨t, -, rfl⟩ := List.mem_map.mp h
  exact List.length_take_le _ _

end Sys2Proof.Machine
end

section
/-! PROOFS. Every operation keeps every buffer within its size and every entry within its width
(20_memory.md R61, 30_encoding.md R100), and so does a step. -/

namespace Sys2Proof.Machine

variable {s t : State} {op f g : State → Result}

/-! ### What State.Sized speaks of -/

/-- The buffers of R61, which are all that State.Sized speaks of. -/
def State.buffers (s : State) :
    (List Byte × List Byte × List Byte × List Byte × List Byte) ×
      List Nat × List Nat × List (List Nat) × List (List (BitVec 20)) × List Nat × List Nat :=
  ((s.blkBuf, s.bwtOut, s.ranks, s.alpha, s.mtfList), s.sym, s.freq, s.len, s.code, s.sel, s.selRank)

theorem State.Sized.of_buffers (h : s.Sized) (hb : t.buffers = s.buffers) : t.Sized := by
  simp only [State.buffers, Prod.mk.injEq] at hb
  obtain ⟨⟨hblk, hbwt, hranks, halpha, hmtf⟩, hsym, hfreq, hlen, hcode, hsel, hrank⟩ := hb
  exact
    { blkBuf := hblk ▸ h.blkBuf, bwtOut := hbwt ▸ h.bwtOut, ranks := hranks ▸ h.ranks
      alpha := halpha ▸ h.alpha, mtfList := hmtf ▸ h.mtfList
      sym := hsym ▸ h.sym, symWidth := hsym ▸ h.symWidth
      freq := hfreq ▸ h.freq, freqWidth := hfreq ▸ h.freqWidth
      len := hlen ▸ h.len, lenEntries := hlen ▸ h.lenEntries, lenWidth := hlen ▸ h.lenWidth
      code := hcode ▸ h.code, codeEntries := hcode ▸ h.codeEntries
      sel := hsel ▸ h.sel, selWidth := hsel ▸ h.selWidth
      selRank := hrank ▸ h.selRank, selRankWidth := hrank ▸ h.selRankWidth }

/-- A block that BLK_BUF has entries for may be put in it. -/
theorem State.Sized.withBlkBuf (h : s.Sized) {l : List Byte} (hl : l.length ≤ 900000) :
    { s with blkBuf := l }.Sized :=
  { h with blkBuf := hl }

/-- The operation keeps the sizes whenever it answers a next state. -/
def KeepsSized (op : State → Result) : Prop := ∀ ⦃s t : State⦄, op s = .next t → s.Sized → t.Sized

theorem KeepsSized.of_buffers (h : ∀ s t, op s = .next t → t.buffers = s.buffers) : KeepsSized op :=
  fun s t he hs => hs.of_buffers (h s t he)

theorem KeepsSized.andThen (hf : KeepsSized f) (hg : KeepsSized g) :
    KeepsSized fun s => Machine.andThen (f s) g := by
  intro s t he hs
  obtain ⟨u, hu, ht⟩ := andThen_eq_next.mp he
  exact hg ht (hf hu hs)

theorem KeepsSized.atStep (h : KeepsSized op) (p : SerStep) : KeepsSized (Machine.atStep p op) :=
  fun _ _ he hs => h he (hs.of_buffers rfl)

/-! ### The open block -/

/-- An accepted byte has an entry of BLK_BUF (R174). -/
theorem Block.accept_taken_length {cap : Nat} {x : Byte} {b b' : Block}
    (hb : b.buf.length ≤ Config.capMax) (h : b.accept cap x = .taken b') :
    b'.buf.length ≤ Config.capMax := by
  rcases Block.accept_taken.mp h with ⟨-, -, rfl⟩ | ⟨-, -, -, hroom, rfl⟩ | ⟨-, -, hroom, rfl⟩
  · exact hb
  · simpa using hroom
  · rw [Block.eff_eq] at hroom
    simpa [Nat.add_assoc] using hroom

theorem execRle1Accept_keepsSized : KeepsSized execRle1Accept := by
  intro s t he hs
  unfold execRle1Accept at he
  split at he
  · next a ha =>
    cases he
    obtain ⟨taken, -, htaken, -⟩ := Block.acceptAll_eq_some ha
    have hbuf : a.block.buf.length ≤ Config.capMax :=
      htaken.keeps (fun _ _ _ => Block.accept_taken_length) hs.blkBuf
    exact (hs.withBlkBuf hbuf).of_buffers rfl
  · exact absurd he (faultInvariant_ne_next _ _ _)

theorem execRle1Finish_keepsSized : KeepsSized execRle1Finish := by
  intro s t he hs
  unfold execRle1Finish at he
  split at he
  · next b hb =>
    cases he
    obtain ⟨hroom, rfl⟩ := Block.commit_eq_some.mp hb
    rw [← List.length_append] at hroom
    exact (hs.withBlkBuf hroom).of_buffers rfl
  · exact absurd he (faultInvariant_ne_next _ _ _)

/-! ### The units of a block -/

theorem execBwtSort_keepsSized : KeepsSized execBwtSort := by
  intro s t he hs
  unfold execBwtSort at he
  split at he
  · exact absurd he (faultInvariant_ne_next _ _ _)
  · split at he
    · exact absurd he (faultInvariant_ne_next _ _ _)
    · cases he
      exact { hs with bwtOut := (bwtBytes_length _).trans_le hs.blkBuf }

theorem execSymAnalyze_keepsSized : KeepsSized execSymAnalyze := by
  intro s t he hs
  cases he
  exact { hs with alpha := alphaOf_length_le _ }

/-- A rank per byte, and the recency list keeps the entries of ALPHA (R220, R221). -/
theorem execMtfRun_keepsSized : KeepsSized execMtfRun := by
  intro s t he hs
  unfold execMtfRun at he
  split at he
  · exact absurd he (faultInvariant_ne_next _ _ _)
  · split at he
    · next rs l hgo =>
      cases he
      obtain ⟨hlen, hperm, -⟩ := mtfGo_eq_some hgo
      exact { hs with
        mtfList := hperm.length_eq.trans_le hs.alpha
        ranks := (List.length_map _).trans_le (hlen.trans_le hs.bwtOut) }
    · exact absurd he (faultInvariant_ne_next _ _ _)

/-- The guard bounds the symbols, and a frequency is at most their number (R234, R235). -/
theorem execRle2Run_keepsSized : KeepsSized execRle2Run := by
  intro s t he hs
  unfold execRle2Run at he
  dsimp only at he
  generalize rle2Symbols s.m s.ranks = syms at he
  split at he
  · exact absurd he (faultInvariant_ne_next _ _ _)
  · next hguard =>
    cases he
    simp only [not_or, not_lt, Bool.not_eq_true, List.any_eq_false, decide_eq_true_eq] at hguard
    obtain ⟨-, hlen, hle⟩ := hguard
    have halpha : s.m ≤ 256 := hs.alpha
    have hcount : syms.length ≤ 900001 := hlen
    refine { hs with
      sym := hcount, symWidth := fun y hy => ?_, freq := ?_, freqWidth := fun n hn => ?_ }
    · have := hle y hy
      omega
    · rw [freqOf_eq_map_count, List.length_map, List.length_range]
      exact Nat.add_le_add_right halpha 2
    · rw [freqOf_eq_map_count] at hn
      obtain ⟨y, -, rfl⟩ := List.mem_map.mp hn
      have : syms.count y ≤ syms.length := List.count_le_length
      omega

/-- Two to six equal tables of lengths up to 20, and a schedule of live trees (R240 to R250). -/
theorem execHuffBuild_keepsSized : KeepsSized execHuffBuild := by
  intro s t he hs
  unfold execHuffBuild at he
  dsimp only at he
  generalize nselOf s.symLen = nsel at he
  obtain ⟨htwo, hsix⟩ := ntreesOf_bounds nsel
  generalize ntreesOf nsel = ntrees at he htwo hsix
  split at he
  · exact absurd he (faultInvariant_ne_next _ _ _)
  · next hguard =>
    split at he
    · exact absurd he (faultInvariant_ne_next _ _ _)
    · next lens hlens =>
      split at he
      · cases he
      · next hmax =>
        cases he
        simp only [not_or, not_lt] at hguard
        obtain ⟨-, -, hnsel⟩ := hguard
        have hentries : lens.length ≤ 258 := by
          rw [huffLengths_length hlens]
          exact (List.length_take_le' _ _).trans hs.freq
        refine { hs with
          len := List.length_replicate.trans_le hsix
          lenEntries := fun t ht => List.eq_of_mem_replicate ht ▸ hentries
          lenWidth := fun t ht l hl => ?_
          sel := (scheduleOf_length nsel ntrees).trans_le hnsel
          selWidth := fun g hg => ?_ }
        · have hle := le_maxLength (List.eq_of_mem_replicate ht ▸ hl)
          have htop : maxLength lens ≤ 20 := not_lt.mp hmax
          omega
        · have := scheduleOf_lt (by omega) hg
          omega

/-- A code per symbol in each table of LEN that is live (R248). -/
theorem execHuffCodes_keepsSized : KeepsSized execHuffCodes := by
  intro s t he hs
  unfold execHuffCodes at he
  split at he
  · exact absurd he (faultInvariant_ne_next _ _ _)
  · cases he
    refine { hs with code := ?_, codeEntries := fun t ht => ?_ }
    · rw [List.length_map, liveLengths, List.length_map]
      exact (List.length_take_le' _ _).trans hs.len
    · obtain ⟨lens, hlens, rfl⟩ := List.mem_map.mp ht
      rw [List.length_map, canonicalCodes_length]
      exact (length_le_of_mem_liveLengths hlens).trans (Nat.add_le_add_right hs.alpha 2)

/-- A rank per selector, below NTREES, a number of three bits (R251). -/
theorem execSelMtf_keepsSized : KeepsSized execSelMtf := by
  intro s t he hs
  unfold execSelMtf at he
  split at he
  · exact absurd he (faultInvariant_ne_next _ _ _)
  · split at he
    · next rs l hgo =>
      cases he
      obtain ⟨hlen, -, hlt⟩ := mtfGo_eq_some hgo
      rw [List.length_range] at hlt
      exact { hs with
        selRank := hlen.trans_le ((List.length_take_le' _ _).trans hs.sel)
        selRankWidth := fun r hr => (hlt r hr).trans s.ntrees.isLt }
    · exact absurd he (faultInvariant_ne_next _ _ _)

/-- The transform phase, by its eight units (R270). -/
theorem blkTransform_keepsSized : KeepsSized blkTransform :=
  (execRle1Finish_keepsSized.atStep _).andThen <| (execBwtSort_keepsSized.atStep _).andThen <|
  (execSymAnalyze_keepsSized.atStep _).andThen <| (execMtfRun_keepsSized.atStep _).andThen <|
  (execRle2Run_keepsSized.atStep _).andThen <| (execHuffBuild_keepsSized.atStep _).andThen <|
  (execHuffCodes_keepsSized.atStep _).andThen <| execSelMtf_keepsSized.atStep _

/-- Emission writes no buffer, and completion empties BLK_BUF (R282). -/
theorem execBlkSerialize_keepsSized : KeepsSized execBlkSerialize := by
  intro s t he hs
  obtain ⟨-, u, fs, hu, -, v, rfl, hv⟩ := execBlkSerialize_next he
  have hsent : ((u.setPhase (.serialize .emit)).writeFields fs).Sized :=
    (blkTransform_keepsSized hu hs).of_buffers rfl
  rcases hv with ⟨-, rfl⟩ | ⟨-, rfl⟩
  · exact (hsent.withBlkBuf (Nat.zero_le _)).of_buffers rfl
  · exact hsent.of_buffers rfl

/-! ### The bit writer and the stream uops -/

theorem execBwWriteBits_keepsSized (n : BitVec 7) (v : BitVec 64) :
    KeepsSized (execBwWriteBits n v) := by
  refine .of_buffers fun s t he => ?_
  unfold execBwWriteBits at he
  split at he
  · exact absurd he (faultInvariant_ne_next _ _ _)
  · cases he
    rfl

theorem execBwPad_keepsSized : KeepsSized execBwPad :=
  .of_buffers fun s t he => by cases he; rfl

theorem execBwRawBytes_keepsSized (d : List Byte) : KeepsSized (execBwRawBytes d) := by
  refine .of_buffers fun s t he => ?_
  unfold execBwRawBytes at he
  split at he
  · cases he
    rfl
  · split at he
    · cases he
    · cases he
      rfl

theorem execCrcUpdate_keepsSized (crc : Word) (d : List Byte) : KeepsSized (execCrcUpdate crc d) :=
  .of_buffers fun s t he => by cases he; rfl

theorem execCrcCombine_keepsSized (a b : Word) : KeepsSized (execCrcCombine a b) :=
  .of_buffers fun s t he => by cases he; rfl

theorem SameButWriter.buffers (h : SameButWriter s t) : t.buffers = s.buffers := by
  unfold SameButWriter at h; rw [h]; rfl

theorem State.streamHeader_buffers (s : State) : s.streamHeader.buffers = s.buffers := by
  have h := s.streamHeader_sameButWriter.buffers
  generalize s.streamHeader = t at h ⊢
  exact h

theorem State.streamFooter_buffers (s : State) : s.streamFooter.buffers = s.buffers :=
  s.streamFooter_sameButWriter.buffers

theorem execStreamHeader_keepsSized : KeepsSized execStreamHeader :=
  .of_buffers fun s _ he => Host.Outcome.next.inj he ▸ s.streamHeader_buffers

theorem execStreamFooter_keepsSized : KeepsSized execStreamFooter :=
  .of_buffers fun s _ he => Host.Outcome.next.inj he ▸ s.streamFooter_buffers

/-! ### The parts of a command -/

theorem State.openStream_buffers (s : State) : s.openStream.buffers = s.buffers := by
  unfold State.openStream
  split
  case h_2 => exact (s.setPhase .header).streamHeader_buffers
  all_goals rfl

theorem serializeOpen_keepsSized : KeepsSized serializeOpen := by
  intro s t he hs
  unfold serializeOpen at he
  split at he
  · cases he
    exact hs
  · exact execBlkSerialize_keepsSized he hs

theorem blockCycle_keepsSized (fuel : Nat) : KeepsSized (blockCycle fuel) := by
  induction fuel with
  | zero => exact fun s t he _ => absurd he (faultInvariant_ne_next _ _ _)
  | succ fuel ih =>
    intro s t he hs
    obtain ⟨u, hu, v, hv, hend⟩ := blockCycle_next he
    have haccepted : u.Sized := execRle1Accept_keepsSized hu (hs.of_buffers rfl)
    have hpass : v.Sized := by
      rcases hv with ⟨-, hser⟩ | ⟨-, rfl⟩
      · exact execBlkSerialize_keepsSized hser (haccepted.of_buffers rfl)
      · exact haccepted
    rcases hend with ⟨-, rfl⟩ | ⟨-, -, rfl⟩ | ⟨-, -, hrest⟩
    · exact hpass
    · exact hpass
    · exact ih hrest hpass

theorem writeBody_keepsSized : KeepsSized writeBody := by
  intro s t he hs
  have hopen := hs.of_buffers s.openStream_buffers
  unfold writeBody at he
  dsimp only at he
  split at he
  · cases he
    exact hopen
  · exact blockCycle_keepsSized _ he hopen

theorem closeBody_keepsSized : KeepsSized closeBody := by
  intro s t he hs
  have hopen := hs.of_buffers s.openStream_buffers
  unfold closeBody at he
  dsimp only at he
  split at he
  · cases he
    exact hopen
  · obtain ⟨u, hu, he⟩ := andThen_eq_next.mp he
    have hser := serializeOpen_keepsSized hu hopen
    split at he
    · cases he
      exact hser
    · have hfoot : (u.setPhase .footer).streamFooter.Sized :=
        hser.of_buffers (State.streamFooter_buffers _)
      generalize (u.setPhase .footer).streamFooter = v at he hfoot
      cases he
      split
      · exact hfoot.of_buffers rfl
      · exact hfoot

/-! ### The host commands -/

/-- A fresh stream has an empty block (R301, R309). -/
theorem State.Sized.restart (h : s.Sized) : s.restart.Sized :=
  (h.withBlkBuf (Nat.zero_le _)).of_buffers rfl

theorem execConfig_keepsSized (lv : BitVec 4) : KeepsSized (execConfig lv) := by
  intro s t he hs
  unfold execConfig at he
  split at he
  · cases he
    exact hs.restart.of_buffers rfl
  · cases he
    exact hs.of_buffers rfl

theorem finishWrite_buffers (n : BitVec 24) (s : State) : (finishWrite n s).buffers = s.buffers := by
  unfold finishWrite
  split <;> rfl

theorem execWrite_keepsSized (n : BitVec 24) : KeepsSized (execWrite n) := by
  intro s t he hs
  obtain ⟨-, ⟨e, -, rfl⟩ | ⟨-, u, hu, rfl⟩⟩ := execWrite_next he
  · exact hs.of_buffers rfl
  · exact (writeBody_keepsSized hu (hs.of_buffers rfl)).of_buffers (finishWrite_buffers n u)

theorem execFlush_keepsSized : KeepsSized execFlush := by
  intro s t he hs
  obtain ⟨e, -, rfl⟩ | ⟨-, u, hu, rfl⟩ := execFlush_next he
  · exact hs.of_buffers rfl
  · exact (serializeOpen_keepsSized hu hs).of_buffers rfl

theorem execClose_keepsSized : KeepsSized execClose := by
  intro s t he hs
  obtain ⟨e, -, rfl⟩ | ⟨-, u, hu, rfl⟩ := execClose_next he
  · exact hs.of_buffers rfl
  · exact (closeBody_keepsSized hu hs).of_buffers rfl

theorem execReset_keepsSized : KeepsSized execReset := by
  intro s t he hs
  unfold execReset at he
  split at he <;> cases he
  case h_1 => exact hs.of_buffers rfl
  all_goals exact hs.restart.of_buffers rfl

/-! ### The step -/

theorem exec_keepsSized (i : Instr) : KeepsSized (exec i) := by
  cases i with
  | config lv => exact execConfig_keepsSized lv
  | write n => exact execWrite_keepsSized n
  | flush => exact execFlush_keepsSized
  | close => exact execClose_keepsSized
  | reset => exact execReset_keepsSized
  | bwWriteBits n v => exact execBwWriteBits_keepsSized n v
  | bwPad => exact execBwPad_keepsSized
  | bwRawBytes d => exact execBwRawBytes_keepsSized d
  | crcUpdate crc d => exact execCrcUpdate_keepsSized crc d
  | crcCombine a b => exact execCrcCombine_keepsSized a b
  | symAnalyze => exact execSymAnalyze_keepsSized
  | rle1Accept => exact execRle1Accept_keepsSized
  | rle1Finish => exact execRle1Finish_keepsSized
  | bwtSort => exact execBwtSort_keepsSized
  | mtfRun => exact execMtfRun_keepsSized
  | rle2Run => exact execRle2Run_keepsSized
  | huffBuild => exact execHuffBuild_keepsSized
  | huffCodes => exact execHuffCodes_keepsSized
  | selMtf => exact execSelMtf_keepsSized
  | blkSerialize => exact execBlkSerialize_keepsSized
  | streamHeader => exact execStreamHeader_keepsSized
  | streamFooter => exact execStreamFooter_keepsSized

/-- Settles O58, by the host's next action: taking it off the queue leaves the buffers alone, and every
instruction keeps their sizes. -/
theorem stepKeepsBufferSizes : Obligations.StepKeepsBufferSizes := by
  intro s t hs he
  obtain ⟨-, hstep⟩ | ⟨w, es, -, -, hcmd⟩ | ⟨l, r, es, -, -, hstep⟩ | ⟨bytes, es, -, huop⟩ |
    ⟨-, hstep⟩ := step_cases s
  · cases hstep.symm.trans he
    exact hs
  · obtain ⟨i, -, hstep⟩ | ⟨e, -, hstep⟩ := hcmd
    · exact exec_keepsSized i (hstep.symm.trans he) (hs.of_buffers rfl)
    · cases hstep.symm.trans he
      exact hs.of_buffers rfl
  · cases hstep.symm.trans he
    exact hs.of_buffers rfl
  · obtain ⟨i, -, hstep⟩ | ⟨e, -, hstep⟩ := huop
    · exact exec_keepsSized i (hstep.symm.trans he) (hs.of_buffers rfl)
    · exact absurd (hstep.symm.trans he) (faultInvariant_ne_next _ _ _)
  · cases hstep.symm.trans he

end Sys2Proof.Machine
end

section
/-! PROOFS. The code of RLE stage 2 and its decoder (46_rle2.md R231, R232): a symbol sequence that
decodes to the ranks is the one RLE2_RUN makes of them. -/

namespace Sys2Proof.Machine

/-- A digit sequence is the code of the run it stands for (R231). -/
theorem zeroRunGo_runValue {fuel : Nat} {ds : List Nat} (hd : ∀ y ∈ ds, y ≤ 1)
    (hf : runValue ds ≤ fuel) : zeroRunGo fuel (runValue ds) = ds := by
  induction ds generalizing fuel with
  | nil => cases fuel <;> rfl
  | cons y ys ih =>
    obtain ⟨hy, hys⟩ := List.forall_mem_cons.mp hd
    simp only [runValue] at hf ⊢
    cases fuel with
    | zero => omega
    | succ fuel =>
      have ih := ih hys (fuel := fuel) (by omega)
      unfold zeroRunGo
      obtain rfl | rfl := Nat.le_one_iff_eq_zero_or_eq_one.mp hy
      · have hhalf : (0 + 1 + 2 * runValue ys - 1) / 2 = runValue ys := by omega
        rw [if_neg (by omega), if_pos (by omega), hhalf, ih]
      · have hhalf : (1 + 1 + 2 * runValue ys - 2) / 2 = runValue ys := by omega
        rw [if_neg (by omega), if_neg (by omega), hhalf, ih]

theorem zeroRun_runValue {ds : List Nat} (hd : ∀ y ∈ ds, y ≤ 1) : zeroRun (runValue ds) = ds :=
  zeroRunGo_runValue hd le_rfl

/-- Zeros at the front of the ranks join the run that is pending (R230). -/
theorem rle2Go_replicate_append (k z : Nat) (rs : List Byte) :
    rle2Go (List.replicate k 0 ++ rs) z = rle2Go rs (z + k) := by
  induction k generalizing z with
  | zero => rfl
  | succ k ih =>
    rw [List.replicate_succ, List.cons_append, rle2Go, if_pos rfl, ih, Nat.add_assoc, Nat.add_comm 1]

/-- Ranks whose numbers are 0 are the byte 0. -/
theorem eq_replicate_zero {l : List Byte} {k : Nat} (h : l.map BitVec.toNat = List.replicate k 0) :
    l = List.replicate k 0 := by
  obtain ⟨hlen, hzero⟩ := List.eq_replicate_iff.mp h
  refine List.eq_replicate_iff.mpr ⟨(List.length_map _).symm.trans hlen, fun b hb => ?_⟩
  exact BitVec.eq_of_toNat_eq (hzero _ (List.mem_map_of_mem hb))

/-- The code of the ranks a symbol sequence stands for is that sequence, the digits `ds` read before it
included. -/
theorem rle2Go_of_rle2Decode {ranks : List Byte} {ds body : List Nat} (hd : ∀ y ∈ ds, y ≤ 1)
    (h : rle2Decode ds body = ranks.map BitVec.toNat) : rle2Go ranks 0 = ds.reverse ++ body := by
  have hrev {ds : List Nat} (hd : ∀ y ∈ ds, y ≤ 1) : zeroRun (runValue ds.reverse) = ds.reverse :=
    zeroRun_runValue fun y hy => hd y (List.mem_reverse.mp hy)
  induction body generalizing ds ranks with
  | nil =>
    have hranks := eq_replicate_zero h.symm
    rw [hranks, ← List.append_nil (List.replicate _ _), rle2Go_replicate_append, rle2Go,
      Nat.zero_add, hrev hd, List.append_nil]
  | cons y ys ih =>
    rw [rle2Decode] at h
    split at h
    · next hy =>
      rw [ih (List.forall_mem_cons.mpr ⟨hy, hd⟩) h, List.reverse_cons, List.append_assoc,
        List.singleton_append]
    · next hy =>
      obtain ⟨zeros, rest, rfl, hzeros, hrest⟩ := List.map_eq_append_iff.mp h.symm
      obtain ⟨r, rs, rfl, hr, hrs⟩ := List.map_eq_cons_iff.mp hrest
      have hr0 : r ≠ 0 := by
        rintro rfl
        have hzero : (0 : Byte).toNat = 0 := rfl
        omega
      have hy1 : y - 1 + 1 = y := by omega
      rw [eq_replicate_zero hzeros, rle2Go_replicate_append, rle2Go, if_neg hr0, Nat.zero_add,
        hrev hd, ih (List.forall_mem_nil _) hrs.symm, hr, hy1, List.reverse_nil, List.nil_append]

/-- A rank that is not 0 is sent as the symbol one above it (R230). -/
theorem succ_mem_rle2Go {r : Byte} {rs : List Byte} (z : Nat) (h : r ∈ rs) (hr : r ≠ 0) :
    r.toNat + 1 ∈ rle2Go rs z := by
  induction rs generalizing z with
  | nil => cases h
  | cons x xs ih =>
    rw [rle2Go]
    split
    · next hx =>
      obtain rfl | h := List.mem_cons.mp h
      · exact absurd hx hr
      · exact ih (z + 1) h
    · obtain rfl | h := List.mem_cons.mp h
      · simp
      · simp [ih 0 h]

end Sys2Proof.Machine
end

section
/-! PROOFS. The indexes outside a buffer, or outside its written entries, on which the units fault
(20_memory.md R61, 60_exceptions.md R346), and the empty block (93_implementation_defined.md U2). -/

namespace Sys2Proof.Machine

variable {s t : State}

theorem execBwtSort_fault (h : 900000 < s.blkBuf.length) :
    execBwtSort s = faultInvariant .indexOutside s := by
  have hne : s.blkBuf ≠ [] := List.ne_nil_of_length_pos (by omega)
  have hlong : Config.capMax < s.blkLen := h
  rw [execBwtSort, if_neg hne, if_pos hlong]

theorem execMtfRun_fault
    (h : 256 < s.alpha.length ∨ 900000 < s.bwtOut.length ∨ ∃ x ∈ s.bwtOut, x ∉ s.alpha) :
    execMtfRun s = faultInvariant .indexOutside s := by
  unfold execMtfRun
  split
  · rfl
  · next hfits =>
    obtain hm | hn | hx := h
    · exact absurd (.inl hm) hfits
    · exact absurd (.inr hn) hfits
    · rw [mtfGo_eq_none _ _ hx]

theorem execRle2Run_fault
    (h : 256 < s.alpha.length ∨ (∃ r ∈ s.ranks, s.m < r.toNat) ∨
      ∃ body, rle2Decode [] body = s.ranks.map BitVec.toNat ∧ 900000 < body.length) :
    execRle2Run s = faultInvariant .indexOutside s := by
  refine if_pos ?_
  obtain hm | ⟨r, hr, hlt⟩ | ⟨body, hbody, hlen⟩ := h
  · exact .inl hm
  · have hr0 : r ≠ 0 := by
      rintro rfl
      exact absurd hlt (Nat.not_lt_zero _)
    refine .inr (.inr (List.any_eq_true.mpr ⟨r.toNat + 1, ?_, ?_⟩))
    · exact List.mem_append_left _ (succ_mem_rle2Go 0 hr hr0)
    · simpa using hlt
  · refine .inr (.inl ?_)
    rw [rle2Symbols, rle2Go_of_rle2Decode (List.forall_mem_nil _) hbody, List.reverse_nil,
      List.nil_append, List.length_append]
    exact Nat.add_lt_add_right hlen 1

/-- NSEL is past SEL exactly when there are more symbols than SEL has groups for (R241). -/
theorem selMax_lt_nselOf {l : Nat} : Config.selMax < nselOf l ↔ 900050 < l := by
  unfold nselOf Config.selMax Config.group
  omega

theorem execHuffBuild_fault
    (h : s.freq.length < s.m + 2 ∨ 256 < s.alpha.length ∨ 900050 < s.sym.length) :
    execHuffBuild s = faultInvariant .indexOutside s :=
  if_pos (h.imp_right (Or.imp_right selMax_lt_nselOf.mpr))

theorem execHuffCodes_fault
    (h : 256 < s.alpha.length ∨ s.len.length < s.ntrees.toNat ∨
      ∃ lens ∈ s.len.take s.ntrees.toNat, lens.length < s.m + 2) :
    execHuffCodes s = faultInvariant .indexOutside s := by
  refine if_pos (h.imp_right (Or.imp_right ?_))
  rintro ⟨lens, hmem, hlt⟩
  refine List.any_eq_true.mpr ⟨lens.take s.alphabetSize, List.mem_map_of_mem hmem, ?_⟩
  exact decide_eq_true ((List.length_take_le' _ _).trans_lt hlt)

theorem execSelMtf_fault
    (h : s.sel.length < s.nsel.toNat ∨ ∃ g ∈ s.sel.take s.nsel.toNat, s.ntrees.toNat ≤ g) :
    execSelMtf s = faultInvariant .indexOutside s := by
  unfold execSelMtf
  split
  · rfl
  · next hwritten =>
    obtain hn | ⟨g, hg, hle⟩ := h
    · exact absurd hn hwritten
    · rw [mtfGo_eq_none _ _ ⟨g, hg, by simpa using hle⟩]

theorem execRle1Finish_fault (h : 900000 < s.eff) :
    execRle1Finish s = faultInvariant .indexOutside s := by
  have hfull : s.block.commit s.block.pending = none :=
    Block.commit_eq_none.mpr (s.block.eff_eq ▸ h)
  rw [execRle1Finish, hfull]

theorem execBlkSerialize_fault (hbuf : s.blkBuf = []) (hrun : s.runLen = 0) :
    execBlkSerialize s = faultInvariant .emptyBlock s :=
  if_pos (by simp [State.blockEmpty, hbuf, hrun])

/-! ### RLE1_ACCEPT -/

/-- The loop goes on after a prefix that is taken whole (R174). -/
theorem Block.Accepts.acceptAll_append {cap : Nat} {b c : Block} {p : List Byte}
    (h : Block.Accepts cap b p c) (l : List Byte) : b.acceptAll cap (p ++ l) = c.acceptAll cap l := by
  induction h with
  | nil => rfl
  | cons hb _ ih => rw [List.cons_append, Block.acceptAll, hb, ← ih]

/-- A byte that needs room, and has it in CAP but not in BLK_BUF, has no entry to go to. -/
theorem State.accept_eq_outside {x : Byte} (hneed : 1 ≤ s.roomNeeded x)
    (hroom : s.eff + s.roomNeeded x ≤ s.cap.toNat) (hbuf : 900000 ≤ s.eff) :
    s.block.accept s.cap.toNat x = .outside := by
  have heff : s.block.eff = s.eff := rfl
  have hlen : s.block.runLen = s.runLen := rfl
  have hsum := s.block.eff_eq
  rw [State.roomNeeded_eq] at hneed hroom
  rw [Block.accept, heff, hlen]
  cases hc : s.block.continues x
  · rw [hc, if_neg Bool.false_ne_true] at hroom
    have hfull : s.block.commit (s.block.pending ++ [x]) = none := by
      rw [Block.commit_eq_none, List.length_append, List.length_singleton, Config.capMax]
      omega
    rw [if_neg Bool.false_ne_true, if_neg (by omega), hfull]
  · rw [hc, if_pos rfl] at hneed hroom
    cases hp : lengthPending s.runLen
    · rw [hp, if_neg Bool.false_ne_true] at hroom
      have hnone : s.block.pending = [] := by rw [Block.pending, hlen, hp, if_neg Bool.false_ne_true]
      have hfull : s.block.commit [x] = none := by
        rw [hnone, List.length_nil] at hsum
        rw [Block.commit_eq_none, List.length_singleton, Config.capMax]
        omega
      rw [if_pos rfl, if_neg Bool.false_ne_true, if_neg (by omega), hfull]
    · rw [hp, if_pos rfl] at hneed
      omega

/-- A byte without an entry, after a prefix that is taken whole. -/
theorem execRle1Accept_fault {p xs : List Byte} {x : Byte} (hin : s.writeIn = p ++ x :: xs)
    (hp : execRle1Accept { s with writeIn := p } = .next t) (htaken : t.writeIn = [])
    (hneed : 1 ≤ t.roomNeeded x) (hroom : t.eff + t.roomNeeded x ≤ t.cap.toNat)
    (hbuf : 900000 ≤ t.eff) : execRle1Accept s = faultInvariant .indexOutside s := by
  unfold execRle1Accept at hp
  split at hp
  · next a ha =>
    cases hp
    obtain ⟨taken, happ, hacc, -⟩ := Block.acceptAll_eq_some ha
    have hrest : a.rest = [] := htaken
    obtain rfl : p = taken := by simpa [hrest] using happ
    have hout : a.block.accept s.cap.toNat x = .outside :=
      State.accept_eq_outside hneed hroom hbuf
    have hnone : s.block.acceptAll s.cap.toNat (p ++ x :: xs) = none := by
      refine (hacc.acceptAll_append (x :: xs)).trans ?_
      rw [Block.acceptAll, hout]
    rw [execRle1Accept, hin, hnone]
  · exact absurd hp (faultInvariant_ne_next _ _ _)

/-- Settles O34, unit by unit; the state in the fault differs in ERR only (R351). -/
theorem indexOutsideBufferFaults : Obligations.IndexOutsideBufferFaults := by
  rintro s e rfl
  exact ⟨execBwtSort_fault, execMtfRun_fault, execRle2Run_fault, execHuffBuild_fault,
    execHuffCodes_fault, execSelMtf_fault, execRle1Finish_fault,
    fun _ _ _ _ => execRle1Accept_fault, execBlkSerialize_fault⟩

end Sys2Proof.Machine
end

section
/-! PROOFS. The host's attaching of a sink (20_memory.md R64, 30_encoding.md R84). -/

namespace Sys2Proof.Machine

/-- Settles O9, by the host's next action, which is the only one that attaches a sink. -/
theorem attachSinkChangesSinkPortOnly : Obligations.AttachSinkChangesSinkPortOnly := by
  intro s l r es hidle hq
  simp [step, fetch, hq, hidle, attachSink]

end Sys2Proof.Machine
end

section
/-! PROOFS. The decoder and the encoder are inverse to each other (30_encoding.md R80-R85, R87-R89;
log 4), and a micro-op code outside the table is no instruction (R88). -/

namespace Sys2Proof

/-! ### Values on the micro-op bus -/

/-- The bytes of a register value are read back as that value. -/
theorem readNat_bytesBE_toNat {w k : Nat} (hw : w ≤ 8 * k) (v : BitVec w) (l : List Byte) :
    readNat k (bytesBE k v.toNat ++ l) = some (v.toNat, l) := by
  have hv : v.toNat < 256 ^ k := calc
    v.toNat < 2 ^ w := v.isLt
    _ ≤ 2 ^ (8 * k) := Nat.pow_le_pow_right two_pos hw
    _ = 256 ^ k := pow_mul 2 8 k
  exact readNat_bytesBE l hv

/-- A register of `8 * k` bits keeps a value read from `k` bytes whole, so its bytes are the ones
read. -/
theorem bytesBE_toNat_of_readNat {w k v : Nat} {l m : List Byte} (hw : w = 8 * k)
    (h : readNat k l = some (v, m)) : bytesBE k (BitVec.ofNat w v).toNat ++ m = l := by
  obtain ⟨hl, hv⟩ := readNat_eq_some.mp h
  have hlt : v < 2 ^ w := calc
    v < 256 ^ k := hv
    _ = 2 ^ (8 * k) := (pow_mul 2 8 k).symm
    _ = 2 ^ w := by rw [hw]
  rw [BitVec.toNat_ofNat, Nat.mod_eq_of_lt hlt, hl]

/-- As `bytesBE_toNat_of_readNat`, for the last value of a transfer. -/
theorem bytesBE_toNat_of_readNat_nil {w k v : Nat} {l : List Byte} (hw : w = 8 * k)
    (h : readNat k l = some (v, [])) : bytesBE k (BitVec.ofNat w v).toNat = l := by
  simpa using bytesBE_toNat_of_readNat hw h

/-! ### Decoding what was encoded -/

theorem decodeWriteBits_bytesBE (n : BitVec 7) (v : BitVec 64) :
    decodeWriteBits (bytesBE 1 n.toNat ++ bytesBE 8 v.toNat) = .ok (.bwWriteBits n v) := by
  have hv : readNat 8 (bytesBE 8 v.toNat) = some (v.toNat, []) := by
    simpa using readNat_bytesBE_toNat (k := 8) le_rfl v []
  simp [decodeWriteBits, readNat_bytesBE_toNat, hv, n.isLt]

theorem decodeCrcUpdate_bytesBE (crc : Word) (d : List Byte) :
    decodeCrcUpdate (bytesBE 4 crc.toNat ++ d) = .ok (.crcUpdate crc d) := by
  simp [decodeCrcUpdate, readNat_bytesBE_toNat]

theorem decodeCrcCombine_bytesBE (a b : Word) :
    decodeCrcCombine (bytesBE 4 a.toNat ++ bytesBE 4 b.toNat) = .ok (.crcCombine a b) := by
  have hb : readNat 4 (bytesBE 4 b.toNat) = some (b.toNat, []) := by
    simpa using readNat_bytesBE_toNat (k := 4) le_rfl b []
  simp [decodeCrcCombine, readNat_bytesBE_toNat, hb]

/-- CONFIG's level stands below 20 zero bits (R82). -/
theorem decodeCommand_config (lv : BitVec 4) :
    decodeCommand (commandWord 0x01 ((0 : BitVec 20) ++ lv)) = .ok (.config lv) := by
  have hzero : ((0 : BitVec 20) ++ lv).extractLsb' 4 20 = 0 := BitVec.extractLsb'_append_eq_left
  have hlv : ((0 : BitVec 20) ++ lv).extractLsb' 0 4 = lv := BitVec.extractLsb'_append_eq_right
  simp only [decodeCommand, cmdOp_commandWord, cmdImm_commandWord]
  exact (if_pos hzero).trans (congrArg (Except.ok <| Instr.config ·) hlv)

theorem decodeCommand_write (n : BitVec 24) :
    decodeCommand (commandWord 0x02 n) = .ok (.write n) := by
  simp [decodeCommand]

/-- An instruction without operands has one encoding, which is decoded by computation. -/
theorem decode_encode (i : Instr) : decode (encode i) = .ok i := by
  cases i with
  | config lv => exact decodeCommand_config lv
  | write n => exact decodeCommand_write n
  | bwWriteBits n v => exact decodeWriteBits_bytesBE n v
  | crcUpdate crc d => exact decodeCrcUpdate_bytesBE crc d
  | crcCombine a b => exact decodeCrcCombine_bytesBE a b
  | _ => rfl

/-- Settles O1; every instruction is well-formed, so the round trip needs no premise. -/
theorem decodeOfEncodeIsIdentity : Obligations.DecodeOfEncodeIsIdentity :=
  fun i _ => decode_encode i

/-! ### Encoding what was decoded: command words -/

theorem commandWord_ofNat_cmdImm {w : Word} {n : Nat} (hop : (cmdOp w).toNat = n) :
    commandWord (BitVec.ofNat 8 n) (cmdImm w) = w := by
  rw [← hop, BitVec.ofNat_toNat, BitVec.setWidth_eq, commandWord_fields]

/-- CONFIG accepts no word but the one made of its level (R82). -/
theorem encode_config_level {w : Word} (hop : (cmdOp w).toNat = 0x01)
    (hzero : (cmdImm w).extractLsb' 4 20 = 0) :
    encode (.config ((cmdImm w).extractLsb' 0 4)) = .command w := by
  have himm : (0 : BitVec 20) ++ (cmdImm w).extractLsb' 0 4 = cmdImm w := by
    rw [← hzero]
    exact BitVec.extractLsb'_append_extractLsb'
  rw [encode, himm]
  exact congrArg Encoded.command (commandWord_ofNat_cmdImm hop)

/-- A command `c` without operands accepts no word but the one with `imm24` 0 (R84). -/
theorem encode_of_noOperandCommand {w : Word} {n : Nat} {c i : Instr}
    (hop : (cmdOp w).toNat = n) (hc : encode c = .command (commandWord (BitVec.ofNat 8 n) 0))
    (h : (if cmdImm w = 0 then .ok c else .error .mustBeZero : Except DecodeError Instr) = .ok i) :
    encode i = .command w := by
  split at h
  case isTrue hzero =>
    cases h
    rw [hc, ← hzero, commandWord_ofNat_cmdImm hop]
  case isFalse => cases h

theorem encode_of_decodeCommand {w : Word} {i : Instr} (h : decodeCommand w = .ok i) :
    encode i = .command w := by
  unfold decodeCommand at h
  dsimp only at h
  split at h
  case h_1 hop =>
    split at h
    case isTrue hzero =>
      cases h
      exact encode_config_level hop hzero
    case isFalse => cases h
  case h_2 hop =>
    cases h
    exact congrArg Encoded.command (commandWord_ofNat_cmdImm hop)
  case h_3 hop => exact encode_of_noOperandCommand hop rfl h
  case h_4 hop => exact encode_of_noOperandCommand hop rfl h
  case h_5 hop => exact encode_of_noOperandCommand hop rfl h
  case h_6 => cases h

/-! ### Encoding what was decoded: micro-op transfers -/

/-- The width byte has bit 7 clear and no byte is left over, so no bit is ignored (log 4). -/
theorem encode_of_decodeWriteBits {l : List Byte} {i : Instr} (h : decodeWriteBits l = .ok i) :
    encode i = .uop (0x10 :: l) := by
  unfold decodeWriteBits at h
  split at h
  · cases h
  · next n l' hn =>
    split at h
    · cases h
    · next v rest hv =>
      split at h
      · next hend =>
        obtain ⟨rfl, hn7⟩ := hend
        cases h
        have hwidth : (BitVec.ofNat 7 n).toNat = n := Nat.mod_eq_of_lt hn7
        rw [encode, hwidth, bytesBE_toNat_of_readNat_nil rfl hv, ← (readNat_eq_some.mp hn).1]
      · cases h

theorem encode_of_decodeCrcUpdate {l : List Byte} {i : Instr} (h : decodeCrcUpdate l = .ok i) :
    encode i = .uop (0x13 :: l) := by
  unfold decodeCrcUpdate at h
  split at h
  · cases h
  · next hcrc =>
    cases h
    rw [encode, bytesBE_toNat_of_readNat rfl hcrc]

theorem encode_of_decodeCrcCombine {l : List Byte} {i : Instr} (h : decodeCrcCombine l = .ok i) :
    encode i = .uop (0x14 :: l) := by
  unfold decodeCrcCombine at h
  split at h
  · cases h
  · next ha =>
    split at h
    · cases h
    · next hb =>
      split at h
      · next hend =>
        cases hend
        cases h
        rw [encode, bytesBE_toNat_of_readNat_nil rfl hb, bytesBE_toNat_of_readNat rfl ha]
      · cases h

/-- The transfer of a micro-operation `c` without operands is its code alone. -/
theorem encode_of_noOperandUop {code : Byte} {l : List Byte} {n : Nat} {c i : Instr}
    (hcode : code.toNat = n) (hc : encode c = .uop [BitVec.ofNat 8 n])
    (h : (if l = [] then .ok c else .error .badOperands : Except DecodeError Instr) = .ok i) :
    encode i = .uop (code :: l) := by
  split at h
  case isTrue hl =>
    cases h
    rw [hc, ← hcode, hl, BitVec.ofNat_toNat, BitVec.setWidth_eq]
  case isFalse => cases h

theorem encode_of_decodeUop {bytes : List Byte} {i : Instr} (h : decodeUop bytes = .ok i) :
    encode i = .uop bytes := by
  cases bytes with
  | nil => cases h
  | cons code l =>
    unfold decodeUop at h
    dsimp only at h
    split at h
    case h_1 hcode =>
      obtain rfl : code = 0x10 := BitVec.eq_of_toNat_eq hcode
      exact encode_of_decodeWriteBits h
    case h_3 hcode =>
      obtain rfl : code = 0x12 := BitVec.eq_of_toNat_eq hcode
      cases h
      rfl
    case h_4 hcode =>
      obtain rfl : code = 0x13 := BitVec.eq_of_toNat_eq hcode
      exact encode_of_decodeCrcUpdate h
    case h_5 hcode =>
      obtain rfl : code = 0x14 := BitVec.eq_of_toNat_eq hcode
      exact encode_of_decodeCrcCombine h
    case h_18 => cases h
    all_goals
      next hcode => exact encode_of_noOperandUop hcode rfl h

theorem encode_of_decode {e : Encoded} {i : Instr} (h : decode e = .ok i) : encode i = e := by
  cases e with
  | command w => exact encode_of_decodeCommand h
  | uop bytes => exact encode_of_decodeUop h

/-- The operand types of `Instr` leave no instruction without an encoding. -/
theorem Instr.wellFormed_eq_true (i : Instr) : i.wellFormed = true := by
  cases i <;> rfl

/-- Settles O2, by the branches of the decoder. -/
theorem encodeOfDecodeIsIdentity : Obligations.EncodeOfDecodeIsIdentity :=
  fun _ i h => ⟨i.wellFormed_eq_true, encode_of_decode h⟩

/-! ### Words of the opcode table -/

/-- Settles O3: each word is decoded by computation. -/
theorem opcodeTableWordsDecode : Obligations.OpcodeTableWordsDecode := by
  unfold Obligations.OpcodeTableWordsDecode
  decide

/-- R88 lists the codes 0x10 to 0x20 and no other. -/
theorem decodeUop_unknown {code : Byte} (l : List Byte)
    (hcode : code.toNat < 0x10 ∨ 0x20 < code.toNat) :
    decodeUop (code :: l) = .error .unknownUop := by
  unfold decodeUop
  dsimp only
  split
  case h_18 => rfl
  all_goals omega

end Sys2Proof

namespace Sys2Proof.Machine

/-- Settles O8: the decoder rejects the code, and a rejected transfer enters InvariantViolation. -/
theorem unknownUopFaults : Obligations.UnknownUopFaults := by
  intro s code l es hcode hq
  have hreject : decode (.uop (code :: l)) = .error .unknownUop := decodeUop_unknown l hcode
  simp [step, fetch, hq, hreject, faultInvariant, State.raise, ErrCode.sticky]

end Sys2Proof.Machine
end

section
/-! PROOFS. The bit writer's micro-operations BW_WRITEBITS, BW_PAD and BW_RAWBYTES: the bytes
delivered, DOUT, and the byte the sink fails (40_bit_writer.md R121-R126). -/

namespace Sys2Proof.Machine

/-! ### DOUT after bytes the sink accepted (R42, R64) -/

/-- From `w` to `v` exactly the bytes `d` were delivered, and DOUT holds the last of them. -/
structure Writer.Delivers (w v : Writer) (d : List Byte) : Prop where
  bytes : v.bytes = w.bytes ++ d
  dout : v.dout = lastByte w.dout d

theorem Writer.Delivers.refl (w : Writer) : w.Delivers w [] := ⟨by simp, rfl⟩

theorem Writer.Delivers.trans {w v u : Writer} {d e : List Byte} (h : w.Delivers v d)
    (h' : v.Delivers u e) : w.Delivers u (d ++ e) := by
  constructor
  · rw [h'.bytes, h.bytes, List.append_assoc]
  · rw [h'.dout, h.dout]
    cases e <;> simp [lastByte, List.getLastD_eq_getLast?]

/-- ERR is never cleared by writing bits (R126). -/
theorem Writer.err_of_writeBitList {w : Writer} {l : List Bool}
    (h : (w.writeBitList l).err = .noError) : w.err = .noError := by
  by_contra hn
  rw [Writer.writeBitList_of_err l hn] at h
  exact hn h

/-- A bit written with no error delivers the byte it completes, or none. -/
theorem Writer.shiftBit_delivers {w : Writer} (b : Bool) (h : (w.shiftBit b).err = .noError) :
    ∃ d, w.Delivers (w.shiftBit b) d := by
  have he : w.err = .noError := Writer.err_of_writeBitList (l := [b]) h
  by_cases hc : w.cnt = 7
  · rcases w.answerAt_cases 0 with ha | ha
    · rw [Writer.shiftBit_byte b he hc ha]
      exact ⟨[_], rfl, rfl⟩
    · rw [Writer.shiftBit_fail b he hc ha] at h
      cases h
  · rw [Writer.shiftBit_quiet b he hc]
    exact ⟨[], by simp, rfl⟩

theorem Writer.writeBitList_delivers {w : Writer} (l : List Bool)
    (h : (w.writeBitList l).err = .noError) : ∃ d, w.Delivers (w.writeBitList l) d := by
  induction l generalizing w with
  | nil => exact ⟨[], .refl w⟩
  | cons b l ih =>
    rw [Writer.writeBitList_cons] at h ⊢
    obtain ⟨d, hd⟩ := Writer.shiftBit_delivers b (Writer.err_of_writeBitList h)
    obtain ⟨e, he⟩ := ih h
    exact ⟨d ++ e, hd.trans he⟩

/-- The delivered bytes are as many as the pending bits and the written ones complete. -/
theorem Writer.Extends.delivered_length {w v : Writer} {l : List Bool} {d : List Byte}
    (h : w.Extends v l) (hd : v.bytes = w.bytes ++ d) :
    d.length = (w.cnt.toNat + l.length) / 8 := by
  have hlen := h.bytes
  rw [hd, List.length_append] at hlen
  omega

/-- The bits pending before and the written ones are those of the delivered bytes and what is still
pending. -/
theorem Writer.Extends.delivered_bits {w v : Writer} {l : List Bool} {d : List Byte}
    (h : w.Extends v l) (hd : v.bytes = w.bytes ++ d) :
    bitsOf d ++ pendingBits v.acc v.cnt = pendingBits w.acc w.cnt ++ l := by
  have hs := h.stream
  rw [Writer.stream, Writer.stream, hd, bitsOf_append, List.append_assoc, List.append_assoc] at hs
  exact List.append_cancel_left hs

/-! ### A byte the sink fails (R122, R126) -/

/-- Bits written to a sink that fails the byte of index `j` among those they complete: the `j` bytes
before it are delivered, DOUT holds the failed one, and the bits after it have no effect. -/
theorem Writer.writeBitList_fail {w : Writer} {l : List Bool} {j : Nat} (he : w.err = .noError)
    (hj : j < (w.cnt.toNat + l.length) / 8) (hok : w.accepts j) (hfail : w.answerAt j = .fail) :
    ∃ d, (w.writeBitList l).err = .sinkIOError ∧ (w.writeBitList l).bytes = w.bytes ++ d ∧
      d.length = j ∧
      bitsOf (d ++ [(w.writeBitList l).dout]) <+: pendingBits w.acc w.cnt ++ l := by
  have hcnt := w.cnt.isLt
  -- the bits before the one that completes the failed byte, that bit, and the bits after it
  obtain ⟨p, b, q, rfl, hp⟩ : ∃ p b q, l = p ++ b :: q ∧ w.cnt.toNat + p.length = 8 * j + 7 := by
    have hlt : 8 * j + 7 - w.cnt.toNat < l.length := by omega
    refine ⟨_, _, _, by rw [List.getElem_cons_drop hlt, List.take_append_drop], ?_⟩
    rw [List.length_take_of_le hlt.le]
    omega
  have hdiv : (w.cnt.toNat + p.length) / 8 = j := by omega
  have hx : w.Extends (w.writeBitList p) p := Writer.writeBitList_extends p he (by rwa [hdiv])
  have hseven : (w.writeBitList p).cnt = 7 := BitVec.eq_of_toNat_eq (by rw [hx.cnt, hp]; simp)
  have hnext : (w.writeBitList p).answerAt 0 = .fail := by
    rw [hx.answers, hdiv, Nat.zero_add, hfail]
  have hb := Writer.shiftBit_fail b hx.err hseven hnext
  rw [Writer.writeBitList_append, Writer.writeBitList_cons,
    Writer.writeBitList_of_err q (by rw [hb]; simp), hb]
  obtain ⟨d, hd⟩ := w.bytes_prefix_writeBitList p
  have hbits := hx.delivered_bits hd.symm
  rw [hseven] at hbits
  refine ⟨d, rfl, hd.symm, by rw [hx.delivered_length hd.symm, hdiv], q, ?_⟩
  calc bitsOf (d ++ [(w.writeBitList p).acc ++ BitVec.ofBool b]) ++ q
      = bitsOf d ++ pendingBits (w.writeBitList p).acc 7 ++ [b] ++ q := by
        simp [bitsOf, byteBits_full]
    _ = pendingBits w.acc w.cnt ++ (p ++ b :: q) := by rw [hbits]; simp

/-- Raw bytes offered to a sink that fails the one of index `j`: those before it are delivered, DOUT
holds the failed one, and those after it are not offered (R125, R126). -/
theorem Writer.rawBytes_fail {w : Writer} {d : List Byte} {j : Nat} (he : w.err = .noError)
    (hj : j < d.length) (hok : w.accepts j) (hfail : w.answerAt j = .fail) :
    d.foldl Writer.rawByte w =
      { w with err := .sinkIOError, dout := d[j], script := (w.script.drop j).tail,
               bytes := w.bytes ++ d.take j } := by
  have hlen : (d.take j).length = j := List.length_take_of_le hj.le
  have hsplit : d = d.take j ++ d[j] :: d.drop (j + 1) := by
    rw [List.getElem_cons_drop hj, List.take_append_drop]
  have htake := Writer.rawBytes_ok (d.take j) he (by rwa [hlen])
  rw [hlen] at htake
  have hnext : ((d.take j).foldl Writer.rawByte w).answerAt 0 = .fail := by
    rw [htake, ← hfail]
    simp [Writer.answerAt]
  have hbyte : ((d.take j).foldl Writer.rawByte w).rawByte d[j] =
      { w with err := .sinkIOError, dout := d[j], script := (w.script.drop j).tail,
               bytes := w.bytes ++ d.take j } := by
    rw [Writer.rawByte, Writer.offer_fail _ hnext, htake]
    simp [he]
  conv_lhs => rw [hsplit, List.foldl_append, List.foldl_cons, hbyte]
  exact Writer.rawBytes_of_err _ (by simp)

/-! ### BW_WRITEBITS -/

/-- `WriteBits(n, v)` writes the `n` low bits of `v` (R121). -/
theorem State.writeBits_eq (s : State) (n : Nat) (v : BitVec 64) :
    s.writeBits n v = s.setWriter (s.writer.writeBitList (lowBits n v.toNat)) := by
  rw [State.writeBits, Writer.writeBits, msbFirst_eq_lowBits]

theorem exec_bwWriteBits_wide (s : State) {n : BitVec 7} (v : BitVec 64) (hn : 64 < n.toNat) :
    exec (.bwWriteBits n v) s =
      .fault (.invariantViolation .bitWidth (s.raise .invariantViolation)) :=
  if_pos hn

theorem exec_bwWriteBits (s : State) {n : BitVec 7} (v : BitVec 64) (hn : n.toNat ≤ 64) :
    exec (.bwWriteBits n v) s =
      .next (s.setWriter (s.writer.writeBitList (lowBits n.toNat v.toNat))) := by
  rw [← State.writeBits_eq]
  exact if_neg (Nat.not_lt.mpr hn)

/-- Bits written on the state have the frame of the bit writer. -/
theorem sameButWriter_writeBitList (s : State) (l : List Bool) :
    SameButWriter s (s.setWriter (s.writer.writeBitList l)) :=
  sameButWriter_setWriter s _ (s.writer.writeBitList_rest l)

/-- Settles O17: the written bits are split at the one that completes the byte the sink fails, and
while the sink fails none the stream grows by all of them. -/
theorem writeBitsAppendsLowBits : Obligations.WriteBitsAppendsLowBits := by
  intro s n v
  refine ⟨fun hwide => ?_, fun hn herr => ?_, fun hn herr => ⟨fun hok => ?_, fun j hj hfail => ?_⟩⟩
  · rw [exec_bwWriteBits_wide s v hwide, State.raise_sticky s rfl]
  · rw [exec_bwWriteBits s v hn, Writer.writeBitList_of_err (w := s.writer) _ herr,
      State.setWriter_writer]
  · have hx : s.writer.Extends _ (lowBits n.toNat v.toNat) :=
      Writer.writeBitList_extends _ herr (by rwa [lowBits_length])
    obtain ⟨d, hd⟩ := Writer.writeBitList_delivers _ hx.err
    have hlen := hx.bytes
    have hcnt := hx.cnt
    rw [lowBits_length] at hlen hcnt
    refine ⟨_, exec_bwWriteBits s v hn, sameButWriter_writeBitList s _, hx.err, hx.stream,
      ⟨d, hd.bytes.symm⟩, hlen, hcnt, hd.dout.trans ?_⟩
    rw [State.setWriter_sinkBytes, hd.bytes]
    exact congrArg (lastByte s.dout) List.drop_left.symm
  · obtain ⟨d, hd⟩ := Writer.writeBitList_fail (w := s.writer) (l := lowBits n.toNat v.toNat) herr
      (by rwa [lowBits_length]) hfail.1 hfail.2
    exact ⟨_, d, exec_bwWriteBits s v hn, sameButWriter_writeBitList s _, hd⟩

/-! ### BW_PAD -/

theorem msbFirst_zero (n : Nat) : msbFirst n 0 = List.replicate n false :=
  List.eq_replicate_iff.mpr ⟨msbFirst_length n 0, by simp [msbFirst]⟩

/-- BW_PAD writes the zero bits up to the byte boundary when bits are pending (R124). -/
theorem exec_bwPad {s : State} (herr : s.err = .noError) (hcnt : s.bwCnt ≠ 0) :
    exec .bwPad s =
      .next (s.setWriter (s.writer.writeBitList (List.replicate (8 - s.bwCnt.toNat) false))) := by
  have hpad : s.writer.pad = s.writer.writeBits (8 - s.bwCnt.toNat) 0 :=
    (if_neg (not_not.mpr herr)).trans (if_neg hcnt)
  rw [← msbFirst_zero, ← Writer.writeBits, ← hpad]
  rfl

theorem exec_bwPad_idle {s : State} (h : s.err ≠ .noError ∨ s.bwCnt = 0) :
    exec .bwPad s = .next s := by
  have hpad : s.writer.pad = s.writer := by
    by_cases herr : s.err = .noError
    · exact (if_neg (not_not.mpr herr)).trans (if_pos (h.resolve_left (not_not.mpr herr)))
    · exact Writer.pad_of_err herr
  exact congrArg (fun w => Host.Outcome.next (s.setWriter w)) hpad

/-- Settles O18: the pending bits and the zeros are the 8 bits of one byte. -/
theorem padFillsByteWithZeros : Obligations.PadFillsByteWithZeros := by
  refine fun s => ⟨exec_bwPad_idle, fun herr hcnt => ?_⟩
  have hfull : s.writer.cnt.toNat + (List.replicate (8 - s.bwCnt.toNat) false).length = 8 := by
    have := s.bwCnt.isLt
    rw [List.length_replicate]
    show s.bwCnt.toNat + _ = 8
    omega
  refine ⟨fun hok => ?_, fun hfail => ?_⟩
  · have hx := Writer.writeBitList_extends (w := s.writer) _ herr (by rw [hfull]; exact hok)
    obtain ⟨d, hd⟩ := Writer.writeBitList_delivers _ hx.err
    obtain ⟨x, rfl⟩ : ∃ x, d = [x] := List.length_eq_one_iff.mp (by
      rw [hx.delivered_length hd.bytes, hfull])
    refine ⟨_, exec_bwPad herr hcnt, sameButWriter_writeBitList s _, hx.err, ?_, hx.stream, ?_⟩
    · exact BitVec.eq_of_toNat_eq (hx.cnt.trans (by rw [hfull]; rfl))
    · rw [State.setWriter_dout, hd.dout]
      exact hd.bytes
  · obtain ⟨d, hio, hbytes, hlen, hbits⟩ :=
      Writer.writeBitList_fail (w := s.writer) herr (by rw [hfull]; decide) hfail.1 hfail.2
    obtain rfl := List.length_eq_zero_iff.mp hlen
    refine ⟨_, exec_bwPad herr hcnt, sameButWriter_writeBitList s _, hio,
      hbytes.trans (List.append_nil _), ?_⟩
    have hbyte := hbits.eq_of_length (by
      rw [List.length_append, pendingBits_length, hfull, bitsOf_length]; rfl)
    exact (List.append_nil _).symm.trans hbyte

/-! ### BW_RAWBYTES -/

theorem exec_bwRawBytes {s : State} (d : List Byte) (herr : s.err = .noError) (hcnt : s.bwCnt = 0) :
    exec (.bwRawBytes d) s = .next (s.setWriter (d.foldl Writer.rawByte s.writer)) :=
  (if_neg (not_not.mpr herr)).trans (if_neg (not_not.mpr hcnt))

theorem exec_bwRawBytes_of_err {s : State} (d : List Byte) (herr : s.err ≠ .noError) :
    exec (.bwRawBytes d) s = .next s :=
  if_pos herr

theorem exec_bwRawBytes_unaligned {s : State} (d : List Byte) (herr : s.err = .noError)
    (hcnt : s.bwCnt ≠ 0) :
    exec (.bwRawBytes d) s = .fault (.unalignedWrite (s.raise .unalignedWrite)) :=
  (if_neg (not_not.mpr herr)).trans (if_pos hcnt)

/-- Settles O19, by the branches of BW_RAWBYTES; on a byte boundary the bytes are split at the one
the sink fails. -/
theorem rawBytesNeedByteBoundary : Obligations.RawBytesNeedByteBoundary := by
  intro s d
  refine ⟨exec_bwRawBytes_of_err d, fun herr hcnt => ?_,
    fun herr hcnt => ⟨fun hok => ?_, fun j hj hfail => ?_⟩⟩
  · rw [exec_bwRawBytes_unaligned d herr hcnt, State.raise_sticky s rfl]
  · refine ⟨_, exec_bwRawBytes d herr hcnt, ?_⟩
    rw [Writer.rawBytes_ok (w := s.writer) d herr hok]
    rfl
  · have hraw := Writer.rawBytes_fail (w := s.writer) herr hj hfail.1 hfail.2
    refine ⟨_, exec_bwRawBytes d herr hcnt, ?_, ?_⟩
    · rw [hraw, List.getElem?_eq_getElem hj]
      rfl
    · rw [hraw]
      simp [State.setWriter, State.writer]

end Sys2Proof.Machine
end

section
/-! PROOFS. The CRC-32 datapath: CRC_UPDATE against the table of R141, its chunk independence, and
CRC_COMBINE (41_crc32.md R141-R144). -/

namespace Sys2Proof.Machine

/-! ### The table (R141) -/

theorem crcShift_eq_crcRound : crcShift = crcRound := by
  funext c
  rw [crcRound, BitVec.msb_eq_getLsbD_last]
  rfl

/-- Zeros below `x` are `x` shifted up. -/
theorem append_zero_eq_shiftLeft {w : Nat} (x : BitVec w) (n : Nat) :
    x ++ (0 : BitVec n) = x.setWidth (w + n) <<< n := by
  rw [BitVec.append_def, BitVec.shiftLeftZeroExtend_eq]
  simp

/-- The datapath's table is R141's. -/
theorem crcT_eq_crcTable (i : Byte) : crcT i = crcTable i := by
  rw [crcTable, crcShift_eq_crcRound, ← append_zero_eq_shiftLeft i 24]
  rfl

/-! ### CRC_UPDATE (R142, R143) -/

theorem crcByte_eq_crcTable (c : Word) (x : Byte) :
    crcByte c x = (c <<< 8) ^^^ crcTable ((c >>> 24).setWidth 8 ^^^ x) := by
  rw [crcByte, crcT_eq_crcTable, BitVec.setWidth_ushiftRight_eq_extractLsb]

@[simp] theorem crcUpdate_nil (crc : Word) : crcUpdate crc [] = crc := BitVec.not_not

/-- Between two calls the complement on exit and the one on entry cancel. -/
theorem crcUpdate_append (crc : Word) (d e : List Byte) :
    crcUpdate crc (d ++ e) = crcUpdate (crcUpdate crc d) e := by
  simp only [crcUpdate, List.foldl_append, BitVec.not_not]

theorem complement_crcUpdate_singleton (crc : Word) (x : Byte) :
    ~~~(crcUpdate crc [x]) = crcByte (~~~crc) x := BitVec.not_not

theorem exec_crcUpdate (s : State) (crc : Word) (d : List Byte) :
    exec (.crcUpdate crc d) s = .next { s with uopRet := crcUpdate crc d } := rfl

/-- Settles O20: one more byte is one more call, and that call is one look-up in the table of R141. -/
theorem crcUpdateFoldsEachByte : Obligations.CrcUpdateFoldsEachByte := by
  intro s crc d x
  refine ⟨?_, _, _, exec_crcUpdate s crc d, exec_crcUpdate s crc (d ++ [x]), rfl, rfl, ?_⟩
  · rw [exec_crcUpdate, crcUpdate_nil]
  · rw [crcUpdate_append, complement_crcUpdate_singleton, crcByte_eq_crcTable]

/-- Settles O21: the bytes are the first `k` and then the rest. -/
theorem crcUpdateChunkIndependence : Obligations.CrcUpdateChunkIndependence := by
  intro s X k _
  refine ⟨_, _, exec_crcUpdate s 0 (X.take k), exec_crcUpdate _ _ (X.drop k), ?_⟩
  rw [exec_crcUpdate, ← crcUpdate_append, List.take_append_drop]

/-! ### CRC_COMBINE (R144) -/

theorem crcCombine_eq_rotateLeft_xor (a b : Word) : crcCombine a b = a.rotateLeft 1 ^^^ b := rfl

theorem exec_crcCombine (s : State) (a b : Word) :
    exec (.crcCombine a b) s = .next { s with uopRet := crcCombine a b } := rfl

/-- Settles O22: R144's two shifts are the rotation. -/
theorem crcCombineRotatesAndXors : Obligations.CrcCombineRotatesAndXors := by
  intro s a b
  rw [exec_crcCombine, crcCombine_eq_rotateLeft_xor]

end Sys2Proof.Machine
end

section
/-! PROOFS. The symbol set: PRESENT and ALPHA against the bytes that occur (42_symbol_set.md R160, R162). -/

namespace Sys2Proof.Machine

/-! ### PRESENT -/

/-- The bit that `x` sets in PRESENT is the bit of no other value. -/
theorem getLsbD_one_shiftLeft (x v : Byte) :
    ((1 : BitVec 256) <<< x.toNat).getLsbD v.toNat = true ↔ v = x := by
  change ((1#256) <<< x.toNat).getLsbD v.toNat = true ↔ v = x
  rw [← BitVec.twoPow_eq, BitVec.getLsbD_twoPow, Bool.and_eq_true, decide_eq_true_iff,
    decide_eq_true_iff, BitVec.toNat_inj, and_iff_right x.isLt, eq_comm]

/-- From any bits `p` on, a bit is set at the end when it was set or its value occurs. -/
theorem getLsbD_foldl_setBit (data : List Byte) (p : BitVec 256) (v : Byte) :
    (data.foldl (fun p x => p ||| ((1 : BitVec 256) <<< x.toNat)) p).getLsbD v.toNat = true ↔
      p.getLsbD v.toNat = true ∨ v ∈ data := by
  induction data generalizing p with
  | nil => simp
  | cons x xs ih =>
    rw [List.foldl_cons, ih, BitVec.getLsbD_or, Bool.or_eq_true, getLsbD_one_shiftLeft,
      List.mem_cons, or_assoc]

theorem getLsbD_presentOf (data : List Byte) (v : Byte) :
    (presentOf data).getLsbD v.toNat = true ↔ v ∈ data := by
  rw [presentOf, getLsbD_foldl_setBit]
  simp

/-! ### ALPHA -/

theorem mem_alphaOf (present : BitVec 256) (v : Byte) :
    v ∈ alphaOf present ↔ present.getLsbD v.toNat = true := by
  simp only [alphaOf, List.mem_map, List.mem_filter, List.mem_range]
  constructor
  · rintro ⟨n, ⟨hn, hset⟩, rfl⟩
    rwa [BitVec.toNat_ofNat, Nat.mod_eq_of_lt hn]
  · exact fun hset => ⟨v.toNat, ⟨v.isLt, hset⟩, BitVec.ofNat_toNat 8 v⟩

/-- The order of `0 .. 255` stays: no value below 256 is cut by the width of a byte. -/
theorem alphaOf_ascending (present : BitVec 256) :
    (alphaOf present).Pairwise fun x y => x.toNat < y.toNat := by
  rw [alphaOf, List.pairwise_map]
  refine (List.pairwise_lt_range.filter _).imp_of_mem fun {a b} ha hb hab => ?_
  have ha' := List.mem_range.mp (List.mem_of_mem_filter ha)
  have hb' := List.mem_range.mp (List.mem_of_mem_filter hb)
  rwa [BitVec.toNat_ofNat, BitVec.toNat_ofNat, Nat.mod_eq_of_lt ha', Nat.mod_eq_of_lt hb']

/-- ALPHA lists the bytes that occur (R160). -/
theorem mem_alphaOf_presentOf (data : List Byte) (v : Byte) :
    v ∈ alphaOf (presentOf data) ↔ v ∈ data :=
  (mem_alphaOf _ v).trans (getLsbD_presentOf data v)

/-- A non-empty block has a byte value in ALPHA (R162). -/
theorem alphaOf_presentOf_length_pos {data : List Byte} (h : data ≠ []) :
    1 ≤ (alphaOf (presentOf data)).length := by
  obtain ⟨x, hx⟩ := List.exists_mem_of_ne_nil data h
  exact List.length_pos_of_mem ((mem_alphaOf_presentOf data x).mpr hx)

/-! ### SYM_ANALYZE -/

theorem exec_symAnalyze (s : State) :
    exec .symAnalyze s =
      .next { s with present := presentOf s.bwtOut, alpha := alphaOf (presentOf s.bwtOut) } := rfl

/-- Settles O23: a bit of PRESENT for each byte that occurs, and ALPHA filters `0 .. 255` by it. -/
theorem symbolSetListsOccurringBytes : Obligations.SymbolSetListsOccurringBytes := by
  intro s
  exact ⟨_, exec_symAnalyze s, rfl, getLsbD_presentOf s.bwtOut, mem_alphaOf_presentOf s.bwtOut,
    alphaOf_ascending _, alphaOf_length_le _, alphaOf_presentOf_length_pos⟩

end Sys2Proof.Machine
end

section
/-! PROOFS. What an accepted byte does to the open block, by the place of the byte in the open unit
(43_rle1_block.md R174 to R177). -/

namespace Sys2Proof.Machine

variable {cap : Nat} {x : Byte} {b b' c : Block} {l : List Byte}

/-! ### The open unit -/

/-- The length byte of a unit of `u` copies, if it has one (R170). -/
def lengthByte (u : Nat) : List Byte := if 4 ≤ u then [BitVec.ofNat 8 (u - 4)] else []

theorem lengthByte_of_le {u : Nat} (h : u ≤ 3) : lengthByte u = [] := if_neg (by omega)

theorem lengthByte_of_ge {u : Nat} (h : 4 ≤ u) : lengthByte u = [BitVec.ofNat 8 (u - 4)] := if_pos h

theorem lengthPending_iff {n : BitVec 9} : lengthPending n = true ↔ 4 ≤ n.toNat := decide_eq_true_iff

theorem Block.pending_eq (b : Block) : b.pending = lengthByte b.runLen.toNat := by
  simp only [Block.pending, lengthPending_iff]
  rfl

theorem Block.eff_eq_lengthByte (b : Block) :
    b.eff = b.buf.length + (lengthByte b.runLen.toNat).length := by
  rw [Block.eff_eq, Block.pending_eq]

theorem Block.continues_iff :
    b.continues x = true ↔ b.runByte = x ∧ 1 ≤ b.runLen.toNat ∧ b.runLen.toNat ≤ 258 := by
  have hzero : b.runLen = 0 ↔ b.runLen.toNat = 0 := BitVec.toNat_inj.symm
  have hunit : b.runLen.toNat < Config.rle1Unit ↔ b.runLen.toNat ≤ 258 := Nat.lt_succ_iff
  simp only [Block.continues, Bool.and_eq_true, bne_iff_ne, beq_iff_eq, decide_eq_true_iff, hunit,
    ne_eq, hzero, Nat.one_le_iff_ne_zero]
  tauto

/-- RUN_LEN does not wrap within a unit. -/
theorem runLen_succ_toNat {n : BitVec 9} (h : n.toNat ≤ 258) : (n + 1).toNat = n.toNat + 1 := by
  bv_omega

/-! ### The three places of an accepted byte -/

/-- Copies 2 to 4 of the open unit's byte are literals; the fourth needs room for the length byte too
(R175). -/
theorem Block.accept_taken_literal (h : b.accept cap x = .taken b') (hx : b.runByte = x)
    (h1 : 1 ≤ b.runLen.toNat) (h3 : b.runLen.toNat ≤ 3) :
    b.eff + (if b.runLen.toNat = 3 then 2 else 1) ≤ cap ∧
      b' = ({ b with buf := b.buf ++ [x], runLen := b.runLen + 1 } : Block).fold x := by
  have hcont : b.continues x = true := Block.continues_iff.mpr ⟨hx, h1, by omega⟩
  have hthree : b.runLen = 3 ↔ b.runLen.toNat = 3 := BitVec.toNat_inj.symm
  obtain ⟨-, hp, -⟩ | ⟨-, -, hroom, -, hb⟩ | ⟨hc, -⟩ := Block.accept_taken.mp h
  · have := lengthPending_iff.mp hp
    omega
  · simp only [hthree] at hroom
    exact ⟨hroom, hb⟩
  · simp [hcont] at hc

/-- Copies 5 to 259 are counted and take no room (R176). -/
theorem Block.accept_taken_counted (h : b.accept cap x = .taken b') (hx : b.runByte = x)
    (h4 : 4 ≤ b.runLen.toNat) (hu : b.runLen.toNat ≤ 258) :
    b' = ({ b with runLen := b.runLen + 1 } : Block).fold x := by
  have hcont : b.continues x = true := Block.continues_iff.mpr ⟨hx, by omega, hu⟩
  obtain ⟨-, -, hb⟩ | ⟨-, hp, -⟩ | ⟨hc, -⟩ := Block.accept_taken.mp h
  · exact hb
  · simp [lengthPending_iff.mpr h4] at hp
  · simp [hcont] at hc

/-- Any other byte starts a unit, after the length byte of the one before it (R177). -/
theorem Block.accept_taken_newUnit (h : b.accept cap x = .taken b')
    (hnew : b.runByte ≠ x ∨ b.runLen.toNat = 0 ∨ 259 ≤ b.runLen.toNat) :
    b.eff + 1 ≤ cap ∧
      b' = ({ b with buf := b.buf ++ (b.pending ++ [x]), runByte := x, runLen := 1 } : Block).fold x := by
  have hcont : ¬ b.continues x = true := by
    rw [Block.continues_iff]
    rintro ⟨hx, h1, hu⟩
    obtain hne | hend := hnew
    · exact hne hx
    · omega
  obtain ⟨hc, -⟩ | ⟨hc, -⟩ | ⟨-, hroom, -, hb⟩ := Block.accept_taken.mp h
  · exact absurd hc hcont
  · exact absurd hc hcont
  · exact ⟨hroom, hb⟩

/-- Every offered byte is in one of the three places. -/
theorem Block.place_cases (b : Block) (x : Byte) :
    (b.runByte = x ∧ 1 ≤ b.runLen.toNat ∧ b.runLen.toNat ≤ 3) ∨
    (b.runByte = x ∧ 4 ≤ b.runLen.toNat ∧ b.runLen.toNat ≤ 258) ∨
    (b.runByte ≠ x ∨ b.runLen.toNat = 0 ∨ 259 ≤ b.runLen.toNat) := by
  by_cases hx : b.runByte = x
  · simp only [hx, true_and, ne_eq, not_true_eq_false, false_or]
    omega
  · exact .inr (.inr (.inl hx))

/-! ### The invariant of the open block -/

/-- The open block is within a capacity, its unit within 259 copies and after a literal (R170, R173). -/
structure Block.Bounded (cap : Nat) (b : Block) : Prop where
  eff : b.eff ≤ cap
  unit : b.runLen.toNat ≤ 259
  literal : b.runLen ≠ 0 → b.buf ≠ []

theorem State.blockBounded_iff {s : State} :
    s.BlockBounded ↔ s.block.Bounded s.cap.toNat ∧ s.cap.toNat ≤ 900000 :=
  ⟨fun h => ⟨⟨h.eff, h.unit, h.literal⟩, h.cap⟩,
    fun ⟨hb, hc⟩ => ⟨hb.eff, hc, hb.unit, hb.literal⟩⟩

theorem Block.Bounded.accept (hb : b.Bounded cap) (h : b.accept cap x = .taken b') :
    b'.Bounded cap := by
  have heff := hb.eff
  rw [Block.eff_eq_lengthByte] at heff
  obtain ⟨hx, h1, h3⟩ | ⟨hx, h4, hu⟩ | hnew := b.place_cases x
  · obtain ⟨hroom, rfl⟩ := Block.accept_taken_literal h hx h1 h3
    have hlen := runLen_succ_toNat (n := b.runLen) (by omega)
    refine ⟨?_, ?_, by simp⟩
    · rw [Block.eff_eq_lengthByte, lengthByte_of_le h3] at hroom
      simp only [Block.eff_eq_lengthByte, Block.fold_buf, Block.fold_runLen, hlen,
        List.length_append, List.length_singleton]
      split at hroom
      · next hthree =>
        rw [lengthByte_of_ge (by omega), List.length_singleton]
        exact hroom
      · next hthree =>
        rw [lengthByte_of_le (by omega)]
        exact hroom
    · simp only [Block.fold_runLen, hlen]
      omega
  · obtain rfl := Block.accept_taken_counted h hx h4 hu
    have hlen := runLen_succ_toNat hu
    have hopen : b.runLen ≠ 0 := by
      intro hz
      simp [hz] at h4
    refine ⟨?_, ?_, fun _ => hb.literal hopen⟩
    · rw [lengthByte_of_ge h4] at heff
      simp only [Block.eff_eq_lengthByte, Block.fold_buf, Block.fold_runLen, hlen]
      rw [lengthByte_of_ge (by omega)]
      exact heff
    · simp only [Block.fold_runLen, hlen]
      omega
  · obtain ⟨hroom, rfl⟩ := Block.accept_taken_newUnit h hnew
    refine ⟨?_, by simp, by simp⟩
    rw [Block.eff_eq] at hroom
    simpa [Block.eff_eq_lengthByte, lengthByte, Nat.add_assoc] using hroom

theorem Block.Bounded.accepts (hb : b.Bounded cap) (h : Block.Accepts cap b l c) : c.Bounded cap :=
  h.keeps (fun _ _ _ hb => hb.accept) hb

/-- Closing the open unit turns its pending length byte into a committed one (R179). -/
theorem Block.Bounded.finish (hb : b.Bounded cap) :
    ({ b with buf := b.buf ++ b.pending, runLen := 0 } : Block).Bounded cap := by
  refine ⟨?_, by simp, by simp⟩
  have heff := hb.eff
  rw [Block.eff_eq] at heff
  simpa [Block.eff_eq_lengthByte, lengthByte] using heff

end Sys2Proof.Machine
end

section
/-! PROOFS. Every operation keeps the open block within its capacity (43_rle1_block.md R173), and so does
a step. -/

namespace Sys2Proof.Machine

variable {P : State → Prop} {s t : State} {op f g : State → Result}

/-! ### What an operation keeps -/

/-- The operation keeps `P` whenever it answers a next state. -/
def Keeps (P : State → Prop) (op : State → Result) : Prop :=
  ∀ ⦃s t : State⦄, op s = .next t → P s → P t

theorem Keeps.andThen (hf : Keeps P f) (hg : Keeps P g) :
    Keeps P fun s => Machine.andThen (f s) g := by
  intro s t he hs
  obtain ⟨u, hu, ht⟩ := andThen_eq_next.mp he
  exact hg ht (hf hu hs)

/-- What State.BlockBounded speaks of: BLK_BUF, RUN_LEN and CAP. -/
def State.extent (s : State) : List Byte × BitVec 9 × BitVec 20 := (s.blkBuf, s.runLen, s.cap)

theorem State.BlockBounded.of_extent (h : s.BlockBounded) (he : t.extent = s.extent) :
    t.BlockBounded := by
  simp only [State.extent, Prod.mk.injEq] at he
  obtain ⟨hbuf, hlen, hcap⟩ := he
  have heff : t.eff = s.eff := by rw [State.eff, State.blkLen, hbuf, hlen]; rfl
  exact ⟨by rw [heff, hcap]; exact h.eff, hcap ▸ h.cap, hlen ▸ h.unit, by
    rw [hlen, hbuf]; exact h.literal⟩

/-- A block with no byte and no open unit is within every capacity that BLK_BUF has. -/
theorem State.blockBounded_of_empty (hbuf : s.blkBuf = []) (hrun : s.runLen = 0)
    (hcap : s.cap.toNat ≤ 900000) : s.BlockBounded := by
  refine ⟨?_, hcap, by simp [hrun], by simp [hrun]⟩
  simp [State.eff, State.blkLen, hbuf, hrun, lengthPending, Config.rle1Lit]

theorem keepsBlockBounded_of_extent (h : ∀ s t, op s = .next t → t.extent = s.extent) :
    Keeps State.BlockBounded op :=
  fun s t he hs => hs.of_extent (h s t he)

theorem Keeps.atStep (h : Keeps State.BlockBounded op) (p : SerStep) :
    Keeps State.BlockBounded (Machine.atStep p op) :=
  fun _ _ he hs => h he (hs.of_extent rfl)

theorem SameButWriter.extent (h : SameButWriter s t) : t.extent = s.extent := by
  unfold SameButWriter at h; rw [h]; rfl

/-! ### The open block -/

theorem execRle1Accept_keepsBlockBounded : Keeps State.BlockBounded execRle1Accept := by
  intro s t he hs
  obtain ⟨hblock, hcap⟩ := State.blockBounded_iff.mp hs
  unfold execRle1Accept at he
  split at he
  · next a ha =>
    cases he
    obtain ⟨taken, -, htaken, -⟩ := Block.acceptAll_eq_some ha
    exact State.blockBounded_iff.mpr ⟨hblock.accepts htaken, hcap⟩
  · exact absurd he (faultInvariant_ne_next _ _ _)

theorem execRle1Finish_keepsBlockBounded : Keeps State.BlockBounded execRle1Finish := by
  intro s t he hs
  obtain ⟨hblock, hcap⟩ := State.blockBounded_iff.mp hs
  rw [execRle1Finish_next (hs.eff.trans hcap)] at he
  cases he
  exact State.blockBounded_iff.mpr ⟨hblock.finish, hcap⟩

/-! ### The units of a block -/

theorem execBwtSort_extent (h : execBwtSort s = .next t) : t.extent = s.extent := by
  unfold execBwtSort at h
  split at h
  · exact absurd h (faultInvariant_ne_next _ _ _)
  · split at h
    · exact absurd h (faultInvariant_ne_next _ _ _)
    · cases h; rfl

theorem execSymAnalyze_extent (h : execSymAnalyze s = .next t) : t.extent = s.extent := by
  cases h; rfl

theorem execMtfRun_extent (h : execMtfRun s = .next t) : t.extent = s.extent := by
  unfold execMtfRun at h
  split at h
  · exact absurd h (faultInvariant_ne_next _ _ _)
  · split at h
    · cases h; rfl
    · exact absurd h (faultInvariant_ne_next _ _ _)

theorem execRle2Run_extent (h : execRle2Run s = .next t) : t.extent = s.extent := by
  unfold execRle2Run at h
  dsimp only at h
  split at h
  · exact absurd h (faultInvariant_ne_next _ _ _)
  · cases h; rfl

theorem execHuffBuild_extent (h : execHuffBuild s = .next t) : t.extent = s.extent := by
  unfold execHuffBuild at h
  dsimp only at h
  split at h
  · exact absurd h (faultInvariant_ne_next _ _ _)
  · split at h
    · exact absurd h (faultInvariant_ne_next _ _ _)
    · split at h <;> cases h
      rfl

theorem execHuffCodes_extent (h : execHuffCodes s = .next t) : t.extent = s.extent := by
  unfold execHuffCodes at h
  split at h
  · exact absurd h (faultInvariant_ne_next _ _ _)
  · cases h; rfl

theorem execSelMtf_extent (h : execSelMtf s = .next t) : t.extent = s.extent := by
  unfold execSelMtf at h
  split at h
  · exact absurd h (faultInvariant_ne_next _ _ _)
  · split at h
    · cases h; rfl
    · exact absurd h (faultInvariant_ne_next _ _ _)

/-- The units after RLE1_FINISH read the block and leave it. -/
theorem atStep_keepsBlockBounded (p : SerStep)
    (h : ∀ {s t : State}, op s = .next t → t.extent = s.extent) :
    Keeps State.BlockBounded (atStep p op) :=
  (keepsBlockBounded_of_extent fun _ _ => h).atStep p

/-- The transform phase, by its eight units (R270). -/
theorem blkTransform_keepsBlockBounded : Keeps State.BlockBounded blkTransform :=
  (execRle1Finish_keepsBlockBounded.atStep _).andThen <|
  (atStep_keepsBlockBounded _ execBwtSort_extent).andThen <|
  (atStep_keepsBlockBounded _ execSymAnalyze_extent).andThen <|
  (atStep_keepsBlockBounded _ execMtfRun_extent).andThen <|
  (atStep_keepsBlockBounded _ execRle2Run_extent).andThen <|
  (atStep_keepsBlockBounded _ execHuffBuild_extent).andThen <|
  (atStep_keepsBlockBounded _ execHuffCodes_extent).andThen <|
  atStep_keepsBlockBounded _ execSelMtf_extent

/-- Emission leaves the block, and completion empties it (R282). -/
theorem execBlkSerialize_keepsBlockBounded : Keeps State.BlockBounded execBlkSerialize := by
  intro s t he hs
  obtain ⟨-, u, fs, hu, -, v, rfl, hv⟩ := execBlkSerialize_next he
  have hsent : ((u.setPhase (.serialize .emit)).writeFields fs).BlockBounded :=
    (blkTransform_keepsBlockBounded hu hs).of_extent rfl
  rcases hv with ⟨-, rfl⟩ | ⟨-, rfl⟩
  · exact State.blockBounded_of_empty rfl rfl hsent.cap
  · exact hsent.of_extent rfl

/-! ### The bit writer and the stream uops -/

theorem execBwWriteBits_keepsBlockBounded (n : BitVec 7) (v : BitVec 64) :
    Keeps State.BlockBounded (execBwWriteBits n v) := by
  refine keepsBlockBounded_of_extent fun s t he => ?_
  unfold execBwWriteBits at he
  split at he
  · exact absurd he (faultInvariant_ne_next _ _ _)
  · cases he
    rfl

theorem execBwPad_keepsBlockBounded : Keeps State.BlockBounded execBwPad :=
  keepsBlockBounded_of_extent fun s t he => by cases he; rfl

theorem execBwRawBytes_keepsBlockBounded (d : List Byte) :
    Keeps State.BlockBounded (execBwRawBytes d) := by
  refine keepsBlockBounded_of_extent fun s t he => ?_
  unfold execBwRawBytes at he
  split at he
  · cases he
    rfl
  · split at he
    · cases he
    · cases he
      rfl

theorem execCrcUpdate_keepsBlockBounded (crc : Word) (d : List Byte) :
    Keeps State.BlockBounded (execCrcUpdate crc d) :=
  keepsBlockBounded_of_extent fun s t he => by cases he; rfl

theorem execCrcCombine_keepsBlockBounded (a b : Word) :
    Keeps State.BlockBounded (execCrcCombine a b) :=
  keepsBlockBounded_of_extent fun s t he => by cases he; rfl

theorem State.streamHeader_extent (s : State) : s.streamHeader.extent = s.extent := by
  have h := s.streamHeader_sameButWriter.extent
  generalize s.streamHeader = t at h ⊢
  exact h

theorem execStreamHeader_keepsBlockBounded : Keeps State.BlockBounded execStreamHeader :=
  keepsBlockBounded_of_extent fun s _ he => Host.Outcome.next.inj he ▸ s.streamHeader_extent

theorem execStreamFooter_keepsBlockBounded : Keeps State.BlockBounded execStreamFooter :=
  keepsBlockBounded_of_extent fun s _ he =>
    Host.Outcome.next.inj he ▸ s.streamFooter_sameButWriter.extent

/-! ### The parts of a command -/

theorem State.openStream_extent (s : State) : s.openStream.extent = s.extent := by
  unfold State.openStream
  split
  case h_2 => exact (s.setPhase .header).streamHeader_extent
  all_goals rfl

theorem serializeOpen_keepsBlockBounded : Keeps State.BlockBounded serializeOpen := by
  intro s t he hs
  unfold serializeOpen at he
  split at he
  · cases he
    exact hs
  · exact execBlkSerialize_keepsBlockBounded he hs

theorem blockCycle_keepsBlockBounded (fuel : Nat) : Keeps State.BlockBounded (blockCycle fuel) := by
  induction fuel with
  | zero => exact fun s t he _ => absurd he (faultInvariant_ne_next _ _ _)
  | succ fuel ih =>
    intro s t he hs
    obtain ⟨u, hu, v, hv, hend⟩ := blockCycle_next he
    have haccepted : u.BlockBounded := execRle1Accept_keepsBlockBounded hu (hs.of_extent rfl)
    have hpass : v.BlockBounded := by
      rcases hv with ⟨-, hser⟩ | ⟨-, rfl⟩
      · exact execBlkSerialize_keepsBlockBounded hser (haccepted.of_extent rfl)
      · exact haccepted
    rcases hend with ⟨-, rfl⟩ | ⟨-, -, rfl⟩ | ⟨-, -, hrest⟩
    · exact hpass
    · exact hpass
    · exact ih hrest hpass

theorem writeBody_keepsBlockBounded : Keeps State.BlockBounded writeBody := by
  intro s t he hs
  have hopen := hs.of_extent s.openStream_extent
  unfold writeBody at he
  dsimp only at he
  split at he
  · cases he
    exact hopen
  · exact blockCycle_keepsBlockBounded _ he hopen

theorem closeBody_keepsBlockBounded : Keeps State.BlockBounded closeBody := by
  intro s t he hs
  have hopen := hs.of_extent s.openStream_extent
  unfold closeBody at he
  dsimp only at he
  split at he
  · cases he
    exact hopen
  · obtain ⟨u, hu, he⟩ := andThen_eq_next.mp he
    have hser := serializeOpen_keepsBlockBounded hu hopen
    split at he
    · cases he
      exact hser
    · have hfoot : (u.setPhase .footer).streamFooter.BlockBounded :=
        hser.of_extent (State.streamFooter_sameButWriter _).extent
      generalize (u.setPhase .footer).streamFooter = v at he hfoot
      cases he
      split
      · exact hfoot.of_extent rfl
      · exact hfoot

/-! ### The host commands -/

/-- A level has a capacity that BLK_BUF has (R25). -/
theorem levelOf_capOf_le {lv level : BitVec 4} (h : levelOf lv = some level) :
    (capOf level).toNat ≤ 900000 := by
  obtain ⟨-, hhigh⟩ := levelOf_bounds h
  rw [capOf_toNat hhigh]
  omega

theorem execConfig_keepsBlockBounded (lv : BitVec 4) :
    Keeps State.BlockBounded (execConfig lv) := by
  intro s t he hs
  unfold execConfig at he
  split at he
  · next level hlevel =>
    cases he
    exact State.blockBounded_of_empty rfl rfl (levelOf_capOf_le hlevel)
  · cases he
    exact hs.of_extent rfl

theorem finishWrite_extent (n : BitVec 24) (s : State) : (finishWrite n s).extent = s.extent := by
  unfold finishWrite
  split <;> rfl

theorem execWrite_keepsBlockBounded (n : BitVec 24) : Keeps State.BlockBounded (execWrite n) := by
  intro s t he hs
  obtain ⟨-, ⟨e, -, rfl⟩ | ⟨-, u, hu, rfl⟩⟩ := execWrite_next he
  · exact hs.of_extent rfl
  · exact (writeBody_keepsBlockBounded hu (hs.of_extent rfl)).of_extent (finishWrite_extent n u)

theorem execFlush_keepsBlockBounded : Keeps State.BlockBounded execFlush := by
  intro s t he hs
  obtain ⟨e, -, rfl⟩ | ⟨-, u, hu, rfl⟩ := execFlush_next he
  · exact hs.of_extent rfl
  · exact (serializeOpen_keepsBlockBounded hu hs).of_extent rfl

theorem execClose_keepsBlockBounded : Keeps State.BlockBounded execClose := by
  intro s t he hs
  obtain ⟨e, -, rfl⟩ | ⟨-, u, hu, rfl⟩ := execClose_next he
  · exact hs.of_extent rfl
  · exact (closeBody_keepsBlockBounded hu hs).of_extent rfl

theorem execReset_keepsBlockBounded : Keeps State.BlockBounded execReset := by
  intro s t he hs
  unfold execReset at he
  split at he <;> cases he
  case h_1 => exact hs.of_extent rfl
  all_goals exact State.blockBounded_of_empty rfl rfl hs.cap

/-! ### The step -/

theorem exec_keepsBlockBounded (i : Instr) : Keeps State.BlockBounded (exec i) := by
  cases i with
  | config lv => exact execConfig_keepsBlockBounded lv
  | write n => exact execWrite_keepsBlockBounded n
  | flush => exact execFlush_keepsBlockBounded
  | close => exact execClose_keepsBlockBounded
  | reset => exact execReset_keepsBlockBounded
  | bwWriteBits n v => exact execBwWriteBits_keepsBlockBounded n v
  | bwPad => exact execBwPad_keepsBlockBounded
  | bwRawBytes d => exact execBwRawBytes_keepsBlockBounded d
  | crcUpdate crc d => exact execCrcUpdate_keepsBlockBounded crc d
  | crcCombine a b => exact execCrcCombine_keepsBlockBounded a b
  | symAnalyze => exact keepsBlockBounded_of_extent fun _ _ => execSymAnalyze_extent
  | rle1Accept => exact execRle1Accept_keepsBlockBounded
  | rle1Finish => exact execRle1Finish_keepsBlockBounded
  | bwtSort => exact keepsBlockBounded_of_extent fun _ _ => execBwtSort_extent
  | mtfRun => exact keepsBlockBounded_of_extent fun _ _ => execMtfRun_extent
  | rle2Run => exact keepsBlockBounded_of_extent fun _ _ => execRle2Run_extent
  | huffBuild => exact keepsBlockBounded_of_extent fun _ _ => execHuffBuild_extent
  | huffCodes => exact keepsBlockBounded_of_extent fun _ _ => execHuffCodes_extent
  | selMtf => exact keepsBlockBounded_of_extent fun _ _ => execSelMtf_extent
  | blkSerialize => exact execBlkSerialize_keepsBlockBounded
  | streamHeader => exact execStreamHeader_keepsBlockBounded
  | streamFooter => exact execStreamFooter_keepsBlockBounded

/-- Settles O59, by the host's next action: taking it off the queue leaves the block alone, and every
instruction keeps it within its capacity. -/
theorem stepKeepsBlockWithinCapacity : Obligations.StepKeepsBlockWithinCapacity := by
  intro s t hs he
  obtain ⟨-, hstep⟩ | ⟨w, es, -, -, hcmd⟩ | ⟨l, r, es, -, -, hstep⟩ | ⟨bytes, es, -, huop⟩ |
    ⟨-, hstep⟩ := step_cases s
  · cases hstep.symm.trans he
    exact hs
  · obtain ⟨i, -, hstep⟩ | ⟨e, -, hstep⟩ := hcmd
    · exact exec_keepsBlockBounded i (hstep.symm.trans he) (hs.of_extent rfl)
    · cases hstep.symm.trans he
      exact hs.of_extent rfl
  · cases hstep.symm.trans he
    exact hs.of_extent rfl
  · obtain ⟨i, -, hstep⟩ | ⟨e, -, hstep⟩ := huop
    · exact exec_keepsBlockBounded i (hstep.symm.trans he) (hs.of_extent rfl)
    · exact absurd (hstep.symm.trans he) (faultInvariant_ne_next _ _ _)
  · cases hstep.symm.trans he

end Sys2Proof.Machine
end

section
/-! PROOFS. RLE1_ACCEPT and RLE1_FINISH on the state: the bytes that are taken, the room of one offered
byte, and the committed length byte (43_rle1_block.md R174 to R180). -/

namespace Sys2Proof.Machine

variable {s t : State} {x : Byte}

/-! ### RLE1_ACCEPT -/

theorem Block.accepts_nil_iff {cap : Nat} {b c : Block} : Block.Accepts cap b [] c ↔ c = b :=
  ⟨fun h => by cases h; rfl, fun h => by rw [h]; exact .nil b⟩

theorem Block.accepts_cons_iff {cap : Nat} {b c : Block} {xs : List Byte} :
    Block.Accepts cap b (x :: xs) c ↔
      ∃ b', b.accept cap x = .taken b' ∧ Block.Accepts cap b' xs c :=
  ⟨fun h => by cases h with | cons hx hxs => exact ⟨_, hx, hxs⟩, fun ⟨_, hx, hxs⟩ => .cons hx hxs⟩

/-- Each accepted byte joins BCRC, and no other (R180). -/
theorem Block.Accepts.bcrc {cap : Nat} {b c : Block} {l : List Byte} (h : Block.Accepts cap b l c) :
    c.bcrc = crcUpdate b.bcrc l := by
  induction h with
  | nil b => exact (crcUpdate_nil b.bcrc).symm
  | cons hx _ ih => rw [ih, Block.accept_taken_bcrc hx, ← crcUpdate_append, List.singleton_append]

/-- From `s` to `t` exactly the bytes `taken` of the input were accepted, and the loop of R174 ended: at
the end of the input, with the fill test of R178, or at a refused byte. -/
structure AcceptsPrefix (s t : State) (taken : List Byte) : Prop where
  input : s.writeIn = taken ++ t.writeIn
  accepts : Block.Accepts s.cap.toNat s.block taken t.block
  count : t.uopRet = BitVec.ofNat 32 taken.length
  stop : (t.writeIn = [] ∧ t.blkFull = (t.eff == s.cap.toNat)) ∨
    (t.blkFull = true ∧ ∃ x xs, t.writeIn = x :: xs ∧ t.block.accept s.cap.toNat x = .full)
  frame : t = { s.setBlock t.block with
                blkFull := t.blkFull, writeIn := t.writeIn, uopRet := t.uopRet }

theorem AcceptsPrefix.cap {taken : List Byte} (h : AcceptsPrefix s t taken) : t.cap = s.cap := by
  rw [h.frame]; rfl

theorem exec_rle1Accept (h : s.BlockBounded) :
    ∃ t taken, exec .rle1Accept s = .next t ∧ t.BlockBounded ∧ AcceptsPrefix s t taken := by
  obtain ⟨a, ha, hexec⟩ := execRle1Accept_next h.cap
  obtain ⟨taken, hinput, haccepts, hstop⟩ := Block.acceptAll_eq_some ha
  refine ⟨_, taken, hexec, execRle1Accept_keepsBlockBounded hexec h, hinput, haccepts, ?_, hstop, rfl⟩
  simp [hinput]

/-- A refused byte had not the room it needs (R178). -/
theorem AcceptsPrefix.refused {taken xs : List Byte} (h : AcceptsPrefix s t taken)
    (ht : t.BlockBounded) (hin : t.writeIn = x :: xs) : t.cap.toNat < t.eff + t.roomNeeded x := by
  refine (State.accept_full_iff ht.eff ht.cap).mp ?_
  rw [h.cap]
  obtain ⟨hnil, -⟩ | ⟨-, y, ys, hcons, hfull⟩ := h.stop
  · simp [hnil] at hin
  · obtain ⟨rfl, -⟩ := List.cons.inj (hin.symm.trans hcons)
    exact hfull

/-- BLK_FULL is set exactly when a byte is left over or the block is exactly filled (R178). -/
theorem AcceptsPrefix.blkFull_iff {taken : List Byte} (h : AcceptsPrefix s t taken) :
    t.blkFull = true ↔ t.writeIn ≠ [] ∨ t.eff = t.cap.toNat := by
  obtain ⟨hnil, hfull⟩ | ⟨hfull, y, ys, hcons, -⟩ := h.stop
  · simp [hnil, hfull, h.cap]
  · simp [hcons, hfull]

/-- Settles O24: the loop takes the bytes in order, and stops at their end or at a byte it refuses. -/
theorem rle1AcceptTakesPrefix : Obligations.Rle1AcceptTakesPrefix := by
  intro s hs
  obtain ⟨t, taken, hexec, ht, h⟩ := exec_rle1Accept hs
  exact ⟨t, taken, hexec, h.input, h.count, h.accepts.bcrc, h.blkFull_iff,
    fun x xs => h.refused ht, h.frame⟩

/-! ### The room of one offered byte -/

theorem State.roomNeeded_newUnit (h : s.runByte ≠ x ∨ s.runLen = 0 ∨ s.runLen.toNat = 259) :
    s.roomNeeded x = 1 := by
  refine if_neg ?_
  rintro ⟨hx, hopen, hle⟩
  obtain hne | hz | hend := h
  · exact hne hx
  · exact hopen hz
  · omega

/-- A copy of the open unit's byte needs room by its number (R175, R176). -/
theorem State.roomNeeded_copy (hx : s.runByte = x) (h1 : 1 ≤ s.runLen.toNat)
    (hu : s.runLen.toNat ≤ 258) :
    s.roomNeeded x =
      if s.runLen.toNat ≤ 2 then 1 else if s.runLen.toNat = 3 then 2 else 0 := by
  refine if_pos ⟨hx, ?_, hu⟩
  intro hz
  simp [hz] at h1

/-- One offered byte is accepted, or it is refused and the block stays as it is (R174). -/
theorem AcceptsPrefix.singleton_cases {taken : List Byte} (h : AcceptsPrefix s t taken)
    (hin : s.writeIn = [x]) :
    (t.writeIn = [] ∧ s.block.accept s.cap.toNat x = .taken t.block) ∨
    (t = { s with blkFull := true, uopRet := 0 } ∧ t.writeIn = [x]) := by
  have hinput := h.input
  have haccepts := h.accepts
  rw [hin] at hinput
  obtain ⟨rfl, hrest⟩ | ⟨rfl, hrest⟩ := List.singleton_eq_append_iff.mp hinput
  · right
    have hblock : t.block = s.block := Block.accepts_nil_iff.mp haccepts
    have hfull : t.blkFull = true := h.blkFull_iff.mpr (.inl (by simp [hrest]))
    refine ⟨?_, hrest⟩
    rw [h.frame, hblock, hfull, h.count, hrest, ← hin]
    rfl
  · left
    obtain ⟨b, htaken, hend⟩ := Block.accepts_cons_iff.mp haccepts
    rw [Block.accepts_nil_iff.mp hend]
    exact ⟨hrest, htaken⟩

theorem State.eff_eq_lengthByte (s : State) :
    s.eff = s.blkBuf.length + (lengthByte s.runLen.toNat).length :=
  s.block.eff_eq_lengthByte

section

variable {cap : Nat} (h : s.block.accept cap x = .taken t.block)
include h

theorem taken_literal (hx : s.runByte = x) (h1 : 1 ≤ s.runLen.toNat) (h3 : s.runLen.toNat ≤ 3) :
    s.eff + (if s.runLen.toNat = 3 then 2 else 1) ≤ cap ∧ t.blkBuf = s.blkBuf ++ [x] ∧
      t.runLen = s.runLen + 1 :=
  have ⟨hroom, hb⟩ := Block.accept_taken_literal h hx h1 h3
  ⟨hroom, congrArg Block.buf hb, congrArg Block.runLen hb⟩

theorem taken_counted (hx : s.runByte = x) (h4 : 4 ≤ s.runLen.toNat) (hu : s.runLen.toNat ≤ 258) :
    t.blkBuf = s.blkBuf ∧ t.runLen = s.runLen + 1 :=
  have hb := Block.accept_taken_counted h hx h4 hu
  ⟨congrArg Block.buf hb, congrArg Block.runLen hb⟩

theorem taken_newUnit (hnew : s.runByte ≠ x ∨ s.runLen = 0 ∨ s.runLen.toNat = 259) :
    s.eff + 1 ≤ cap ∧ t.runByte = x ∧ t.runLen = 1 ∧
      t.blkBuf = s.blkBuf ++ lengthByte s.runLen.toNat ++ [x] := by
  have ⟨hroom, hb⟩ := Block.accept_taken_newUnit h
    (hnew.imp_right (Or.imp (fun hz => congrArg BitVec.toNat hz) Eq.ge))
  refine ⟨hroom, congrArg Block.runByte hb, congrArg Block.runLen hb, ?_⟩
  rw [List.append_assoc]
  exact (congrArg Block.buf hb).trans (by rw [Block.pending_eq]; rfl)

end

/-- Settles O26: by whether the byte was taken, and then by its place in the open unit. A refused byte
had less room than it needs. -/
theorem rle1RoomOfAnOfferedByte : Obligations.Rle1RoomOfAnOfferedByte := by
  intro s x room hs hin hroom
  obtain ⟨t, taken, hexec, ht, h⟩ := exec_rle1Accept hs
  refine ⟨t, hexec, ?_⟩
  obtain ⟨hrest, htaken⟩ | ⟨hsame, hrest⟩ := h.singleton_cases hin
  · refine ⟨fun hx h1 h2 => ?_, fun hx h3 => ?_, fun hx h4 hu => ?_, fun hnew => ?_⟩
    · obtain ⟨hneed, hbuf, hlen⟩ := taken_literal htaken hx h1 (by omega)
      rw [if_neg (by omega)] at hneed
      exact ⟨fun _ => ⟨hbuf, hlen, hrest⟩, fun _ => by omega⟩
    · obtain ⟨hneed, hbuf, hlen⟩ := taken_literal htaken hx (by omega) (by omega)
      rw [if_pos h3] at hneed
      have hfour : t.runLen = 4 := by rw [hlen]; exact BitVec.eq_of_toNat_eq (by simp [h3])
      refine ⟨fun _ => ⟨hbuf, hfour, ?_, hrest⟩, fun _ => by omega⟩
      rw [t.eff_eq_lengthByte, s.eff_eq_lengthByte, hbuf, hfour, h3]
      simp [lengthByte]
    · obtain ⟨hbuf, hlen⟩ := taken_counted htaken hx h4 hu
      refine ⟨hbuf, hlen, ?_, hrest⟩
      rw [t.eff_eq_lengthByte, s.eff_eq_lengthByte, hbuf, hlen, runLen_succ_toNat hu,
        lengthByte_of_ge h4, lengthByte_of_ge (by omega)]
      rfl
    · obtain ⟨hneed, hbyte, hlen, hbuf⟩ := taken_newUnit htaken hnew
      refine ⟨fun _ => ⟨hbyte, hlen, ?_, hrest, hbuf⟩, fun _ => by omega⟩
      rw [t.eff_eq_lengthByte, s.eff_eq_lengthByte, hbuf, hlen]
      simp [lengthByte, Nat.add_assoc]
  · have hneed : s.cap.toNat < s.eff + s.roomNeeded x := by
      have := h.refused ht hrest
      rwa [hsame] at this
    refine ⟨fun hx h1 h2 => ?_, fun hx h3 => ?_, fun hx h4 hu => ?_, fun hnew => ?_⟩
    · rw [State.roomNeeded_copy hx h1 (by omega), if_pos h2] at hneed
      exact ⟨fun _ => by omega, fun _ => hsame⟩
    · rw [State.roomNeeded_copy hx (by omega) (by omega), if_neg (by omega), if_pos h3] at hneed
      exact ⟨fun _ => by omega, fun _ => hsame⟩
    · rw [State.roomNeeded_copy hx (by omega) hu, if_neg (by omega), if_neg (by omega)] at hneed
      omega
    · rw [State.roomNeeded_newUnit hnew] at hneed
      exact ⟨fun _ => by omega, fun _ => hsame⟩

/-! ### RLE1_FINISH -/

theorem exec_rle1Finish (h : s.BlockBounded) :
    exec .rle1Finish s =
      .next { s with blkBuf := s.blkBuf ++ s.block.pending, runLen := 0 } :=
  execRle1Finish_next (h.eff.trans h.cap)

/-- Settles O27: the pending length byte is counted in EFF before it is committed (R172). -/
theorem rle1FinishCommitsLengthByte : Obligations.Rle1FinishCommitsLengthByte := by
  intro s hs
  refine ⟨_, exec_rle1Finish hs, by rw [Block.pending_eq]; rfl, ?_⟩
  rw [State.blkLen, List.length_append]
  exact s.block.eff_eq.symm

end Sys2Proof.Machine
end

section
/-! PROOFS. The RLE1 code of a byte sequence, written from its runs: what one more byte adds to it, and
that the decoder reads it back (43_rle1_block.md R170, R184). -/

namespace Sys2Proof.Machine

variable {d L : List Byte} {x y : Byte} {l : List (Byte × Nat)} {r u : Nat}

/-! ### Maximal runs -/

/-- `l` lists the maximal runs of `d`: neighbours have different values and no run is empty. -/
structure IsRuns (d : List Byte) (l : List (Byte × Nat)) : Prop where
  distinct : l.IsChain fun p q => p.1 ≠ q.1
  pos : ∀ p ∈ l, 1 ≤ p.2
  bytes : l.flatMap (fun p => List.replicate p.2 p.1) = d

/-- A byte in front joins the first run, or stands as a run of its own. -/
theorem runsOf_cons_cases (x : Byte) (xs : List Byte) :
    (∃ n rest, runsOf xs = (x, n) :: rest ∧ runsOf (x :: xs) = (x, n + 1) :: rest) ∨
    ((∀ p ∈ (runsOf xs).head?, x ≠ p.1) ∧ runsOf (x :: xs) = (x, 1) :: runsOf xs) := by
  rw [runsOf]
  rcases hruns : runsOf xs with _ | ⟨⟨y, n⟩, rest⟩
  · exact .inr ⟨by simp, rfl⟩
  · by_cases hx : x = y
    · subst hx
      exact .inl ⟨n, rest, rfl, if_pos rfl⟩
    · exact .inr ⟨by simpa using hx, if_neg hx⟩

theorem isRuns_runsOf (d : List Byte) : IsRuns d (runsOf d) := by
  induction d with
  | nil => exact ⟨.nil, by simp [runsOf], rfl⟩
  | cons x xs ih =>
    obtain ⟨n, rest, hxs, hruns⟩ | ⟨hne, hruns⟩ := runsOf_cons_cases x xs
    · rw [hxs] at ih
      rw [hruns]
      refine ⟨List.isChain_cons.mpr (List.isChain_cons.mp ih.distinct), ?_, ?_⟩
      · exact List.forall_mem_cons.mpr ⟨by simp, (List.forall_mem_cons.mp ih.pos).2⟩
      · have hbytes := ih.bytes
        rw [List.flatMap_cons] at hbytes ⊢
        rw [List.replicate_succ, List.cons_append, hbytes]
    · rw [hruns]
      refine ⟨List.isChain_cons.mpr ⟨hne, ih.distinct⟩, ?_, ?_⟩
      · exact List.forall_mem_cons.mpr ⟨le_rfl, ih.pos⟩
      · rw [List.flatMap_cons, ih.bytes]
        rfl

/-- A run in front of a sequence that does not go on with its value. -/
theorem runsOf_replicate_append (hne : ∀ p ∈ (runsOf d).head?, x ≠ p.1) (k : Nat) :
    runsOf (List.replicate (k + 1) x ++ d) = (x, k + 1) :: runsOf d := by
  induction k with
  | zero =>
    obtain ⟨n, rest, hd, -⟩ | ⟨-, hruns⟩ := runsOf_cons_cases x d
    · exact absurd rfl (hne (x, n) (by simp [hd]))
    · exact hruns
  | succ k ih =>
    rw [List.replicate_succ, List.cons_append]
    obtain ⟨n, rest, hd, hruns⟩ | ⟨hhead, -⟩ :=
      runsOf_cons_cases x (List.replicate (k + 1) x ++ d)
    · rw [ih] at hd
      cases hd
      exact hruns
    · exact absurd rfl (hhead (x, k + 1) (by simp [ih]))

/-- A sequence has one list of maximal runs. -/
theorem IsRuns.runsOf_eq (h : IsRuns d l) : runsOf d = l := by
  induction l generalizing d with
  | nil =>
    obtain rfl : [] = d := h.bytes
    rfl
  | cons p rest ih =>
    obtain ⟨x, n⟩ := p
    obtain ⟨hne, hdistinct⟩ := List.isChain_cons.mp h.distinct
    obtain ⟨hn, hpos⟩ := List.forall_mem_cons.mp h.pos
    obtain ⟨k, rfl⟩ : ∃ k, n = k + 1 := ⟨n - 1, by simp only at hn; omega⟩
    have hrest := ih ⟨hdistinct, hpos, rfl⟩
    rw [← h.bytes, List.flatMap_cons, runsOf_replicate_append (by rwa [hrest]), hrest]

/-- One more copy of the last value. -/
theorem runsOf_append_copy {init : List (Byte × Nat)} (h : runsOf d = init ++ [(x, r)]) :
    runsOf (d ++ [x]) = init ++ [(x, r + 1)] := by
  have hd := isRuns_runsOf d
  rw [h] at hd
  refine IsRuns.runsOf_eq ⟨?_, ?_, ?_⟩
  · rw [List.isChain_append]
    simpa using List.isChain_append.mp hd.distinct
  · have hpos := hd.pos
    rw [List.forall_mem_append] at hpos ⊢
    exact ⟨hpos.1, by simp⟩
  · rw [← hd.bytes]
    simp [List.replicate_succ']

/-- A value that the last run does not have. -/
theorem runsOf_append_new (h : ∀ p ∈ (runsOf d).getLast?, p.1 ≠ x) :
    runsOf (d ++ [x]) = runsOf d ++ [(x, 1)] := by
  have hd := isRuns_runsOf d
  refine IsRuns.runsOf_eq ⟨?_, ?_, ?_⟩
  · refine List.isChain_append.mpr ⟨hd.distinct, .singleton _, fun p hp q hq => ?_⟩
    obtain rfl : (x, 1) = q := by simpa using hq
    exact h p hp
  · exact List.forall_mem_append.mpr ⟨hd.pos, by simp⟩
  · rw [List.flatMap_append, hd.bytes]
    rfl

/-! ### Units and runs -/

/-- The code of a unit: its literals, then its length byte if it has one (R170). -/
theorem unitCode_eq (x : Byte) (u : Nat) :
    unitCode x u = List.replicate (min u 4) x ++ lengthByte u := by
  unfold unitCode
  split
  · next h => rw [lengthByte_of_le h, Nat.min_eq_left (by omega), List.append_nil]
  · next h => rw [lengthByte_of_ge (by omega), Nat.min_eq_right (by omega)]

/-- A run is whole units, then a last unit of 1 to 259 copies. -/
theorem runCode_eq (x : Byte) {q : Nat} (h1 : 1 ≤ u) (hu : u ≤ 259) :
    runCode x (259 * q + u) = (List.replicate q (unitCode x 259)).flatten ++ unitCode x u := by
  unfold runCode
  obtain hlt | rfl : u < 259 ∨ u = 259 := by omega
  · rw [show (259 * q + u) / 259 = q by omega, show (259 * q + u) % 259 = u by omega]
  · rw [show (259 * q + 259) / 259 = q + 1 by omega, show (259 * q + 259) % 259 = 0 by omega,
      List.replicate_succ', List.flatten_append, List.flatten_singleton]
    exact List.append_nil _

theorem unitCode_one (x : Byte) : unitCode x 1 = [x] := rfl

theorem runCode_one (x : Byte) : runCode x 1 = [x] := rfl

theorem rle1Code_append_of_runs {init : List (Byte × Nat)} (h : runsOf d = init ++ [(x, r)]) :
    rle1Code d = (init.flatMap fun p => runCode p.1 p.2) ++ runCode x r := by
  rw [rle1Code, h, List.flatMap_append, List.flatMap_singleton]

/-! ### The run state after one more byte (R30, R170) -/

/-- The run state is that of the last run: none, or its value and the copies in its last unit. -/
theorem runStateOf_cases (h : runStateOf d y u) :
    (runsOf d = [] ∧ u = 0) ∨
    ∃ init q, runsOf d = init ++ [(y, 259 * q + u)] ∧ 1 ≤ u ∧ u ≤ 259 := by
  unfold runStateOf at h
  split at h
  · next hnone => exact .inl ⟨List.getLast?_eq_none_iff.mp hnone, h⟩
  · next z r hlast =>
    obtain ⟨rfl, hu⟩ := h
    obtain ⟨init, hruns⟩ := List.getLast?_eq_some_iff.mp hlast
    have hpos : 1 ≤ r := (isRuns_runsOf d).pos (y, r) (by simp [hruns])
    refine .inr ⟨init, (r - 1) / 259, ?_, by omega, by omega⟩
    rw [hruns, show 259 * ((r - 1) / 259) + u = r by omega]

theorem runStateOf_of_runs {init : List (Byte × Nat)} {q : Nat} (h1 : 1 ≤ u) (hu : u ≤ 259)
    (h : runsOf d = init ++ [(x, 259 * q + u)]) : runStateOf d x u := by
  unfold runStateOf
  rw [h, List.getLast?_concat]
  exact ⟨rfl, by omega⟩

/-- A copy of the open unit's byte makes that unit's code longer, and nothing else (R175, R176). -/
theorem rle1Code_append_copy (h : runStateOf d x u) (h1 : 1 ≤ u) (hu : u ≤ 258) :
    ∃ P, rle1Code d = P ++ unitCode x u ∧ rle1Code (d ++ [x]) = P ++ unitCode x (u + 1) ∧
      runStateOf (d ++ [x]) x (u + 1) := by
  obtain ⟨-, h0⟩ | ⟨init, q, hruns, -, -⟩ := runStateOf_cases h
  · omega
  · have hmore := runsOf_append_copy hruns
    refine ⟨(init.flatMap fun p => runCode p.1 p.2) ++
      (List.replicate q (unitCode x 259)).flatten, ?_, ?_, ?_⟩
    · rw [rle1Code_append_of_runs hruns, runCode_eq x h1 (by omega), List.append_assoc]
    · rw [rle1Code_append_of_runs hmore, Nat.add_assoc, runCode_eq x (by omega) (by omega),
        List.append_assoc]
    · exact runStateOf_of_runs (by omega) (by omega) hmore

/-- Any other byte starts a unit of its own (R177). -/
theorem rle1Code_append_newUnit (h : runStateOf d y u) (hnew : y ≠ x ∨ u = 0 ∨ 259 ≤ u) :
    rle1Code (d ++ [x]) = rle1Code d ++ [x] ∧ runStateOf (d ++ [x]) x 1 := by
  have hrun (hruns : runsOf (d ++ [x]) = runsOf d ++ [(x, 1)]) :
      rle1Code (d ++ [x]) = rle1Code d ++ [x] ∧ runStateOf (d ++ [x]) x 1 :=
    ⟨(rle1Code_append_of_runs hruns).trans (congrArg _ (runCode_one x)),
      runStateOf_of_runs (q := 0) le_rfl (by omega) hruns⟩
  obtain ⟨hnil, -⟩ | ⟨init, q, hruns, h1, hu⟩ := runStateOf_cases h
  · exact hrun (runsOf_append_new (by simp [hnil]))
  · by_cases hx : y = x
    · subst hx
      obtain rfl : u = 259 := by
        obtain hne | hend := hnew
        · exact absurd rfl hne
        · omega
      have hmore := runsOf_append_copy hruns
      refine ⟨?_, runStateOf_of_runs (q := q + 1) le_rfl (by omega) hmore⟩
      rw [rle1Code_append_of_runs hruns, rle1Code_append_of_runs hmore,
        runCode_eq y h1 hu, show 259 * q + 259 + 1 = 259 * (q + 1) + 1 by omega,
        runCode_eq y le_rfl (by omega), List.replicate_succ', List.flatten_append,
        List.flatten_singleton, unitCode_one]
      simp only [List.append_assoc]
    · exact hrun (runsOf_append_new (by simpa [hruns] using hx))

/-! ### The decoder -/

/-- Up to four copies are read as literals. -/
theorem rle1DecodeGo_literals {k : Nat} (h1 : 1 ≤ k) {j : Nat} (h4 : k + j ≤ 4) :
    rle1DecodeGo k x (List.replicate j x ++ L) = List.replicate j x ++ rle1DecodeGo (k + j) x L := by
  induction j generalizing k with
  | zero => rfl
  | succ j ih =>
    have hstep : rle1DecodeGo k x (x :: (List.replicate j x ++ L)) =
        x :: rle1DecodeGo (k + 1) x (List.replicate j x ++ L) := by
      rw [rle1DecodeGo, if_neg (by omega), if_pos ⟨by omega, rfl⟩]
    rw [List.replicate_succ, List.cons_append, hstep, ih (by omega) (by omega), List.cons_append,
      show k + 1 + j = k + (j + 1) by omega]

/-- The literals of a new unit. -/
theorem rle1DecodeGo_newUnit {j : Nat} (h1 : 1 ≤ j) (h4 : j ≤ 4) :
    rle1DecodeGo 0 0 (List.replicate j x ++ L) = List.replicate j x ++ rle1DecodeGo j x L := by
  obtain ⟨k, rfl⟩ : ∃ k, j = 1 + k := ⟨j - 1, by omega⟩
  have hstep : rle1DecodeGo 0 0 (x :: (List.replicate k x ++ L)) =
      x :: rle1DecodeGo 1 x (List.replicate k x ++ L) := by
    rw [rle1DecodeGo, if_neg (by omega), if_neg (by simp)]
  rw [Nat.add_comm 1 k, List.replicate_succ, List.cons_append, hstep,
    rle1DecodeGo_literals le_rfl (by omega), List.cons_append, Nat.add_comm 1 k]

/-- A unit of up to three copies is ended by another value. -/
theorem rle1DecodeGo_shortUnit (hu : u ≤ 3) (hL : ∀ z ∈ L.head?, x ≠ z) :
    rle1DecodeGo u x L = rle1DecodeGo 0 0 L := by
  cases L with
  | nil => rfl
  | cons z zs =>
    have hne : ¬ z = x := fun hz => hL z rfl hz.symm
    rw [rle1DecodeGo, if_neg (by omega), if_neg (by simp [hne]), rle1DecodeGo, if_neg (by omega),
      if_neg (by simp)]

/-- The length byte gives the copies after the fourth, and ends the unit. -/
theorem rle1DecodeGo_lengthByte (h4 : 4 ≤ u) (hu : u ≤ 259) :
    rle1DecodeGo 4 x (lengthByte u ++ L) = List.replicate (u - 4) x ++ rle1DecodeGo 0 0 L := by
  have hbyte : (BitVec.ofNat 8 (u - 4)).toNat = u - 4 := by
    rw [BitVec.toNat_ofNat]
    exact Nat.mod_eq_of_lt (by omega)
  rw [lengthByte_of_ge h4, List.singleton_append, rle1DecodeGo, if_pos rfl, hbyte]

theorem rle1DecodeGo_unitCode (hu : u ≤ 259) (hL : u ≤ 3 → ∀ z ∈ L.head?, x ≠ z) :
    rle1DecodeGo 0 0 (unitCode x u ++ L) = List.replicate u x ++ rle1DecodeGo 0 0 L := by
  rw [unitCode_eq, List.append_assoc]
  obtain rfl | h1 : u = 0 ∨ 1 ≤ u := by omega
  · rfl
  · rw [rle1DecodeGo_newUnit (by omega) (by omega)]
    obtain h3 | h4 : u ≤ 3 ∨ 4 ≤ u := by omega
    · rw [lengthByte_of_le h3, Nat.min_eq_left (by omega), List.nil_append,
        rle1DecodeGo_shortUnit h3 (hL h3)]
    · rw [Nat.min_eq_right h4, rle1DecodeGo_lengthByte h4 hu, ← List.append_assoc,
        ← List.replicate_add, Nat.add_sub_cancel' h4]

theorem rle1DecodeGo_runCode (hL : ∀ z ∈ L.head?, x ≠ z) (r : Nat) :
    rle1DecodeGo 0 0 (runCode x r ++ L) = List.replicate r x ++ rle1DecodeGo 0 0 L := by
  have hunits (q : Nat) (M : List Byte) :
      rle1DecodeGo 0 0 ((List.replicate q (unitCode x 259)).flatten ++ M) =
        List.replicate (q * 259) x ++ rle1DecodeGo 0 0 M := by
    induction q with
    | zero => simp
    | succ q ih =>
      rw [List.replicate_succ, List.flatten_cons, List.append_assoc,
        rle1DecodeGo_unitCode le_rfl (by omega), ih, ← List.append_assoc, ← List.replicate_add,
        Nat.add_comm 259, Nat.succ_mul]
  have hlast : r % 259 ≤ 259 := (Nat.mod_lt r (by omega)).le
  rw [runCode, List.append_assoc, hunits, rle1DecodeGo_unitCode hlast fun _ => hL,
    ← List.append_assoc, ← List.replicate_add, Nat.div_add_mod']

/-- The code of a run begins with its value. -/
theorem runCode_head (x : Byte) (h1 : 1 ≤ r) : (runCode x r).head? = some x := by
  have hunit {u : Nat} (hu : 1 ≤ u) (M : List Byte) : (unitCode x u ++ M).head? = some x := by
    obtain ⟨k, hk⟩ : ∃ k, min u 4 = k + 1 := ⟨min u 4 - 1, by omega⟩
    rw [unitCode_eq, hk]
    rfl
  obtain ⟨q, u, rfl, hu1, hu⟩ : ∃ q u, r = 259 * q + u ∧ 1 ≤ u ∧ u ≤ 259 :=
    ⟨(r - 1) / 259, (r - 1) % 259 + 1, by omega, by omega, by omega⟩
  rw [runCode_eq x hu1 hu]
  cases q with
  | zero => simpa using hunit hu1 []
  | succ q =>
    rw [List.replicate_succ, List.flatten_cons, List.append_assoc]
    exact hunit (by omega) _

/-- The codes of runs whose neighbours differ are read back run by run. -/
theorem rle1DecodeGo_runs (hdistinct : l.IsChain fun p q => p.1 ≠ q.1) (hpos : ∀ p ∈ l, 1 ≤ p.2) :
    rle1DecodeGo 0 0 (l.flatMap fun p => runCode p.1 p.2) =
      l.flatMap fun p => List.replicate p.2 p.1 := by
  induction l with
  | nil => rfl
  | cons p rest ih =>
    obtain ⟨hne, hrest⟩ := List.isChain_cons.mp hdistinct
    obtain ⟨-, hpos⟩ := List.forall_mem_cons.mp hpos
    rw [List.flatMap_cons, List.flatMap_cons, rle1DecodeGo_runCode ?_, ih hrest hpos]
    intro z hz
    cases rest with
    | nil => cases hz
    | cons q rest =>
      have hq := runCode_head q.1 (hpos q (by simp))
      rw [List.flatMap_cons, List.head?_append, hq] at hz
      obtain rfl : q.1 = z := by simpa using hz
      exact hne q rfl

/-- The RLE1 code decodes to its data (R184). -/
theorem rle1Decode_rle1Code (d : List Byte) : rle1Decode (rle1Code d) = d := by
  have hd := isRuns_runsOf d
  rw [rle1Decode, rle1Code, rle1DecodeGo_runs hd.distinct hd.pos, hd.bytes]

end Sys2Proof.Machine
end

section
/-! PROOFS. The open block holds the RLE1 code of the bytes it has accepted, and the finished block decodes
to them (43_rle1_block.md R171, R184). -/

namespace Sys2Proof.Machine

variable {cap : Nat} {x : Byte} {b b' c : Block} {d l : List Byte}

/-- State.holdsCode, of the open block. -/
def Block.HoldsCode (b : Block) (d : List Byte) : Prop :=
  b.buf ++ b.pending = rle1Code d ∧ runStateOf d b.runByte b.runLen.toNat ∧ b.bcrc = crcUpdate 0 d

theorem State.holdsCode_iff {s : State} : s.holdsCode d ↔ s.block.HoldsCode d := Iff.rfl

/-- One more copy of the open unit's byte: the literals of the unit stand at the end of the committed
bytes, and the new code has the next unit in its place. -/
theorem Block.HoldsCode.copy (h : b.HoldsCode d) (hx : b.runByte = x) (h1 : 1 ≤ b.runLen.toNat)
    (hu : b.runLen.toNat ≤ 258) :
    ∃ P, b.buf = P ++ List.replicate (min b.runLen.toNat 4) x ∧
      rle1Code (d ++ [x]) = P ++ List.replicate (min (b.runLen.toNat + 1) 4) x ++
        lengthByte (b.runLen.toNat + 1) ∧
      runStateOf (d ++ [x]) x (b.runLen.toNat + 1) := by
  obtain ⟨hcode, hstate, -⟩ := h
  rw [hx] at hstate
  obtain ⟨P, hold, hnew, hrun⟩ := rle1Code_append_copy hstate h1 hu
  refine ⟨P, ?_, by rw [hnew, unitCode_eq, List.append_assoc], hrun⟩
  rw [Block.pending_eq, hold, unitCode_eq, ← List.append_assoc] at hcode
  exact List.append_cancel_right hcode

/-- An accepted byte extends the data that the block stands for. -/
theorem Block.HoldsCode.accept (h : b.HoldsCode d) (ht : b.accept cap x = .taken b') :
    b'.HoldsCode (d ++ [x]) := by
  obtain ⟨hcode, hstate, hcrc⟩ := h
  have hcrc' : b'.bcrc = crcUpdate 0 (d ++ [x]) := by
    rw [Block.accept_taken_bcrc ht, hcrc, crcUpdate_append]
  obtain ⟨hx, h1, h3⟩ | ⟨hx, h4, hu⟩ | hnew := b.place_cases x
  · obtain ⟨-, rfl⟩ := Block.accept_taken_literal ht hx h1 h3
    obtain ⟨P, hbuf, hcode', hrun⟩ := Block.HoldsCode.copy ⟨hcode, hstate, hcrc⟩ hx h1 (by omega)
    have hlen := runLen_succ_toNat (n := b.runLen) (by omega)
    refine ⟨?_, ?_, hcrc'⟩
    · rw [Nat.min_eq_left (by omega)] at hbuf hcode'
      simp only [Block.pending_eq, Block.fold_buf, Block.fold_runLen, hlen]
      rw [hcode', hbuf, List.replicate_succ', ← List.append_assoc]
    · simp only [Block.fold_runByte, Block.fold_runLen, hlen, hx]
      exact hrun
  · obtain rfl := Block.accept_taken_counted ht hx h4 hu
    obtain ⟨P, hbuf, hcode', hrun⟩ := Block.HoldsCode.copy ⟨hcode, hstate, hcrc⟩ hx (by omega) hu
    have hlen := runLen_succ_toNat hu
    refine ⟨?_, ?_, hcrc'⟩
    · rw [Nat.min_eq_right (by omega)] at hbuf hcode'
      simp only [Block.pending_eq, Block.fold_buf, Block.fold_runLen, hlen]
      rw [hcode', hbuf]
    · simp only [Block.fold_runByte, Block.fold_runLen, hlen, hx]
      exact hrun
  · obtain ⟨-, rfl⟩ := Block.accept_taken_newUnit ht hnew
    obtain ⟨hcode', hrun⟩ := rle1Code_append_newUnit hstate hnew
    refine ⟨?_, hrun, hcrc'⟩
    rw [hcode', ← hcode]
    simp [Block.pending_eq, lengthByte]

theorem Block.HoldsCode.accepts (h : b.HoldsCode d) (ha : Block.Accepts cap b l c) :
    c.HoldsCode (d ++ l) := by
  induction ha generalizing d with
  | nil => simpa using h
  | cons hx _ ih => simpa using ih (h.accept hx)

/-- Settles O25: a fresh block holds no code, and each accepted byte extends the data. -/
theorem rle1BlockHoldsCodeOfAcceptedBytes : Obligations.Rle1BlockHoldsCodeOfAcceptedBytes := by
  refine ⟨fun s hbuf hrun hcrc => ?_, fun s d hs hcode => ?_⟩
  · refine ⟨?_, ?_, hcrc.trans (crcUpdate_nil 0).symm⟩
    · rw [Block.pending_eq, hbuf]
      simp [State.block, hrun, lengthByte, rle1Code, runsOf]
    · simp [runStateOf, runsOf, hrun]
  · obtain ⟨t, taken, hexec, -, h⟩ := exec_rle1Accept hs
    exact ⟨t, taken, hexec, h.input, (State.holdsCode_iff.mp hcode).accepts h.accepts⟩

/-- Settles O28: RLE1_FINISH commits the pending length byte, so the committed bytes are the whole code,
which decodes to the data. -/
theorem rle1FinishedBlockDecodes : Obligations.Rle1FinishedBlockDecodes := by
  intro s d hs hcode
  refine ⟨_, exec_rle1Finish hs, ?_⟩
  obtain ⟨hcode, -, -⟩ := hcode
  exact (congrArg rle1Decode hcode).trans (rle1Decode_rle1Code d)

end Sys2Proof.Machine
end

section
/-! PROOFS. BWT_SORT against the order of the rotations (44_bwt.md R200-R203): the machine's comparison is
the order of one key per rotation, so the sorted start indexes stand in that order. -/

namespace Sys2Proof.Machine

variable {S : List Byte} {i j k : Nat}

/-! ### Rotations (R200) -/

@[simp] theorem rot_length (S : List Byte) (i : Nat) : (rot S i).length = S.length := by
  simp [rot]; omega

theorem rot_eq_rotate (h : i ≤ S.length) : rot S i = S.rotate i :=
  (List.rotate_eq_drop_append_take h).symm

/-- The entries of a rotation are the bytes that R200 names. -/
theorem rot_getElem (hi : i ≤ S.length) (hk : k < (rot S i).length) :
    (rot S i)[k] = rotByte S i k := by
  have hmod : (i + k) % S.length < S.length := Nat.mod_lt _ (by rw [rot_length] at hk; omega)
  simp only [rot_eq_rotate hi, List.getElem_rotate, rotByte, Nat.add_comm k i]
  exact (List.getElem_eq_getD 0)

/-! ### The order of rotations (R201, R202) -/

/-- The byte comparison is the lexicographic order of the byte values. -/
theorem lexCmp_compares {xs ys : List Byte} (h : xs.length = ys.length) :
    (lexCmp xs ys).Compares (xs.map BitVec.toNat) (ys.map BitVec.toNat) := by
  induction xs generalizing ys with
  | nil =>
    obtain rfl := List.length_eq_zero_iff.mp h.symm
    rfl
  | cons x xs ih =>
    cases ys with
    | nil => cases h
    | cons y ys =>
      simp only [lexCmp, List.map_cons]
      split
      next hlt => exact List.cons_lt_cons_iff.mpr (.inl hlt)
      next hlt =>
        split
        next hgt => exact List.cons_lt_cons_iff.mpr (.inl hgt)
        next hgt =>
          have hxy : x.toNat = y.toNat := by omega
          have hrest := ih (Nat.succ.inj h)
          rw [hxy]
          cases hc : lexCmp xs ys <;> rw [hc] at hrest
          case lt => exact List.cons_lt_cons_iff.mpr (.inr ⟨rfl, hrest⟩)
          case eq => exact congrArg _ hrest
          case gt => exact List.cons_lt_cons_iff.mpr (.inr ⟨rfl, hrest⟩)

/-- What rotations are ordered by: their byte values, then their start index. -/
def rotKey (S : List Byte) (i : Nat) : List Nat ×ₗ Nat := toLex ((rot S i).map BitVec.toNat, i)

theorem rotLe_iff (S : List Byte) (i j : Nat) : rotLe S i j = true ↔ rotKey S i ≤ rotKey S j := by
  have hc := lexCmp_compares (xs := rot S i) (ys := rot S j) (by simp)
  simp only [rotLe, rotKey, Prod.Lex.toLex_le_toLex]
  cases ho : lexCmp (rot S i) (rot S j) <;> rw [ho] at hc
  case lt => simp [show _ < _ from hc]
  case eq => simp [show _ = _ from hc]
  case gt => simp [(show _ < _ from hc).not_gt, (show _ < _ from hc).ne']

/-- A rotation with a smaller key differs first at a smaller byte, or is equal and starts earlier. -/
theorem rotBefore_of_rotKey_lt (hi : i < S.length) (hj : j < S.length)
    (h : rotKey S i < rotKey S j) : RotBefore S i j := by
  obtain hlt | ⟨heq, hij⟩ := Prod.Lex.toLex_lt_toLex.mp h
  · obtain ⟨-, hlen⟩ | ⟨k, hk, _, hsame, hless⟩ := List.lt_iff_exists.mp hlt
    · simp at hlen
    · rw [List.length_map, rot_length] at hk
      simp only [List.getElem_map, rot_getElem hi.le, rot_getElem hj.le] at hsame hless
      exact .inl ⟨k, hk, fun l hl => BitVec.eq_of_toNat_eq (hsame l hl), hless⟩
  · have hrot : rot S i = rot S j :=
      List.map_injective_iff.mpr (fun _ _ => BitVec.eq_of_toNat_eq) heq
    refine .inr ⟨fun k hk => ?_, hij⟩
    rw [← rot_getElem hi.le (by simpa), ← rot_getElem hj.le (by simpa)]
    simp only [hrot]

/-! ### The sorted start indexes -/

theorem lt_length_of_mem_bwtOrder (h : i ∈ bwtOrder S) : i < S.length :=
  List.mem_range.mp ((bwtOrder_perm S).mem_iff.mp h)

theorem bwtOrder_pairwise_rotLe (S : List Byte) :
    (bwtOrder S).Pairwise fun i j => rotLe S i j = true :=
  have : Std.Total fun i j => rotLe S i j = true :=
    ⟨fun i j => by simpa only [rotLe_iff] using le_total (rotKey S i) (rotKey S j)⟩
  have : IsTrans Nat fun i j => rotLe S i j = true :=
    ⟨fun i j k => by simpa only [rotLe_iff] using le_trans⟩
  List.pairwise_insertionSort _ _

theorem bwtOrder_pairwise_rotBefore (S : List Byte) : (bwtOrder S).Pairwise (RotBefore S) := by
  have hnodup : (bwtOrder S).Nodup := (bwtOrder_perm S).nodup_iff.mpr List.nodup_range
  refine ((bwtOrder_pairwise_rotLe S).and hnodup).imp_of_mem ?_
  rintro i j hi hj ⟨hle, hne⟩
  have hkey : rotKey S i ≠ rotKey S j := fun h => hne (congrArg Prod.snd (toLex.injective h))
  exact rotBefore_of_rotKey_lt (lt_length_of_mem_bwtOrder hi) (lt_length_of_mem_bwtOrder hj)
    (((rotLe_iff S i j).mp hle).lt_of_ne hkey)

/-! ### BWT_OUT and PTR -/

theorem bwtBytes_eq (hS : S ≠ []) :
    bwtBytes S = (bwtOrder S).map fun i => rotByte S i (S.length - 1) := by
  have hpos := List.length_pos_of_ne_nil hS
  simp only [bwtBytes, rotByte, Nat.add_sub_assoc hpos]

/-- In the order of the start indexes, the last bytes of the rotations are the last rotation. -/
theorem map_rotByte_last_range (S : List Byte) :
    ((List.range S.length).map fun i => rotByte S i (S.length - 1)) = rot S (S.length - 1) := by
  refine List.ext_getElem (by simp) fun k _ hk => ?_
  rw [rot_getElem (Nat.sub_le _ _) hk]
  simp [rotByte, Nat.add_comm]

/-- BWT_OUT keeps the bytes of the block (R203). -/
theorem bwtBytes_perm (hS : S ≠ []) : (bwtBytes S).Perm S := calc
  bwtBytes S = (bwtOrder S).map fun i => rotByte S i (S.length - 1) := bwtBytes_eq hS
  List.Perm _ ((List.range S.length).map fun i => rotByte S i (S.length - 1)) :=
    (bwtOrder_perm S).map _
  _ = S.rotate (S.length - 1) := (map_rotByte_last_range S).trans (rot_eq_rotate (Nat.sub_le _ _))
  List.Perm _ S := S.rotate_perm _

theorem zero_mem_bwtOrder (hS : S ≠ []) : 0 ∈ bwtOrder S :=
  (bwtOrder_perm S).mem_iff.mpr (List.mem_range.mpr (List.length_pos_of_ne_nil hS))

theorem bwtPointer_lt (hS : S ≠ []) : bwtPointer S < S.length := calc
  bwtPointer S < (bwtOrder S).length := List.idxOf_lt_length_iff.mpr (zero_mem_bwtOrder hS)
  _ = S.length := by simp [(bwtOrder_perm S).length_eq]

/-- PTR holds the place of every block that BLK_BUF can hold. -/
theorem ptr_toNat (hS : S ≠ []) (h : S.length ≤ 900000) :
    (BitVec.ofNat 24 (bwtPointer S)).toNat = bwtPointer S := by
  have hlt := bwtPointer_lt hS
  exact (BitVec.toNat_ofNat _ _).trans (Nat.mod_eq_of_lt (by omega))

theorem exec_bwtSort {s : State} (hn : s.blkBuf ≠ []) (h : s.blkBuf.length ≤ 900000) :
    exec .bwtSort s =
      .next { s with bwtOut := bwtBytes s.blkBuf, ptr := BitVec.ofNat 24 (bwtPointer s.blkBuf) } :=
  execBwtSort_next hn h

/-- Settles O29, with the machine's sorted start indexes as the order. -/
theorem bwtSortsRotations : Obligations.BwtSortsRotations := by
  refine fun s => ⟨fun hn hlen => ?_, fun hnil => if_pos hnil⟩
  refine ⟨_, bwtOrder s.blkBuf, exec_bwtSort hn hlen, rfl, bwtOrder_perm _,
    bwtOrder_pairwise_rotBefore _, bwtBytes_eq hn, ?_⟩
  rw [ptr_toNat hn hlen]
  exact List.getElem?_idxOf (zero_mem_bwtOrder hn)

/-- Settles O30: the last bytes of all rotations are a rotation of the block. -/
theorem bwtOutputIsPermutation : Obligations.BwtOutputIsPermutation := by
  intro s hn hlen
  exact ⟨_, exec_bwtSort hn hlen, bwtBytes_perm hn, (ptr_toNat hn hlen).trans_lt (bwtPointer_lt hn)⟩

end Sys2Proof.Machine
end

section
/-! PROOFS. MTF_RUN: a move-to-front decoder turns the ranks back into the data (45_mtf.md R220, R221). -/

namespace Sys2Proof.Machine

/-! ### Decoding -/

/-- The decoder moves an entry to the front as the machine does. -/
theorem mtfDecode_cons {α : Type} {l : List α} {r : Nat} {x : α} (rs : List Nat) (h : l[r]? = some x) :
    mtfDecode l (r :: rs) = x :: mtfDecode (toFront l r x) rs := by
  simp only [mtfDecode, h, toFront, List.eraseIdx_eq_take_drop_succ]

/-- A rank is the place of its value, and the rest is ranked in the list with that value in front. -/
theorem mtfGo_cons_eq_some {α : Type} [DecidableEq α] {l xs l' : List α} {x : α} {rs : List Nat}
    (h : mtfGo l (x :: xs) = some (rs, l')) :
    l[l.idxOf x]? = some x ∧
      ∃ rs', rs = l.idxOf x :: rs' ∧ mtfGo (toFront l (l.idxOf x) x) xs = some (rs', l') := by
  simp only [mtfGo] at h
  split at h
  · next hr =>
    split at h
    · next rs' _ hgo =>
      cases h
      exact ⟨List.getElem?_idxOf (List.idxOf_lt_length_iff.mp hr), rs', rfl, hgo⟩
    · cases h
  · cases h

/-- The decoder keeps the same recency list as the machine, so each rank finds its value (R220). -/
theorem mtfDecode_of_mtfGo {α : Type} [DecidableEq α] {l xs l' : List α} {rs : List Nat}
    (h : mtfGo l xs = some (rs, l')) : mtfDecode l rs = xs := by
  induction xs generalizing l rs with
  | nil => cases h; rfl
  | cons x xs ih =>
    obtain ⟨hx, rs', rfl, hgo⟩ := mtfGo_cons_eq_some h
    rw [mtfDecode_cons rs' hx, ih hgo]

/-! ### MTF_RUN -/

/-- An entry of RANKS holds every rank in a list of at most 256 entries. -/
theorem map_toNat_map_ofNat_of_lt {rs : List Nat} {m : Nat} (hm : m ≤ 256) (h : ∀ r ∈ rs, r < m) :
    (rs.map (BitVec.ofNat 8)).map BitVec.toNat = rs := by
  rw [List.map_map]
  refine (List.map_congr_left fun r hr => ?_).trans (List.map_id rs)
  exact Nat.mod_eq_of_lt ((h r hr).trans_le hm)

theorem exec_mtfRun {s : State} {rs : List Nat} {l : List Byte} (hm : s.alpha.length ≤ 256)
    (hn : s.bwtOut.length ≤ 900000) (h : mtfGo s.alpha s.bwtOut = some (rs, l)) :
    exec .mtfRun s = .next { s with mtfList := l, ranks := rs.map (BitVec.ofNat 8) } := by
  have hfits : ¬ (Config.byteValues < s.m ∨ Config.capMax < s.bwtOut.length) :=
    not_or.mpr ⟨Nat.not_lt.mpr hm, Nat.not_lt.mpr hn⟩
  calc exec .mtfRun s = execMtfRun s := rfl
    _ = _ := by rw [execMtfRun, if_neg hfits, h]

/-- Settles O31: every byte has a rank, and the bytes of RANKS are those ranks. -/
theorem mtfRanksDecodeToData : Obligations.MtfRanksDecodeToData := by
  intro s hm hn hmem
  obtain ⟨rs, l, hgo, hlen, hperm, hlt⟩ := mtfGo_isSome s.alpha s.bwtOut hmem
  have hranks := map_toNat_map_ofNat_of_lt hm hlt
  refine ⟨_, exec_mtfRun hm hn hgo, rfl, (List.length_map _).trans hlen, fun r hr => ?_, ?_, hperm⟩
  · exact hlt _ (hranks ▸ List.mem_map_of_mem hr)
  · exact (congrArg _ hranks).trans (mtfDecode_of_mtfGo hgo)

end Sys2Proof.Machine
end

section
/-! PROOFS. RLE2_RUN: the decoder of run digits and symbols gives the ranks back, and FREQ counts the
symbols (46_rle2.md R231 to R235). -/

namespace Sys2Proof.Machine

/-! ### Decoding -/

/-- Each digit halves what is left of the run (R231), so the fuel is enough. -/
theorem runValue_zeroRunGo {fuel z : Nat} (h : z ≤ fuel) : runValue (zeroRunGo fuel z) = z := by
  induction fuel generalizing z with
  | zero => exact (Nat.le_zero.mp h).symm
  | succ fuel ih =>
    unfold zeroRunGo
    split
    · next hz => exact hz.symm
    · split
      · rw [runValue, ih (by omega)]
        omega
      · rw [runValue, ih (by omega)]
        omega

theorem runValue_zeroRun (z : Nat) : runValue (zeroRun z) = z := runValue_zeroRunGo le_rfl

/-- The decoder collects the run digits, the last first. -/
theorem rle2Decode_digits_append {es : List Nat} (he : ∀ y ∈ es, y ≤ 1) (ds ys : List Nat) :
    rle2Decode ds (es ++ ys) = rle2Decode (es.reverse ++ ds) ys := by
  induction es generalizing ds with
  | nil => rfl
  | cons e es ih =>
    obtain ⟨he1, hes⟩ := List.forall_mem_cons.mp he
    rw [List.cons_append, rle2Decode, if_pos he1, ih hes, List.reverse_cons, List.append_assoc,
      List.singleton_append]

theorem rle2Decode_zeroRun_append (z : Nat) (ys : List Nat) :
    rle2Decode [] (zeroRun z ++ ys) = rle2Decode (zeroRun z).reverse ys := by
  rw [rle2Decode_digits_append (es := zeroRun z) (zeroRunGo_le_one z z), List.append_nil]

/-- The digits of a run at the end of the data stand for its zeros (R231). -/
theorem rle2Decode_zeroRun (z : Nat) : rle2Decode [] (zeroRun z) = List.replicate z 0 := by
  rw [← List.append_nil (zeroRun z), rle2Decode_zeroRun_append, rle2Decode, List.reverse_reverse,
    runValue_zeroRun]

/-- A symbol past RUNB ends the run before it and stands for the rank one below it (R232). -/
theorem rle2Decode_zeroRun_append_cons (z : Nat) {y : Nat} (hy : 1 < y) (ys : List Nat) :
    rle2Decode [] (zeroRun z ++ y :: ys) =
      List.replicate z 0 ++ (y - 1) :: rle2Decode [] ys := by
  rw [rle2Decode_zeroRun_append, rle2Decode, if_neg (Nat.not_le.mpr hy), List.reverse_reverse,
    runValue_zeroRun]

/-- The symbols stand for the pending zeros and the ranks after them. -/
theorem rle2Decode_rle2Go (rs : List Byte) (z : Nat) :
    rle2Decode [] (rle2Go rs z) = List.replicate z 0 ++ rs.map BitVec.toNat := by
  induction rs generalizing z with
  | nil => rw [rle2Go, rle2Decode_zeroRun, List.map_nil, List.append_nil]
  | cons r rs ih =>
    rw [rle2Go]
    split
    · next hr =>
      subst hr
      rw [ih, List.replicate_succ', List.append_assoc]
      rfl
    · next hr =>
      have hpos : 0 < r.toNat := Nat.pos_of_ne_zero fun h => hr (BitVec.eq_of_toNat_eq h)
      rw [rle2Decode_zeroRun_append_cons z (Nat.succ_lt_succ hpos), ih]
      rfl

/-! ### RLE2_RUN -/

/-- The body holds no symbol past `M`, over the empty alphabet too, where there is no rank
(R233). -/
theorem rle2Go_zero_le {m : Nat} {rs : List Byte} (h : ∀ r ∈ rs, r.toNat < m) :
    ∀ y ∈ rle2Go rs 0, y ≤ m := by
  cases rs with
  | nil => exact List.forall_mem_nil _
  | cons r rs => exact rle2Go_le m (Nat.zero_lt_of_lt (h r List.mem_cons_self)) (r :: rs) 0 h

/-- L is at most one more than there are ranks (R235). -/
theorem rle2Symbols_length_le (m : Nat) (rs : List Byte) :
    (rle2Symbols m rs).length ≤ rs.length + 1 := by
  rw [rle2Symbols, List.length_append]
  exact Nat.succ_le_succ (rle2Go_length rs 0)

/-- EOB stands after a body of lesser symbols (R233). -/
theorem count_eob_rle2Symbols {m : Nat} {rs : List Byte} (h : ∀ r ∈ rs, r.toNat < m) :
    (rle2Symbols m rs).count (m + 1) = 1 := by
  have hbody : m + 1 ∉ rle2Go rs 0 := fun hmem => Nat.not_succ_le_self m (rle2Go_zero_le h _ hmem)
  rw [rle2Symbols, List.count_append, List.count_eq_zero_of_not_mem hbody,
    List.count_singleton_self]

theorem exec_rle2Run {s : State} (hm : s.alpha.length ≤ 256) (hn : s.ranks.length ≤ 900000)
    (h : ∀ r ∈ s.ranks, r.toNat < s.m) :
    exec .rle2Run s = .next { s with
      sym := rle2Symbols s.m s.ranks
      freq := freqOf s.alphabetSize (rle2Symbols s.m s.ranks) } := by
  refine if_neg (not_or.mpr ⟨Nat.not_lt.mpr hm, not_or.mpr ⟨Nat.not_lt.mpr ?_, ?_⟩⟩)
  · exact (rle2Symbols_length_le s.m s.ranks).trans (Nat.succ_le_succ hn)
  · intro hany
    obtain ⟨y, hy, hlt⟩ := List.any_eq_true.mp hany
    have hlt : s.m + 1 < y := of_decide_eq_true hlt
    obtain hbody | heob := List.mem_append.mp hy
    · have := rle2Go_zero_le h y hbody
      omega
    · have := List.mem_singleton.mp heob
      omega

/-- Settles O32, with the symbols before EOB as the body. -/
theorem rle2SymbolsDecodeToRanks : Obligations.Rle2SymbolsDecodeToRanks := by
  intro s hm hn h
  exact ⟨_, rle2Go s.ranks 0, exec_rle2Run hm hn h, rfl, rfl, rle2Go_zero_le h,
    rle2Decode_rle2Go s.ranks 0⟩

/-- Settles O33; EOB alone gives the one symbol that is always there. -/
theorem rle2FrequenciesCountSymbols : Obligations.Rle2FrequenciesCountSymbols := by
  intro s hm hn h
  have hcount := count_eob_rle2Symbols h
  have hlen := rle2Symbols_length_le s.m s.ranks
  refine ⟨_, exec_rle2Run hm hn h, freqOf_eq_map_count _ _, hcount, ?_, hlen, ?_⟩
  · exact hcount.symm.trans_le List.count_le_length
  · exact hlen.trans (Nat.succ_le_succ hn)

end Sys2Proof.Machine
end

section
/-! PROOFS. HUFF_BUILD: the machine's loop merges the leaves as R244 to R246 say, and the code lengths
are the depths of the leaves of the tree it makes (47_huffman.md R247). -/

namespace Sys2Proof.Machine

variable {tie freq lens : List Nat} {heap : List HeapNode} {t u : HuffTree} {k x y d : Nat}

/-! ### The merges -/

/-- The order numbers of a heap's nodes are all different, and below the next one, `k` (R244, R245). -/
structure Numbered (k : Nat) (heap : List HeapNode) : Prop where
  distinct : (heap.map HeapNode.order).Nodup
  below : ∀ n ∈ heap, n.order < k

theorem Numbered.of_perm {heap' : List HeapNode} (h : Numbered k heap) (hp : heap.Perm heap') :
    Numbered k heap' where
  distinct := (hp.map _).nodup_iff.mp h.distinct
  below := fun n hn => h.below n (hp.mem_iff.mpr hn)

theorem Numbered.tail {n : HeapNode} (h : Numbered k (n :: heap)) : Numbered k heap where
  distinct := (List.nodup_cons.mp h.distinct).2
  below := fun m hm => h.below m (List.mem_cons_of_mem _ hm)

/-- The new node of a merge takes the next order number. -/
theorem Numbered.push {n : HeapNode} (h : Numbered k heap) (hn : n.order = k) :
    Numbered (k + 1) (n :: heap) where
  distinct := by
    refine List.nodup_cons.mpr ⟨fun hmem => ?_, h.distinct⟩
    obtain ⟨m, hm, hmk⟩ := List.mem_map.mp hmem
    have := h.below m hm
    omega
  below := by
    refine List.forall_mem_cons.mpr ⟨hn ▸ Nat.lt_succ_self _, fun m hm => ?_⟩
    exact Nat.lt_succ_of_lt (h.below m hm)

/-- A pop takes the least node: no two nodes share a place in the tie order (R246). -/
theorem popLeast_isLeast {n : HeapNode} {rest : List HeapNode} (hnum : Numbered k heap)
    (h : popLeast tie heap = some (n, rest)) : IsLeast tie heap n rest := by
  have hperm := popLeast_perm h
  refine ⟨hperm.symm, fun m hm => ?_⟩
  have hle := HeapNode.before_eq_false.mp (popLeast_least h m hm)
  have hne : tieKey tie n.order ≠ tieKey tie m.order := fun heq =>
    (List.nodup_cons.mp (hnum.of_perm hperm.symm).distinct).1
      (List.mem_map.mpr ⟨m, hm, (tieKey_injective tie heq).symm⟩)
  omega

theorem IsLeast.length_eq {n : HeapNode} {rest : List HeapNode} (h : IsLeast tie heap n rest) :
    heap.length = rest.length + 1 :=
  h.1.length_eq

theorem exists_isLeast (hnum : Numbered k heap) (h : heap ≠ []) :
    ∃ n rest, popLeast tie heap = some (n, rest) ∧ IsLeast tie heap n rest := by
  cases hpop : popLeast tie heap with
  | none => exact absurd (popLeast_eq_none.mp hpop) h
  | some r => exact ⟨r.1, r.2, rfl, popLeast_isLeast hnum hpop⟩

/-- The node that replaces `p` and `q` in merge number `k` (R245). -/
def mergedNode (k : Nat) (p q : HeapNode) : HeapNode where
  weight := p.weight + q.weight
  order := k
  tree := .node p.tree q.tree

/-- The loop's merges are those of R245, and one node, the root, is left. -/
theorem mergeLoop_merges {n : Nat} (hlen : heap.length = n + 1) (hnum : Numbered k heap) :
    ∃ root, mergeLoop tie n k heap = [root] ∧ Merges tie k heap root.tree := by
  induction n generalizing k heap with
  | zero =>
    obtain ⟨root, rfl⟩ := List.length_eq_one_iff.mp hlen
    exact ⟨root, rfl, .root k root⟩
  | succ n ih =>
    obtain ⟨p, rest, hp, hpl⟩ := exists_isLeast (tie := tie) hnum
      (List.ne_nil_of_length_eq_add_one hlen)
    have hrest : rest.length = n + 1 := Nat.succ.inj (hpl.length_eq.symm.trans hlen)
    have hnumr := (hnum.of_perm hpl.1).tail
    obtain ⟨q, left, hq, hql⟩ := exists_isLeast (tie := tie) hnumr
      (List.ne_nil_of_length_eq_add_one hrest)
    have hnuml := (hnumr.of_perm hql.1).tail
    have hstep : mergeStep tie k heap = mergedNode k p q :: left := by
      simp only [mergeStep, hp, hq, mergedNode]
    obtain ⟨root, hroot, hmerges⟩ := ih (heap := mergedNode k p q :: left)
      (hql.length_eq.symm.trans hrest) (hnuml.push rfl)
    exact ⟨root, by rw [mergeLoop, hstep, hroot], .merge hpl hql hmerges⟩

theorem leavesOf_eq_huffLeaves (freq : List Nat) : leavesOf freq = huffLeaves freq := by
  apply List.ext_getElem <;> simp +contextual [leavesOf, huffLeaves]

theorem huffLeaves_length (freq : List Nat) : (huffLeaves freq).length = freq.length := by
  simp [huffLeaves]

theorem huffLeaves_numbered (freq : List Nat) : Numbered freq.length (huffLeaves freq) where
  distinct := by simpa [huffLeaves, Function.comp_def] using List.nodup_range
  below := by simp [huffLeaves]

/-- The machine's tree is one that the leaves merge into (R244, R245). -/
theorem exists_huffTree (tie : List Nat) (h : freq ≠ []) :
    ∃ t, huffTree tie freq = some t ∧ Merges tie freq.length (huffLeaves freq) t := by
  have hpos := List.length_pos_iff.mpr h
  obtain ⟨root, hroot, hmerges⟩ := mergeLoop_merges (tie := tie) (n := freq.length - 1)
    (by rw [huffLeaves_length]; omega) (huffLeaves_numbered freq)
  exact ⟨root.tree, by rw [huffTree, leavesOf_eq_huffLeaves, hroot]; rfl, hmerges⟩

/-! ### The leaves of the tree -/

/-- The symbols of a heap: those of its trees. -/
def heapSymbols (heap : List HeapNode) : List Nat := heap.flatMap fun n => n.tree.symbols

theorem IsLeast.symbols_perm {n : HeapNode} {rest : List HeapNode} (h : IsLeast tie heap n rest) :
    (heapSymbols heap).Perm (n.tree.symbols ++ heapSymbols rest) :=
  h.1.flatMap_right _

/-- Merging keeps the leaves. -/
theorem Merges.symbols_perm (h : Merges tie k heap t) : t.symbols.Perm (heapSymbols heap) := by
  induction h with
  | root k n => simp [heapSymbols]
  | @merge k heap rest left p q t hp hq _ ih =>
    calc t.symbols.Perm ((p.tree.symbols ++ q.tree.symbols) ++ heapSymbols left) := ih
      _ = p.tree.symbols ++ (q.tree.symbols ++ heapSymbols left) := List.append_assoc ..
      List.Perm _ (p.tree.symbols ++ heapSymbols rest) := hq.symbols_perm.symm.append_left _
      List.Perm _ (heapSymbols heap) := hp.symbols_perm.symm

/-- The tree over the leaves of R244 has each symbol once. -/
theorem Merges.symbols_perm_range (h : Merges tie k (huffLeaves freq) t) :
    t.symbols.Perm (List.range freq.length) := by
  have hs : heapSymbols (huffLeaves freq) = List.range freq.length := by
    simp [heapSymbols, huffLeaves, List.flatMap_map, HuffTree.symbols]
  exact hs ▸ h.symbols_perm

theorem Merges.symbols_nodup (h : Merges tie k (huffLeaves freq) t) : t.symbols.Nodup :=
  h.symbols_perm_range.nodup_iff.mpr List.nodup_range

theorem Merges.symbols_length (h : Merges tie k (huffLeaves freq) t) :
    t.symbols.length = freq.length :=
  h.symbols_perm_range.length_eq.trans List.length_range

theorem HuffTree.symbols_length_pos (t : HuffTree) : 0 < t.symbols.length := by
  induction t with
  | leaf x => exact Nat.one_pos
  | node p q ihp ihq => rw [symbols, List.length_append]; omega

/-! ### Depths -/

theorem HuffTree.depth_node_eq_some {p q : HuffTree} (h : (node p q).depth y = some d) :
    ∃ e, d = e + 1 ∧ (p.depth y = some e ∨ q.depth y = some e) := by
  simp only [depth] at h
  split at h
  · next e he => cases h; exact ⟨e, rfl, .inl he⟩
  · split at h
    · next e he => cases h; exact ⟨e, rfl, .inr he⟩
    · cases h

theorem HuffTree.depth_eq_none (h : y ∉ t.symbols) : t.depth y = none :=
  Option.eq_none_iff_forall_ne_some.mpr fun d hd => h ((t.depth_isSome y).mp ⟨d, hd⟩)

theorem HuffTree.depth_node_left {p q : HuffTree} (h : p.depth y = some d) :
    (node p q).depth y = some (d + 1) := by
  simp only [depth, h]

theorem HuffTree.depth_node_right {p q : HuffTree} (hy : y ∉ p.symbols) (h : q.depth y = some d) :
    (node p q).depth y = some (d + 1) := by
  simp only [depth, depth_eq_none hy, h]

/-- The machine's depth of a symbol is where its leaf stands (R247). -/
theorem HuffTree.leafAt_of_depth (h : t.depth y = some d) : LeafAt y t d := by
  induction t generalizing d with
  | leaf x =>
    simp only [depth] at h
    split at h
    · next hx => cases h; exact hx ▸ .leaf
    · cases h
  | node p q ihp ihq =>
    obtain ⟨e, rfl, hp | hq⟩ := depth_node_eq_some h
    · exact .left (ihp hp)
    · exact .right (ihq hq)

/-- Every node above a leaf has another leaf below it, so no depth reaches the number of leaves. -/
theorem HuffTree.depth_lt (h : t.depth y = some d) : d < t.symbols.length := by
  induction t generalizing d with
  | leaf x =>
    simp only [depth] at h
    split at h
    · cases h; exact Nat.one_pos
    · cases h
  | node p q ihp ihq =>
    have hp := p.symbols_length_pos
    have hq := q.symbols_length_pos
    rw [symbols, List.length_append]
    obtain ⟨e, rfl, he | he⟩ := depth_node_eq_some h
    · have := ihp he
      omega
    · have := ihq he
      omega

/-- In a tree of two or more leaves none is the root (R252). -/
theorem HuffTree.one_le_depth (ht : 2 ≤ t.symbols.length) (h : t.depth y = some d) : 1 ≤ d := by
  cases t with
  | leaf x => exact absurd ht (Nat.not_succ_le_self 1)
  | node p q =>
    obtain ⟨e, rfl, -⟩ := depth_node_eq_some h
    exact Nat.succ_pos e

/-- The depths of a tree's leaves, from left to right. -/
def HuffTree.leafDepths : HuffTree → List Nat
  | .leaf _ => [0]
  | .node p q => (p.leafDepths ++ q.leafDepths).map (· + 1)

/-- They are the depths of its symbols, when these are all different. -/
theorem HuffTree.map_depth_symbols (h : t.symbols.Nodup) :
    t.symbols.map t.depth = t.leafDepths.map some := by
  induction t with
  | leaf x => simp [symbols, depth, leafDepths]
  | node p q ihp ihq =>
    obtain ⟨hp, hq, hdisj⟩ := List.nodup_append'.mp h
    have hleft : p.symbols.map (node p q).depth = (p.symbols.map p.depth).map (Option.map (· + 1)) := by
      rw [List.map_map]
      refine List.map_congr_left fun y hy => ?_
      obtain ⟨d, hd⟩ := (p.depth_isSome y).mpr hy
      simp only [Function.comp_apply, hd, depth_node_left hd, Option.map_some]
    have hright : q.symbols.map (node p q).depth = (q.symbols.map q.depth).map (Option.map (· + 1)) := by
      rw [List.map_map]
      refine List.map_congr_left fun y hy => ?_
      obtain ⟨d, hd⟩ := (q.depth_isSome y).mpr hy
      simp only [Function.comp_apply, hd, depth_node_right (fun hyp => hdisj hyp hy) hd,
        Option.map_some]
    rw [symbols, List.map_append, hleft, hright, ihp hp, ihq hq, leafDepths]
    simp

theorem HuffTree.leafDepths_length (t : HuffTree) : t.leafDepths.length = t.symbols.length := by
  induction t with
  | leaf x => rfl
  | node p q ihp ihq => simp [leafDepths, symbols, ihp, ihq]

/-- The two halves of the code space below a node (R252). -/
theorem HuffTree.sum_leafDepths {top : Nat} (t : HuffTree) (h : ∀ d ∈ t.leafDepths, d ≤ top) :
    (t.leafDepths.map fun d => 2 ^ (top - d)).sum = 2 ^ top := by
  induction t generalizing top with
  | leaf x => simp [leafDepths]
  | node p q ihp ihq =>
    simp only [leafDepths, List.forall_mem_map, List.forall_mem_append] at h
    obtain ⟨hp, hq⟩ := h
    obtain ⟨e, he⟩ := List.exists_mem_of_length_pos (p.leafDepths_length ▸ p.symbols_length_pos)
    obtain ⟨n, rfl⟩ : ∃ n, top = n + 1 := ⟨top - 1, by have := hp e he; omega⟩
    have hsum := congrArg₂ (· + ·) (ihp fun d hd => Nat.le_of_succ_le_succ (hp d hd))
      (ihq fun d hd => Nat.le_of_succ_le_succ (hq d hd))
    simpa [leafDepths, Function.comp_def, pow_succ, mul_two] using hsum

/-! ### Code lengths -/

/-- A partial function with a value everywhere on a list. -/
theorem exists_mapM_eq_some {α β : Type} {f : α → Option β} {l : List α}
    (h : ∀ x ∈ l, ∃ b, f x = some b) : ∃ r, l.mapM f = some r ∧ l.map f = r.map some := by
  induction l with
  | nil => exact ⟨[], rfl, rfl⟩
  | cons x xs ih =>
    obtain ⟨⟨b, hb⟩, hxs⟩ := List.forall_mem_cons.mp h
    obtain ⟨r, hr, hmap⟩ := ih hxs
    exact ⟨b :: r, by simp [List.mapM_cons, hb, hr], by simp [hb, hmap]⟩

/-- The machine's lengths are the depths of the leaves of a tree that R244 to R246 allow (R247). -/
theorem exists_huffLengths (tie : List Nat) (h : freq ≠ []) :
    ∃ t lens, Merges tie freq.length (huffLeaves freq) t ∧ huffLengths tie freq = some lens ∧
      (List.range freq.length).map t.depth = lens.map some := by
  obtain ⟨t, ht, hmerges⟩ := exists_huffTree tie h
  obtain ⟨lens, hlens, hmap⟩ := exists_mapM_eq_some (f := t.depth) (l := List.range freq.length)
    fun y hy => (t.depth_isSome y).mpr (hmerges.symbols_perm_range.mem_iff.mpr hy)
  exact ⟨t, lens, hmerges, by rw [huffLengths, ht]; exact hlens, hmap⟩

theorem depth_of_getElem? {n l : Nat} (h : (List.range n).map t.depth = lens.map some)
    (hl : lens[y]? = some l) : t.depth y = some l := by
  have hy := congrArg (·[y]?) h
  simp only [List.getElem?_map, hl, Option.map_some, Option.map_eq_some_iff] at hy
  obtain ⟨z, hz, hd⟩ := hy
  obtain ⟨_, rfl⟩ := List.getElem?_eq_some_iff.mp hz
  simpa using hd

/-- The lengths are the depths of the tree's leaves, in the order of the symbols. -/
theorem Merges.lengths_perm (h : Merges tie k (huffLeaves freq) t)
    (hl : (List.range freq.length).map t.depth = lens.map some) : lens.Perm t.leafDepths := by
  have hp : (lens.map some).Perm (t.leafDepths.map some) := by
    rw [← hl, ← HuffTree.map_depth_symbols h.symbols_nodup]
    exact (h.symbols_perm_range.map _).symm
  simpa [List.filterMap_map] using hp.filterMap id

/-- The lengths fill the code space (R252). -/
theorem Merges.kraftEquality {top : Nat} (h : Merges tie k (huffLeaves freq) t)
    (hl : (List.range freq.length).map t.depth = lens.map some) (htop : ∀ l ∈ lens, l ≤ top) :
    KraftEquality top lens := by
  have hp := h.lengths_perm hl
  refine ⟨htop, ((hp.map _).sum_eq).trans (t.sum_leafDepths fun d hd => ?_)⟩
  exact htop d (hp.mem_iff.mpr hd)

/-! ### HUFF_BUILD -/

theorem maxLength_le {n : Nat} (h : ∀ l ∈ lens, l ≤ n) : maxLength lens ≤ n := by
  rw [maxLength, List.foldl_eq_foldr]
  exact List.max_le_of_forall_le lens n h

/-- HUFF_BUILD where it forms no index outside FREQ and SEL (R240): the lengths are given to every
table, unless one is longer than 20 bits (R249). -/
theorem exec_huffBuild {s : State} (hf : s.freq.length = s.m + 2) (hm : s.m ≤ 256)
    (hn : s.sym.length ≤ 900050) (h : huffLengths s.tieOrder s.freq = some lens) :
    exec .huffBuild s =
      if 20 < maxLength lens then
        faultOverflow (maxLength lens)
          { s with
            nsel := BitVec.ofNat 15 (nselOf s.symLen)
            ntrees := BitVec.ofNat 3 (ntreesOf (nselOf s.symLen)) }
      else
        .next
          { s with
            nsel := BitVec.ofNat 15 (nselOf s.symLen)
            ntrees := BitVec.ofNat 3 (ntreesOf (nselOf s.symLen))
            len := List.replicate (ntreesOf (nselOf s.symLen)) lens
            sel := scheduleOf (nselOf s.symLen) (ntreesOf (nselOf s.symLen)) } := by
  have hfits : ¬ (s.freq.length < s.alphabetSize ∨ Config.byteValues < s.m ∨
      Config.selMax < nselOf s.symLen) :=
    not_or.mpr ⟨Nat.not_lt.mpr hf.ge, not_or.mpr ⟨Nat.not_lt.mpr hm,
      selMax_lt_nselOf.not.mpr (Nat.not_lt.mpr hn)⟩⟩
  have htake : s.freq.take s.alphabetSize = s.freq := List.take_of_length_le hf.le
  calc exec .huffBuild s = execHuffBuild s := rfl
    _ = _ := by simp only [execHuffBuild, if_neg hfits, htake, h]; rfl

/-- Settles O35: the tree is the one the machine's loop builds. -/
theorem huffBuildGivesCompleteLengthTables : Obligations.HuffBuildGivesCompleteLengthTables := by
  refine ⟨⟨rfl, tieKey_nil⟩, ?_⟩
  rintro s hf hm hn nsel ntrees hnsel hntrees
  obtain rfl : nsel = nselOf s.symLen := hnsel
  obtain rfl : ntrees = ntreesOf (nselOf s.symLen) := hntrees
  have hne : s.freq ≠ [] := List.ne_nil_of_length_eq_add_one hf
  obtain ⟨t, lens, hmerges, hlens, hdepth⟩ := exists_huffLengths s.tieOrder hne
  have hexec := exec_huffBuild hf hm (hn.trans (by decide)) hlens
  refine ⟨t, lens, hf ▸ hmerges, (huffLengths_length hlens).trans hf,
    fun y l hl => HuffTree.leafAt_of_depth (depth_of_getElem? hdepth hl), fun l hl => ?_,
    fun htop => ⟨hmerges.kraftEquality hdepth htop, ?_⟩, fun longest hmem hmax hlong => ?_⟩
  · obtain ⟨y, hy⟩ := List.mem_iff_getElem?.mp hl
    refine HuffTree.one_le_depth ?_ (depth_of_getElem? hdepth hy)
    rw [hmerges.symbols_length, hf]
    exact Nat.le_add_left 2 _
  · rw [hexec, if_neg (Nat.not_lt.mpr (maxLength_le htop))]
    rfl
  · have hlongest : maxLength lens = longest := (maxLength_le hmax).antisymm (le_maxLength hmem)
    rw [hexec, hlongest, if_pos hlong]
    rfl

/-- Settles O36: a tree of at most 21 leaves has no leaf below depth 20. -/
theorem huffBuildCompletesForSmallAlphabets : Obligations.HuffBuildCompletesForSmallAlphabets := by
  intro s hm hf hn
  obtain ⟨t, lens, hmerges, hlens, hdepth⟩ :=
    exists_huffLengths s.tieOrder (List.ne_nil_of_length_eq_add_one hf)
  have hshort : maxLength lens ≤ 20 := maxLength_le fun l hl => by
    obtain ⟨y, hy⟩ := List.mem_iff_getElem?.mp hl
    have := HuffTree.depth_lt (depth_of_getElem? hdepth hy)
    rw [hmerges.symbols_length] at this
    omega
  exact ⟨_, (exec_huffBuild hf (hm.trans (by decide)) (hn.trans (by decide)) hlens).trans
    (if_neg (Nat.not_lt.mpr hshort))⟩

end Sys2Proof.Machine
end

section
/-! PROOFS. Whatever the tie order, nodes merge in the order of their weights, so the lighter of two
nodes never stands higher in the tree (47_huffman.md R245, R246). -/

namespace Sys2Proof.Machine

variable {tie freq : List Nat} {heap : List HeapNode} {t u v : HuffTree} {w : Nat → Nat} {k i j d x y : Nat}

/-! ### The nodes of a tree -/

/-- The weight of a tree whose leaf `y` weighs `w y` (R244, R245). -/
def HuffTree.weight (w : Nat → Nat) : HuffTree → Nat
  | .leaf y => w y
  | .node p q => p.weight w + q.weight w

/-- The subtree `u` stands at depth `d`, the root at depth 0. -/
inductive SubtreeAt (u : HuffTree) : HuffTree → Nat → Prop where
  | root : SubtreeAt u u 0
  | left {p q : HuffTree} {d : Nat} (h : SubtreeAt u p d) : SubtreeAt u (.node p q) (d + 1)
  | right {p q : HuffTree} {d : Nat} (h : SubtreeAt u q d) : SubtreeAt u (.node p q) (d + 1)

theorem LeafAt.subtreeAt (h : LeafAt y t d) : SubtreeAt (.leaf y) t d := by
  induction h with
  | leaf => exact .root
  | left _ ih => exact .left ih
  | right _ ih => exact .right ih

theorem SubtreeAt.weight_le (w : Nat → Nat) (h : SubtreeAt u t d) : u.weight w ≤ t.weight w := by
  induction h with
  | root => exact le_rfl
  | left _ ih => exact ih.trans (Nat.le_add_right _ _)
  | right _ ih => exact ih.trans (Nat.le_add_left _ _)

theorem SubtreeAt.symbols_subset (h : SubtreeAt u t d) : u.symbols ⊆ t.symbols := by
  induction h with
  | root => exact List.Subset.refl _
  | left _ ih => exact List.subset_append_of_subset_left _ ih
  | right _ ih => exact List.subset_append_of_subset_right _ ih

/-- A leaf's depth in the tree is its depth in the subtree further down. -/
theorem SubtreeAt.depth_eq (h : SubtreeAt u t d) (hn : t.symbols.Nodup) (hx : u.depth x = some i) :
    t.depth x = some (i + d) := by
  induction h with
  | root => exact hx
  | left _ ih => exact HuffTree.depth_node_left (ih (List.nodup_append'.mp hn).1)
  | right h ih =>
    obtain ⟨-, hq, hdisj⟩ := List.nodup_append'.mp hn
    have hmem := h.symbols_subset ((u.depth_isSome x).mp ⟨i, hx⟩)
    exact HuffTree.depth_node_right (fun hp => hdisj hp hmem) (ih hq)

/-- With different symbols at its leaves, a tree has each subtree in one place. -/
theorem SubtreeAt.depth_unique (hn : t.symbols.Nodup) (hi : SubtreeAt u t i) (hj : SubtreeAt u t j) :
    i = j := by
  obtain ⟨x, hx⟩ := List.exists_mem_of_length_pos u.symbols_length_pos
  obtain ⟨d, hd⟩ := (u.depth_isSome x).mpr hx
  have := (hi.depth_eq hn hd).symm.trans (hj.depth_eq hn hd)
  simpa using this

/-- A subtree below the root is a child of the node above it. -/
theorem SubtreeAt.exists_parent (h : SubtreeAt u t (d + 1)) :
    ∃ p q, SubtreeAt (.node p q) t d ∧ (u = p ∨ u = q) := by
  induction t generalizing d with
  | leaf y => cases h
  | node p q ihp ihq =>
    cases h with
    | left h =>
      cases d with
      | zero => cases h; exact ⟨_, _, .root, .inl rfl⟩
      | succ d =>
        obtain ⟨a, b, hab, hu⟩ := ihp h
        exact ⟨a, b, .left hab, hu⟩
    | right h =>
      cases d with
      | zero => cases h; exact ⟨_, _, .root, .inr rfl⟩
      | succ d =>
        obtain ⟨a, b, hab, hu⟩ := ihq h
        exact ⟨a, b, .right hab, hu⟩

/-! ### The merges of a tree -/

/-- The pairs of children of a tree's inner nodes: the pairs that were merged. -/
def HuffTree.pairs : HuffTree → List (HuffTree × HuffTree)
  | .leaf _ => []
  | .node p q => (p, q) :: (p.pairs ++ q.pairs)

theorem SubtreeAt.mem_pairs {p q : HuffTree} (h : SubtreeAt (.node p q) t d) : (p, q) ∈ t.pairs := by
  induction t generalizing d with
  | leaf y => cases h
  | node a b iha ihb =>
    cases h with
    | root => exact List.mem_cons_self
    | left h => exact List.mem_cons_of_mem _ (List.mem_append_left _ (iha h))
    | right h => exact List.mem_cons_of_mem _ (List.mem_append_right _ (ihb h))

/-- Neither tree of the first pair weighs more than either of the second. -/
def PairLe (w : Nat → Nat) (a b : HuffTree × HuffTree) : Prop :=
  max (a.1.weight w) (a.2.weight w) ≤ min (b.1.weight w) (b.2.weight w)

/-- Any two merges are one merge, or one takes two nodes no heavier than the other's. -/
def PairsOrdered (w : Nat → Nat) (l : List (HuffTree × HuffTree)) : Prop :=
  ∀ a ∈ l, ∀ b ∈ l, a = b ∨ PairLe w a b ∨ PairLe w b a

/-- The pairs merged so far: those of the trees of a heap. -/
def heapPairs (heap : List HeapNode) : List (HuffTree × HuffTree) := heap.flatMap fun n => n.tree.pairs

/-- What every merge keeps: a heap node weighs what its tree does, the merges so far are ordered, and no
merged node is heavier than a node still in the heap. -/
structure MergedInOrder (w : Nat → Nat) (heap : List HeapNode) : Prop where
  weight : ∀ n ∈ heap, n.weight = n.tree.weight w
  ordered : PairsOrdered w (heapPairs heap)
  bounded : ∀ a ∈ heapPairs heap, ∀ n ∈ heap, max (a.1.weight w) (a.2.weight w) ≤ n.weight

theorem IsLeast.weight_le {n m : HeapNode} {rest : List HeapNode} (h : IsLeast tie heap n rest)
    (hm : m ∈ rest) : n.weight ≤ m.weight := by
  have := h.2 m hm
  omega

/-- The next merge takes the two lightest nodes, which no earlier one outweighs (R245). -/
theorem MergedInOrder.merge {rest left : List HeapNode} {p q : HeapNode} (h : MergedInOrder w heap)
    (hp : IsLeast tie heap p rest) (hq : IsLeast tie rest q left) (k : Nat) :
    MergedInOrder w (mergedNode k p q :: left) := by
  have hperm : heap.Perm (p :: q :: left) := hp.1.trans (hq.1.cons p)
  have hmem : ∀ {m}, m ∈ p :: q :: left → m ∈ heap := hperm.mem_iff.mpr
  have hpmem : p ∈ heap := hmem (by simp)
  have hqmem : q ∈ heap := hmem (by simp)
  have hwp := h.weight p hpmem
  have hwq := h.weight q hqmem
  have hpairs : (heapPairs (mergedNode k p q :: left)).Perm ((p.tree, q.tree) :: heapPairs heap) := by
    refine List.Perm.trans ?_ ((hperm.flatMap_right _).symm.cons _)
    simp [heapPairs, mergedNode, HuffTree.pairs]
  have hnew : ∀ a ∈ heapPairs heap, PairLe w a (p.tree, q.tree) := fun a ha => by
    have hap := h.bounded a ha p hpmem
    have haq := h.bounded a ha q hqmem
    simp only [PairLe]
    omega
  have hpq : p.weight ≤ q.weight := hp.weight_le (hq.1.mem_iff.mpr List.mem_cons_self)
  refine ⟨?_, ?_, ?_⟩
  · rw [List.forall_mem_cons]
    exact ⟨congrArg₂ (· + ·) hwp hwq, fun m hm => h.weight m (hmem (by simp [hm]))⟩
  · intro a ha b hb
    rw [hpairs.mem_iff, List.mem_cons] at ha hb
    rcases ha with rfl | ha <;> rcases hb with rfl | hb
    · exact .inl rfl
    · exact .inr (.inr (hnew b hb))
    · exact .inr (.inl (hnew a ha))
    · exact h.ordered a ha b hb
  · have hheap : ∀ m ∈ mergedNode k p q :: left, max p.weight q.weight ≤ m.weight := by
      rw [List.forall_mem_cons]
      refine ⟨max_le (Nat.le_add_right _ _) (Nat.le_add_left _ _), fun m hm => ?_⟩
      have := hq.weight_le hm
      omega
    intro a ha m hm
    have hle := hheap m hm
    rcases List.mem_cons.mp (hpairs.mem_iff.mp ha) with rfl | ha
    · simp only
      omega
    · have := h.bounded a ha p hpmem
      omega

theorem Merges.pairsOrdered (h : Merges tie k heap t) (hheap : MergedInOrder w heap) :
    PairsOrdered w t.pairs := by
  induction h with
  | root k n => simpa [heapPairs] using hheap.ordered
  | merge hp hq _ ih => exact ih (hheap.merge hp hq _)

theorem huffLeaves_mergedInOrder (freq : List Nat) :
    MergedInOrder (fun y => freq.getD y 0) (huffLeaves freq) := by
  have hnone : heapPairs (huffLeaves freq) = [] := by
    simp [heapPairs, huffLeaves, List.flatMap_map, HuffTree.pairs]
  refine ⟨?_, ?_, ?_⟩
  · simp [huffLeaves, HuffTree.weight]
  · simp [hnone, PairsOrdered]
  · simp [hnone]

/-! ### Depths -/

/-- Of two nodes at different depths the heavier stands higher: by induction on its depth, since the
nodes above the two are in the same order of weights, or are the same node. -/
theorem SubtreeAt.depth_le (hn : t.symbols.Nodup) (hord : PairsOrdered w t.pairs)
    (hu : SubtreeAt u t i) (hv : SubtreeAt v t j) (hlt : v.weight w < u.weight w) : i ≤ j := by
  induction i generalizing u v j with
  | zero => exact Nat.zero_le j
  | succ i ih =>
    cases j with
    | zero =>
      have := hu.weight_le w
      cases hv
      omega
    | succ j =>
      obtain ⟨p, q, hp, hup⟩ := hu.exists_parent
      obtain ⟨p', q', hp', hvp⟩ := hv.exists_parent
      rcases hord _ hp.mem_pairs _ hp'.mem_pairs with heq | hle | hle
      · cases heq
        exact Nat.succ_le_succ (hp.depth_unique hn hp').le
      · simp only [PairLe] at hle
        rcases hup with rfl | rfl <;> rcases hvp with rfl | rfl <;> omega
      · refine Nat.succ_le_succ (ih hp hp' ?_)
        simp only [PairLe] at hle
        simp only [HuffTree.weight]
        rcases hup with rfl | rfl <;> rcases hvp with rfl | rfl <;> omega

/-- The tables of a next state are all the lengths of FREQ (R243). -/
theorem execHuffBuild_next {s t : State} (h : execHuffBuild s = .next t)
    (hf : s.freq.length = s.m + 2) :
    ∃ lens, huffLengths s.tieOrder s.freq = some lens ∧ ∀ l ∈ t.len, l = lens := by
  have htake : s.freq.take s.alphabetSize = s.freq := List.take_of_length_le hf.le
  simp only [execHuffBuild, htake] at h
  split at h
  · exact absurd h (faultInvariant_ne_next _ _ _)
  · split at h
    · exact absurd h (faultInvariant_ne_next _ _ _)
    · next lens hlens =>
      split at h
      · cases h
      · cases h
        exact ⟨lens, hlens, fun _ => List.eq_of_mem_replicate⟩

/-- Settles O37: the lengths are depths of leaves that weigh what their symbols' frequencies are. -/
theorem frequentSymbolsHaveNoLongerCodes : Obligations.FrequentSymbolsHaveNoLongerCodes := by
  intro s t hf hexec lens hlens y z f g l m hy hz hl hm hlt
  obtain ⟨tree, depths, hmerges, hdepths, hdepth⟩ :=
    exists_huffLengths s.tieOrder (List.ne_nil_of_length_eq_add_one hf)
  obtain rfl : lens = depths := by
    obtain ⟨_, heq, htab⟩ := execHuffBuild_next hexec hf
    exact (htab lens hlens).trans (Option.some.inj (heq.symm.trans hdepths))
  have hsub : ∀ {x d : Nat}, lens[x]? = some d → SubtreeAt (.leaf x) tree d := fun hx =>
    (HuffTree.leafAt_of_depth (depth_of_getElem? hdepth hx)).subtreeAt
  refine SubtreeAt.depth_le hmerges.symbols_nodup
    (hmerges.pairsOrdered (huffLeaves_mergedInOrder s.freq)) (hsub hl) (hsub hm) ?_
  simpa [HuffTree.weight, hy, hz] using hlt

end Sys2Proof.Machine
end

section
/-! PROOFS. HUFF_CODES: the codes of a complete table are canonical and prefix-free, since each code
stands for the part of the code space that the codes before it leave off at (47_huffman.md R248, R252). -/

namespace Sys2Proof.Machine

variable {top n y z l m : Nat} {lens : List Nat}

/-! ### The code space -/

/-- The part of a code space of `2 ^ top` that the codes assigned before symbol `y` of length `l` take up:
a code of length `n` takes up `2 ^ (top - n)` (R248, R252). -/
def spaceBefore (top : Nat) (lens : List Nat) (l y : Nat) : Nat :=
  ∑ i : Fin lens.length, if lens[i] < l ∨ lens[i] = l ∧ i < y then 2 ^ (top - lens[i]) else 0

/-- More codes before take up more. -/
theorem spaceBefore_mono
    (h : ∀ i (hi : i < lens.length),
      lens[i] < l ∨ lens[i] = l ∧ i < y → lens[i] < m ∨ lens[i] = m ∧ i < z) :
    spaceBefore top lens l y ≤ spaceBefore top lens m z := by
  refine Finset.sum_le_sum fun i _ => ?_
  have hi := h i i.isLt
  split <;> split <;> simp_all

/-- The same codes before take up the same. -/
theorem spaceBefore_congr
    (h : ∀ i (hi : i < lens.length),
      lens[i] < l ∨ lens[i] = l ∧ i < y ↔ lens[i] < m ∨ lens[i] = m ∧ i < z) :
    spaceBefore top lens l y = spaceBefore top lens m z :=
  (spaceBefore_mono fun i hi => (h i hi).mp).antisymm (spaceBefore_mono fun i hi => (h i hi).mpr)

/-- What a symbol adds to the space of its length. -/
theorem spaceBefore_succ (hy : lens[y]? = some l) (n : Nat) :
    spaceBefore top lens n (y + 1) = spaceBefore top lens n y + if l = n then 2 ^ (top - n) else 0 := by
  obtain ⟨hlt, rfl⟩ := List.getElem?_eq_some_iff.mp hy
  have hsingle : (if lens[y] = n then 2 ^ (top - n) else 0) =
      ∑ i : Fin lens.length,
        if i = ⟨y, hlt⟩ then (if lens[i] = n then 2 ^ (top - n) else 0) else 0 := by
    simp
  rw [hsingle, spaceBefore, spaceBefore, ← Finset.sum_add_distrib]
  refine Finset.sum_congr rfl fun i _ => ?_
  by_cases hin : lens[i] = n
  · simp only [hin, lt_irrefl, false_or, true_and, if_true, Fin.ext_iff]
    split_ifs <;> omega
  · simp only [hin, false_and, or_false, if_false, ite_self, Nat.add_zero]

theorem spaceBefore_eq_add_count (top : Nat) (lens : List Nat) (n y : Nat) :
    spaceBefore top lens n y = spaceBefore top lens n 0 + (lens.take y).count n * 2 ^ (top - n) := by
  induction y with
  | zero => simp
  | succ y ih =>
    cases hy : lens[y]? with
    | none =>
      have hle := List.getElem?_eq_none_iff.mp hy
      have hsame : lens.take (y + 1) = lens.take y := by
        rw [List.take_of_length_le hle, List.take_of_length_le (Nat.le_succ_of_le hle)]
      rw [hsame, ← ih]
      exact spaceBefore_congr fun i hi => by omega
    | some l =>
      rw [spaceBefore_succ hy, ih, List.take_add_one, hy]
      by_cases hln : l = n <;> simp [hln, Nat.add_mul, Nat.add_assoc]

/-- The codes of one length come before those of the next. -/
theorem spaceBefore_next_length (top : Nat) (lens : List Nat) (n : Nat) :
    spaceBefore top lens (n + 1) 0 = spaceBefore top lens n 0 + lens.count n * 2 ^ (top - n) := by
  have hall := spaceBefore_eq_add_count top lens n lens.length
  rw [List.take_length] at hall
  exact (spaceBefore_congr fun i hi => by omega).trans hall

/-- The codes together take up no more than the space. -/
theorem spaceBefore_le (h : KraftEquality top lens) (l y : Nat) : spaceBefore top lens l y ≤ 2 ^ top := by
  rw [← h.2, ← Fin.sum_univ_fun_getElem]
  exact Finset.sum_le_sum fun i _ => by split <;> simp

/-! ### The machine's loops -/

section Loops

variable {codes ls cs : List Nat} {k v : Nat}

theorem assignLength_snd (h : ls.length = cs.length) :
    (assignLength n ls cs v).2 = v + ls.count n := by
  induction ls generalizing cs v with
  | nil => cases cs <;> rfl
  | cons a ls ih =>
    cases cs with
    | nil => cases h
    | cons c cs =>
      have hlen := Nat.succ.inj h
      by_cases ha : a = n
      · simp [assignLength, ha, ih hlen]; omega
      · simp [assignLength, ha, ih hlen]

/-- A symbol of the length gets the value after those of the symbols before it. -/
theorem assignLength_getElem? (h : ls.length = cs.length) :
    (assignLength n ls cs v).1[y]? =
      if ls[y]? = some n then some (v + (ls.take y).count n) else cs[y]? := by
  induction ls generalizing cs v y with
  | nil => cases cs <;> simp [assignLength]
  | cons a ls ih =>
    cases cs with
    | nil => cases h
    | cons c cs =>
      have hlen := Nat.succ.inj h
      cases y with
      | zero => by_cases ha : a = n <;> simp [assignLength, ha]
      | succ y =>
        by_cases ha : a = n
        · simp [assignLength, ha, ih hlen, Nat.add_assoc, Nat.add_comm 1]
        · simp [assignLength, ha, ih hlen]

/-- The passes for greater lengths leave a code as it is. -/
theorem assignFrom_getElem?_of_lt (h : codes.length = lens.length) (hy : lens[y]? = some l)
    (hl : l < n) : (assignFrom lens k n codes v)[y]? = codes[y]? := by
  induction k generalizing n codes v with
  | zero => rfl
  | succ k ih =>
    rw [assignFrom, ih ((assignLength_length ..).trans h) (Nat.lt_succ_of_lt hl)]
    have hne : lens[y]? ≠ some n := by rw [hy]; simp; omega
    rw [assignLength_getElem? h.symm, if_neg hne]

/-- Each pass starts at the value where the codes of lesser lengths leave off, lengthened by zeros, so a
symbol's code is where the codes before it leave off. -/
theorem assignFrom_getElem? (h : codes.length = lens.length) (hy : lens[y]? = some l) (hn : n ≤ l)
    (hk : l < n + k) (htop : l ≤ top) (hv : v * 2 ^ (top - n) = spaceBefore top lens n 0) :
    ∃ c, (assignFrom lens k n codes v)[y]? = some c ∧ c * 2 ^ (top - l) = spaceBefore top lens l y := by
  induction k generalizing n codes v with
  | zero => omega
  | succ k ih =>
    have hlen := (assignLength_length n lens codes v).trans h
    rw [assignFrom]
    rcases hn.eq_or_lt with rfl | hlt
    · refine ⟨v + (lens.take y).count n, ?_, ?_⟩
      · rw [assignFrom_getElem?_of_lt hlen hy (Nat.lt_succ_self _), assignLength_getElem? h.symm, if_pos hy]
      · rw [spaceBefore_eq_add_count, ← hv, Nat.add_mul]
    · refine ih hlen hlt (by omega) ?_
      have hpow : 2 ^ (top - n) = 2 * 2 ^ (top - (n + 1)) := by
        rw [← pow_succ']; congr 1; omega
      rw [assignLength_snd h.symm, spaceBefore_next_length, ← hv, hpow]
      ring

end Loops

theorem minLength_eq_min? (lens : List Nat) : minLength lens = lens.min?.getD 0 := by
  cases lens <;> rfl

theorem minLength_le (h : l ∈ lens) : minLength lens ≤ l := by
  rw [minLength_eq_min?]
  exact List.min?_getD_le_of_mem h

/-- A symbol's code, lengthened to the whole width, is where the codes assigned before it leave off. -/
theorem canonicalCodes_getElem? (h : lens[y]? = some l) (htop : l ≤ top) :
    ∃ c, (canonicalCodes lens)[y]? = some c ∧ c * 2 ^ (top - l) = spaceBefore top lens l y := by
  have hmem := List.mem_of_getElem? h
  have hmin := minLength_le hmem
  have hmax := le_maxLength hmem
  refine assignFrom_getElem? List.length_replicate h hmin (by omega) htop ?_
  refine (Nat.zero_mul _).trans (Finset.sum_eq_zero fun i _ => if_neg ?_).symm
  have := minLength_le (List.getElem_mem i.isLt)
  simp only [Fin.getElem_fin]
  omega

/-! ### HUFF_CODES -/

/-- The entry of CODE for each symbol. -/
def codeTable (lens : List Nat) : List (BitVec 20) := (canonicalCodes lens).map (BitVec.ofNat 20)

/-- A code fits in the width of CODE and in its length, and stands where the codes before it leave off. -/
theorem codeTable_space {c : BitVec 20} (h : KraftEquality 20 lens) (hl : lens[y]? = some l)
    (hc : (codeTable lens)[y]? = some c) :
    l ≤ 20 ∧ c.toNat < 2 ^ l ∧ c.toNat * 2 ^ (20 - l) = spaceBefore 20 lens l y := by
  have hl20 : l ≤ 20 := h.1 l (List.mem_of_getElem? hl)
  obtain ⟨v, hv, hspace⟩ := canonicalCodes_getElem? hl hl20
  have hlt : v < 2 ^ l := by
    have hle := spaceBefore_le h l (y + 1)
    rw [spaceBefore_succ hl, if_pos rfl, ← hspace, ← Nat.succ_mul] at hle
    refine Nat.le_of_mul_le_mul_right (hle.trans_eq ?_) (Nat.two_pow_pos (20 - l))
    rw [← pow_add]; congr 1; omega
  have hcv : c.toNat = v := by
    rw [codeTable, List.getElem?_map, hv] at hc
    cases hc
    exact Nat.mod_eq_of_lt (hlt.trans_le (Nat.pow_le_pow_right Nat.two_pos hl20))
  rw [hcv]
  exact ⟨hl20, hlt, hspace⟩

theorem exec_huffCodes {s : State} (hm : s.m ≤ 256) (hn : s.ntrees.toNat ≤ s.len.length)
    (hl : ∀ lens ∈ s.len.take s.ntrees.toNat, s.m + 2 ≤ lens.length) :
    exec .huffCodes s = .next { s with code := (liveLengths s).map codeTable } :=
  execHuffCodes_next hm hn hl

theorem AssignedBefore.length_le (h : AssignedBefore l y m z) : l ≤ m := by
  unfold AssignedBefore at h
  omega

/-- The space up to and with a code, in units of a greater length. -/
theorem codeTable_space_succ {c : BitVec 20} (h : KraftEquality 20 lens) (hl : lens[y]? = some l)
    (hc : (codeTable lens)[y]? = some c) (hlm : l ≤ m) (hm : m ≤ 20) :
    (c.toNat + 1) * 2 ^ (m - l) * 2 ^ (20 - m) = spaceBefore 20 lens l (y + 1) := by
  obtain ⟨-, -, hspace⟩ := codeTable_space h hl hc
  rw [spaceBefore_succ hl, if_pos rfl, ← hspace, ← Nat.succ_mul, mul_assoc, ← pow_add]
  congr 2
  omega

/-- The codes of a complete table are R248's. -/
theorem codeTable_canonical (h : KraftEquality 20 lens) : Canonical lens (codeTable lens) := by
  refine ⟨(List.length_map _).trans (canonicalCodes_length lens), fun z m d hm hd hfirst => ?_,
    fun y z l m c d hl hm hc hd hbefore hnext => ?_⟩
  · obtain ⟨-, -, hspace⟩ := codeTable_space h hm hd
    have hzero : spaceBefore 20 lens m z = 0 :=
      Finset.sum_eq_zero fun i _ => if_neg (hfirst i _ (List.getElem?_eq_getElem i.isLt))
    rw [hzero] at hspace
    exact BitVec.eq_of_toNat_eq ((Nat.mul_eq_zero.mp hspace).resolve_right (by positivity))
  · obtain ⟨hm20, -, hspace⟩ := codeTable_space h hm hd
    have hsame : spaceBefore 20 lens l (y + 1) = spaceBefore 20 lens m z :=
      spaceBefore_congr fun i hi => by
        have := hnext i _ (List.getElem?_eq_getElem hi)
        have hiy : i = y → lens[i] = l := by
          rintro rfl
          exact (List.getElem?_eq_some_iff.mp hl).2
        unfold AssignedBefore at this hbefore
        omega
    refine Nat.eq_of_mul_eq_mul_right (Nat.two_pow_pos (20 - m)) ?_
    rw [hspace, ← hsame, codeTable_space_succ h hl hc hbefore.length_le hm20]

/-- A code word that begins another holds its upper bits. -/
theorem eq_div_of_lowBits_prefix {c d : Nat} (hc : c < 2 ^ l) (hd : d < 2 ^ m)
    (h : lowBits l c <+: lowBits m d) : l ≤ m ∧ c = d / 2 ^ (m - l) := by
  have hlm : l ≤ m := by simpa [lowBits] using h.length_le
  refine ⟨hlm, Nat.eq_of_testBit_eq fun j => ?_⟩
  rw [Nat.testBit_div_two_pow]
  by_cases hj : j < l
  · have hbit := (List.prefix_iff_getElem?.mp h (l - 1 - j) (by simp [lowBits]; omega)).symm
    simp only [lowBits, List.getElem_map, List.getElem_range, List.getElem?_map] at hbit
    rw [List.getElem?_range (by omega)] at hbit
    have hl : l - 1 - (l - 1 - j) = j := by omega
    have hm : m - 1 - (l - 1 - j) = j + (m - l) := by omega
    simpa [hl, hm] using hbit
  · rw [Nat.testBit_lt_two_pow (hc.trans_le (Nat.pow_le_pow_right Nat.two_pos (by omega))),
      Nat.testBit_lt_two_pow (hd.trans_le (Nat.pow_le_pow_right Nat.two_pos (by omega)))]

/-- A code begins past all the codes before it. -/
theorem codeTable_le {c d : BitVec 20} (h : KraftEquality 20 lens) (hl : lens[y]? = some l)
    (hm : lens[z]? = some m) (hc : (codeTable lens)[y]? = some c) (hd : (codeTable lens)[z]? = some d)
    (hbefore : AssignedBefore l y m z) : (c.toNat + 1) * 2 ^ (m - l) ≤ d.toNat := by
  obtain ⟨hm20, -, hspace⟩ := codeTable_space h hm hd
  refine Nat.le_of_mul_le_mul_right ?_ (Nat.two_pow_pos (20 - m))
  rw [codeTable_space_succ h hl hc hbefore.length_le hm20, hspace]
  refine spaceBefore_mono fun i hi => ?_
  have hiy : i = y → lens[i] = l := by
    rintro rfl
    exact (List.getElem?_eq_some_iff.mp hl).2
  unfold AssignedBefore at hbefore
  omega

/-- A code word that begins another is neither assigned before it, nor, being no longer, after it. -/
theorem codeTable_prefixFree (h : KraftEquality 20 lens) : PrefixFree lens (codeTable lens) := by
  intro y z l m c d hyz hl hm hc hd hprefix
  obtain ⟨-, hclt, -⟩ := codeTable_space h hl hc
  obtain ⟨-, hdlt, -⟩ := codeTable_space h hm hd
  obtain ⟨hlm, hdiv⟩ := eq_div_of_lowBits_prefix hclt hdlt hprefix
  by_cases hbefore : AssignedBefore l y m z
  · have hle := codeTable_le h hl hm hc hd hbefore
    rw [← Nat.le_div_iff_mul_le (Nat.two_pow_pos _), ← hdiv] at hle
    exact absurd hle (Nat.not_succ_le_self _)
  · obtain ⟨rfl, hzy⟩ : l = m ∧ z < y := by
      unfold AssignedBefore at hbefore
      omega
    have hle := codeTable_le h hm hl hd hc (.inr ⟨rfl, hzy⟩)
    rw [Nat.sub_self, pow_zero] at hdiv hle
    omega

/-- Settles O38, table by table. -/
theorem huffCodesAreCanonical : Obligations.HuffCodesAreCanonical := by
  rintro s tables hm hn hl rfl htables
  refine ⟨_, exec_huffCodes hm hn hl, rfl, ?_⟩
  exact List.forall₂_map_right_iff.mpr (List.forall₂_same.mpr fun lens hlens =>
    codeTable_canonical (htables lens hlens).1)

/-- Settles O39, table by table. -/
theorem huffCodesArePrefixFree : Obligations.HuffCodesArePrefixFree := by
  rintro s tables hm hn hl rfl htables
  refine ⟨_, exec_huffCodes hm hn hl, ?_⟩
  exact List.forall₂_map_right_iff.mpr (List.forall₂_same.mpr fun lens hlens =>
    codeTable_prefixFree (htables lens hlens).1)

end Sys2Proof.Machine
end

section
/-! PROOFS. SEL_MTF: the ranks decode to the selectors, and in a round-robin schedule every selector after
the first round is the least recent one (47_huffman.md R250, R251). -/

namespace Sys2Proof.Machine

/-! ### Round robin -/

/-- The recency list of `n` trees after `g` groups in round-robin order: the trees of the last groups,
the latest first, then the trees not yet used (R251). -/
def roundRobinList (n g : Nat) : List Nat :=
  (List.range n).map fun i => if i < g then (g - 1 - i) % n else i

theorem roundRobinList_length (n g : Nat) : (roundRobinList n g).length = n := by
  rw [roundRobinList, List.length_map, List.length_range]

theorem roundRobinList_zero (n : Nat) : roundRobinList n 0 = List.range n := by
  simp [roundRobinList]

theorem roundRobinList_getElem {n g i : Nat} (hi : i < (roundRobinList n g).length) :
    (roundRobinList n g)[i] = if i < g then (g - 1 - i) % n else i := by
  simp [roundRobinList]

/-- The next tree stands after the trees of this round, or last once every tree has been used. -/
theorem roundRobinList_rank {n g : Nat} (hn : 0 < n) :
    (roundRobinList n g)[min g (n - 1)]? = some (g % n) := by
  have hlt : min g (n - 1) < (roundRobinList n g).length := by rw [roundRobinList_length]; omega
  rw [List.getElem?_eq_getElem hlt, roundRobinList_getElem, Option.some.injEq]
  rcases lt_or_ge g n with hg | hg
  · rw [if_neg (by omega), Nat.mod_eq_of_lt hg]
    omega
  · have hback : g - 1 - min g (n - 1) + n = g := by omega
    rw [if_pos (by omega), ← Nat.add_mod_right, hback]

/-- Moving it to the front gives the list of one group later. -/
theorem toFront_roundRobinList {n g : Nat} (hn : 0 < n) :
    toFront (roundRobinList n g) (min g (n - 1)) (g % n) = roundRobinList n (g + 1) := by
  have hlen := (toFront_perm _ _ _ (roundRobinList_rank (g := g) hn)).length_eq
  rw [roundRobinList_length] at hlen
  refine List.ext_getElem (hlen.trans (roundRobinList_length n (g + 1)).symm) fun i hi hi' => ?_
  rw [hlen] at hi
  rw [roundRobinList_getElem]
  cases i with
  | zero => simp [toFront]
  | succ i =>
    have hshift : g + 1 - 1 - (i + 1) = g - 1 - i := by omega
    simp only [toFront, List.getElem_cons_succ, List.getElem_append, List.getElem_take,
      List.getElem_drop, List.length_take, roundRobinList_length, roundRobinList_getElem, hshift]
    split
    · rw [if_pos (by omega), if_pos (by omega)]
    · rw [if_neg (by omega), if_neg (by omega)]
      omega

/-- The ranks of the groups from `g` on. -/
theorem mtfGo_roundRobin {n : Nat} (hn : 0 < n) (g k : Nat) (hnodup : (roundRobinList n g).Nodup) :
    mtfGo (roundRobinList n g) ((List.range' g k).map (· % n)) =
      some ((List.range' g k).map (fun i => min i (n - 1)), roundRobinList n (g + k)) := by
  induction k generalizing g with
  | zero => rfl
  | succ k ih =>
    have hrank := roundRobinList_rank (g := g) hn
    obtain ⟨hlt, hget⟩ := List.getElem?_eq_some_iff.mp hrank
    have hidx : (roundRobinList n g).idxOf (g % n) = min g (n - 1) := by
      rw [← hget, hnodup.idxOf_getElem]
    have hnext : (roundRobinList n (g + 1)).Nodup := by
      rw [← toFront_roundRobinList hn]
      exact (toFront_perm _ _ _ hrank).nodup_iff.mpr hnodup
    simp only [List.range'_succ, List.map_cons, mtfGo, hidx, if_pos hlt, toFront_roundRobinList hn,
      ih (g + 1) hnext]
    rw [Nat.add_assoc, Nat.add_comm 1]

/-! ### SEL_MTF -/

theorem exec_selMtf {s : State} {rs l : List Nat} (hn : s.nsel.toNat ≤ s.sel.length)
    (h : mtfGo (List.range s.ntrees.toNat) (s.sel.take s.nsel.toNat) = some (rs, l)) :
    exec .selMtf s = .next { s with selRank := rs } := by
  calc exec .selMtf s = execSelMtf s := rfl
    _ = _ := by rw [execSelMtf, if_neg (Nat.not_lt.mpr hn), h]

/-- Settles O40: round robin from the identity list, which is the recency list after no group. -/
theorem selectorRanksOfRoundRobin : Obligations.SelectorRanksOfRoundRobin := by
  intro s hn hlt
  obtain ⟨rs, l, hgo, hlen, -, hranks⟩ := mtfGo_isSome (List.range s.ntrees.toNat)
    (s.sel.take s.nsel.toNat) fun g hg => List.mem_range.mpr (hlt g hg)
  refine ⟨_, exec_selMtf hn hgo, rfl, hlen.trans (List.length_take_of_le hn), ?_,
    mtfDecode_of_mtfGo hgo, fun hround => ?_⟩
  · simpa using hranks
  · rcases Nat.eq_zero_or_pos s.ntrees.toNat with hzero | hpos
    · have hnil : s.sel.take s.nsel.toNat = [] := List.eq_nil_iff_forall_not_mem.mpr fun g hg => by
        have := hlt g hg
        omega
      have hnone : s.nsel.toNat = 0 := by simpa [hnil] using hround
      rw [hnil] at hgo
      cases hgo
      rw [hnone]
      rfl
    · have hgo' := mtfGo_roundRobin hpos 0 s.nsel.toNat
        (by rw [roundRobinList_zero]; exact List.nodup_range)
      rw [roundRobinList_zero, ← List.range_eq_range', ← hround, hgo] at hgo'
      cases hgo'
      rfl

end Sys2Proof.Machine
end

section
/-! PROOFS. BLK_SERIALIZE of a non-empty block: every unit of the transform finds what it reads in the
buffers, so that only a long code can fault (47_huffman.md R249, 48_block_serializer.md R270, R283). -/

namespace Sys2Proof.Machine

variable {s t u : State}

/-! ### The transform up to HUFF_BUILD -/

/-- What the transform writes nothing of: the bit writer with ERR and the sink port, SCRC and BCRC. -/
def State.output (s : State) : Writer × Word × Word := (s.writer, s.scrc, s.bcrc)

/-- The committed block (R179). -/
def State.committed (s : State) : List Byte := s.blkBuf ++ s.block.pending

theorem State.committed_length (s : State) : s.committed.length = s.eff :=
  (List.length_append ..).trans s.block.eff_eq.symm

theorem State.BlockBounded.committed_length_le (h : s.BlockBounded) : s.committed.length ≤ 900000 :=
  s.committed_length.trans_le (h.eff.trans h.cap)

/-- A block that has accepted a byte holds one (R170). -/
theorem State.BlockBounded.committed_ne_nil (h : s.BlockBounded) (hne : s.blockEmpty = false) :
    s.committed ≠ [] := by
  have hbuf : s.blkBuf ≠ [] := (s.blockEmpty_eq_false_iff.mp hne).elim id h.literal
  exact List.append_ne_nil_of_left_ne_nil hbuf _

/-- The state `u` HUFF_BUILD is given when the block of `s` is serialised: the symbols are counted over
the alphabet of the block, and nothing is sent. -/
structure Counted (s u : State) : Prop where
  output : u.output = s.output
  alpha : u.alpha = alphaOf (presentOf (bwtBytes s.committed))
  freq : u.freq.length = u.m + 2
  sym : u.sym.length ≤ 900001
  symbols : ∀ y ∈ u.sym, y < u.m + 2

theorem Counted.m_le (h : Counted s u) : u.m ≤ 256 := by
  rw [State.m, h.alpha]
  exact alphaOf_length_le _

/-- The transform from HUFF_BUILD on (R270). -/
def blkCode (s : State) : Result :=
  andThen (atStep .huffBuild execHuffBuild s) fun s =>
  andThen (atStep .huffCodes execHuffCodes s) fun s =>
  atStep .selMtf execSelMtf s

/-- The five units before HUFF_BUILD complete on a non-empty block within its capacity. -/
theorem exists_counted (h : s.BlockBounded) (hne : s.blockEmpty = false) :
    ∃ u, Counted s u ∧ blkTransform s = blkCode u := by
  obtain ⟨s1, h1, hout1, hbuf⟩ : ∃ t, atStep .rle1Finish execRle1Finish s = .next t ∧
      t.output = s.output ∧ t.blkBuf = s.committed :=
    ⟨_, exec_rle1Finish (h.of_extent rfl), rfl, rfl⟩
  obtain ⟨s2, h2, hout2, hbwt⟩ : ∃ t, atStep .bwtSort execBwtSort s1 = .next t ∧
      t.output = s.output ∧ t.bwtOut = bwtBytes s.committed :=
    ⟨_, exec_bwtSort (s := s1.setPhase _) (hbuf ▸ h.committed_ne_nil hne)
      (hbuf ▸ h.committed_length_le), hout1, congrArg bwtBytes hbuf⟩
  obtain ⟨s3, h3, hout3, hbwt3, halpha⟩ : ∃ t, atStep .symAnalyze execSymAnalyze s2 = .next t ∧
      t.output = s.output ∧ t.bwtOut = s2.bwtOut ∧ t.alpha = alphaOf (presentOf s2.bwtOut) :=
    ⟨_, rfl, hout2, rfl, rfl⟩
  have hsmall : s3.alpha.length ≤ 256 := halpha ▸ alphaOf_length_le _
  have hshort : s3.bwtOut.length ≤ 900000 := by
    rw [hbwt3, hbwt, bwtBytes_length]
    exact h.committed_length_le
  obtain ⟨s4, h4, hout4, halpha4, hranks, hlt⟩ : ∃ t, atStep .mtfRun execMtfRun s3 = .next t ∧
      t.output = s.output ∧ t.alpha = s3.alpha ∧ t.ranks.length = s3.bwtOut.length ∧
      ∀ r ∈ t.ranks, r.toNat < s3.m := by
    obtain ⟨rs, l, hgo, hlen, -, hlt⟩ := mtfGo_isSome s3.alpha s3.bwtOut fun x hx => by
      rw [halpha, mem_alphaOf_presentOf, ← hbwt3]
      exact hx
    refine ⟨_, exec_mtfRun (s := s3.setPhase _) hsmall hshort hgo, hout3, rfl,
      (List.length_map _).trans hlen, fun r hr => hlt _ ?_⟩
    exact map_toNat_map_ofNat_of_lt hsmall hlt ▸ List.mem_map_of_mem hr
  have hm4 : s4.m = s3.m := congrArg List.length halpha4
  have hranks4 : s4.ranks.length ≤ 900000 := hranks.trans_le hshort
  obtain ⟨s5, h5, hout5, halpha5, hsym, hfreq⟩ : ∃ t, atStep .rle2Run execRle2Run s4 = .next t ∧
      t.output = s.output ∧ t.alpha = s4.alpha ∧ t.sym = rle2Symbols s4.m s4.ranks ∧
      t.freq = freqOf s4.alphabetSize t.sym :=
    ⟨_, exec_rle2Run (s := s4.setPhase _) (hm4.trans_le hsmall) hranks4 (hm4 ▸ hlt), hout4, rfl,
      rfl, rfl⟩
  have hm5 : s5.m = s4.m := congrArg List.length halpha5
  refine ⟨s5, ⟨hout5, ?_, ?_, ?_, ?_⟩, ?_⟩
  · rw [halpha5, halpha4, halpha, hbwt]
  · rw [hfreq, freqOf_eq_map_count, List.length_map, List.length_range, hm5, State.alphabetSize]
  · rw [hsym]
    exact (rle2Symbols_length_le _ _).trans (Nat.succ_le_succ hranks4)
  · intro y hy
    rw [hsym, rle2Symbols, List.mem_append, List.mem_singleton] at hy
    rw [hm5]
    rcases hy with hy | rfl
    · have := rle2Go_zero_le (hm4 ▸ hlt) y hy
      omega
    · exact Nat.lt_succ_self _
  · simp only [blkTransform, h1, h2, h3, h4, h5, andThen_next, blkCode]

/-! ### Emission -/

/-- Every entry that emission reads is written (R279 to R281). -/
structure Emittable (s : State) : Prop where
  selRank : s.nsel.toNat ≤ s.selRank.length
  sel : s.sym.length ≤ 50 * s.sel.length
  trees : ∀ g ∈ s.sel, g < s.len.length ∧ g < s.code.length
  len : ∀ lens ∈ s.len, ∀ y ∈ s.sym, y < lens.length
  code : ∀ codes ∈ s.code, ∀ y ∈ s.sym, y < codes.length

theorem Emittable.codeField (h : Emittable s) {g y : Nat} (hg : g ∈ s.sel) (hy : y ∈ s.sym) :
    ∃ f, codeField s g y = some f := by
  obtain ⟨hlen, hcode⟩ := h.trees g hg
  have hl := h.len _ (List.getElem_mem hlen) y hy
  have hc := h.code _ (List.getElem_mem hcode) y hy
  simp only [Machine.codeField, List.getElem?_eq_getElem hlen, List.getElem?_eq_getElem hcode,
    List.getElem?_eq_getElem hl, List.getElem?_eq_getElem hc]
  exact ⟨_, rfl⟩

theorem Emittable.blockFields (h : Emittable s) : ∃ fs, blockFields s = some fs := by
  have hranks : selectorFields s = some ((s.selRank.take s.nsel.toNat).map selectorField) :=
    if_neg (Nat.not_lt.mpr h.selRank)
  obtain ⟨fs, hfs, -⟩ := exists_mapM_eq_some (f := fun p : Nat × Nat => symbolField s p.1 p.2)
    (l := s.sym.zipIdx) fun p hp => by
      obtain ⟨-, hk, hy⟩ := List.mem_zipIdx (x := p.1) (i := p.2) hp
      have hgroup : p.2 / Config.group < s.sel.length := by
        have := h.sel
        unfold Config.group
        omega
      simp only [symbolField, List.getElem?_eq_getElem hgroup]
      exact h.codeField (List.getElem_mem hgroup) (hy ▸ List.getElem_mem _)
  exact ⟨_, by rw [Machine.blockFields, hranks, symbolFields, hfs]⟩

/-! ### HUFF_BUILD and after -/

/-- There is a selector for every group of 50 symbols (R241), and SEL and the width of NSEL hold them. -/
theorem nselOf_bounds {l : Nat} (h : l ≤ 900001) : l ≤ 50 * nselOf l ∧ nselOf l < 2 ^ 15 := by
  unfold nselOf Config.group
  omega

/-- What HUFF_BUILD leaves for the units after it: a whole table for every tree, and a tree for every
group of 50 symbols. -/
structure Built (s : State) : Prop where
  m_le : s.m ≤ 256
  trees : s.len.length = s.ntrees.toNat
  tables : ∀ lens ∈ s.len, lens.length = s.m + 2
  groups : s.sel.length = s.nsel.toNat
  schedule : ∀ g ∈ s.sel, g < s.ntrees.toNat
  sel : s.sym.length ≤ 50 * s.sel.length
  symbols : ∀ y ∈ s.sym, y < s.m + 2

/-- The outcome is CodeLengthOverflow on a code of more than 20 bits, and no bit of the block of `s` has
been sent (R249). -/
def OverflowsUnsent (s : State) (o : Result) : Prop :=
  ∃ longest e, o = .fault (.codeLengthOverflow longest e) ∧ 20 < longest ∧
    e.err = .codeLengthOverflow ∧ e.sinkBytes = s.sinkBytes ∧ e.bwCnt = s.bwCnt

theorem OverflowsUnsent.andThen {o : Result} (h : OverflowsUnsent s o) (f : State → Result) :
    OverflowsUnsent s (Machine.andThen o f) := by
  obtain ⟨longest, e, rfl, h⟩ := h
  exact ⟨longest, e, rfl, h⟩

/-- HUFF_BUILD on the symbols of a block (R240, R249). -/
theorem Counted.huffBuild (h : Counted s u) :
    (∃ t, atStep .huffBuild execHuffBuild u = .next t ∧ t.output = s.output ∧ Built t) ∨
    OverflowsUnsent s (atStep .huffBuild execHuffBuild u) := by
  obtain ⟨-, lens, -, hlens, -⟩ :=
    exists_huffLengths u.tieOrder (List.ne_nil_of_length_eq_add_one h.freq)
  have hexec : atStep .huffBuild execHuffBuild u = _ :=
    exec_huffBuild (s := u.setPhase (.serialize .huffBuild)) h.freq h.m_le
      (h.sym.trans (by decide)) hlens
  rw [hexec]
  by_cases hlong : 20 < maxLength lens
  · rw [if_pos hlong]
    have hwriter : u.writer = s.writer := congrArg Prod.fst h.output
    exact .inr ⟨maxLength lens, _, rfl, hlong, rfl, congrArg Writer.bytes hwriter,
      congrArg Writer.cnt hwriter⟩
  · rw [if_neg hlong]
    obtain ⟨hcover, hnsel⟩ := nselOf_bounds h.sym
    obtain ⟨htwo, hsix⟩ := ntreesOf_bounds (nselOf u.symLen)
    have hn : (BitVec.ofNat 15 (nselOf u.symLen)).toNat = nselOf u.symLen := Nat.mod_eq_of_lt hnsel
    have ht : (BitVec.ofNat 3 (ntreesOf (nselOf u.symLen))).toNat = ntreesOf (nselOf u.symLen) :=
      Nat.mod_eq_of_lt (hsix.trans_lt (by decide))
    refine .inl ⟨_, rfl, h.output,
      { m_le := h.m_le
        trees := List.length_replicate.trans ht.symm
        tables := fun l hl => ?_
        groups := (scheduleOf_length _ _).trans hn.symm
        schedule := fun g hg => (scheduleOf_lt (Nat.zero_lt_of_lt htwo) hg).trans_eq ht.symm
        sel := hcover.trans_eq (congrArg _ (scheduleOf_length _ _).symm)
        symbols := h.symbols }⟩
    exact List.eq_of_mem_replicate hl ▸ (huffLengths_length hlens).trans h.freq

/-- HUFF_CODES and SEL_MTF then complete, and emission has all it reads. -/
theorem Built.codes_and_selectors (h : Built s) :
    ∃ t, andThen (atStep .huffCodes execHuffCodes s) (atStep .selMtf execSelMtf) = .next t ∧
      t.output = s.output ∧ Emittable t := by
  have hcodes : atStep .huffCodes execHuffCodes s = _ :=
    exec_huffCodes (s := s.setPhase (.serialize .huffCodes)) h.m_le h.trees.ge
      fun lens hlens => (h.tables lens (List.mem_of_mem_take hlens)).ge
  obtain ⟨rs, l, hgo, hrs, -⟩ := mtfGo_isSome (List.range s.ntrees.toNat) (s.sel.take s.nsel.toNat)
    fun g hg => List.mem_range.mpr (h.schedule g (List.mem_of_mem_take hg))
  have hlive : (liveLengths s).length = s.len.length := by
    rw [liveLengths, List.length_map, List.take_of_length_le h.trees.le]
  rw [hcodes, andThen_next]
  refine ⟨_, exec_selMtf (s := State.setPhase _ _) h.groups.ge hgo, rfl,
    { selRank := ?_, sel := h.sel, trees := fun g hg => ?_, len := fun lens hlens y hy => ?_
      code := fun codes hc y hy => ?_ }⟩
  · exact (hrs.trans (List.length_take_of_le h.groups.ge)).ge
  · have hlt := (h.schedule g hg).trans_eq h.trees.symm
    exact ⟨hlt, hlt.trans_eq (hlive.symm.trans (List.length_map _).symm)⟩
  · exact (h.symbols y hy).trans_eq (h.tables lens hlens).symm
  · obtain ⟨live, hmem, rfl⟩ := List.mem_map.mp hc
    obtain ⟨lens, hlens, rfl⟩ := List.mem_map.mp hmem
    rw [codeTable, List.length_map, canonicalCodes_length, List.length_take_of_le]
    · exact h.symbols y hy
    · exact (h.tables lens (List.mem_of_mem_take hlens)).ge

/-- The transform of a non-empty block leaves all that emission reads and sends nothing, or ends at a
long code. -/
theorem blkTransform_cases (h : s.BlockBounded) (hne : s.blockEmpty = false) :
    (∃ t, blkTransform s = .next t ∧ t.output = s.output ∧ Emittable t) ∨
    OverflowsUnsent s (blkTransform s) := by
  obtain ⟨u, hu, htransform⟩ := exists_counted h hne
  rw [htransform, blkCode]
  rcases hu.huffBuild with ⟨v, hv, hout, hbuilt⟩ | hlong
  · obtain ⟨t, ht, hout', hemit⟩ := hbuilt.codes_and_selectors
    rw [hv, andThen_next]
    exact .inl ⟨t, ht, hout'.trans hout, hemit⟩
  · exact .inr (hlong.andThen _)

/-! ### BLK_SERIALIZE -/

/-- A transformed block is sent, and completed when the sink did not fail (R282, R283). -/
theorem execBlkSerialize_of_transform {v : State} {fs : List Field} (hne : s.blockEmpty = false)
    (ht : blkTransform s = .next t) (hfs : blockFields (t.setPhase (.serialize .emit)) = some fs)
    (hv : v = (t.setPhase (.serialize .emit)).writeFields fs) :
    execBlkSerialize s = .next ((if v.err = .noError then
      blkComplete (v.setPhase (.serialize .complete)) else v).setPhase s.phase) := by
  have hemit : atStep .emit blkEmit t = .next v := by
    rw [atStep, blkEmit, hfs, hv]
  rw [execBlkSerialize, hne, if_neg Bool.false_ne_true, ht, andThen_next, hemit, andThen_next]

/-- Settles O45: what is transformed can be emitted, and only the sink raises an error while it is. -/
theorem serializeFaultsOnlyOnLongCodes : Obligations.SerializeFaultsOnlyOnLongCodes := by
  intro s h hne herr
  rcases blkTransform_cases h hne with ⟨t, ht, hout, hemit⟩ | hlong
  · obtain ⟨fs, hfs⟩ := hemit.blockFields
    obtain ⟨hwriter, hscrc, hbcrc⟩ : t.writer = s.writer ∧ t.scrc = s.scrc ∧ t.bcrc = s.bcrc := by
      simpa [State.output] using hout
    have hexec := execBlkSerialize_of_transform hne ht hfs rfl
    refine .inl ⟨_, hexec, execBlkSerialize_sameButBlock hexec, ?_⟩
    split
    · next hok => exact .inl hok
    · next hfail =>
      have hsink := (State.writeFields_err (t.setPhase (.serialize .emit)) fs).resolve_left fun he =>
        hfail (he.trans ((congrArg Writer.err hwriter).trans herr))
      exact .inr ⟨hsink, hscrc, hbcrc⟩
  · right
    rw [show exec .blkSerialize s = execBlkSerialize s from rfl, execBlkSerialize, hne,
      if_neg Bool.false_ne_true]
    exact hlong.andThen _

end Sys2Proof.Machine
end

section
/-! PROOFS. The step by the host's next action, and the commands that end at a check: what each answers and
that nothing else changes (49_stream_commands.md R300, R301, R309, 60_exceptions.md R342 to R352, R360). -/

namespace Sys2Proof.Machine

variable {s : State}

/-! ### The step -/

theorem step_command {w : Word} {i : Instr} {es : List HostEvent} (hidle : s.phase = .idle)
    (hq : s.hostQueue = .command w :: es) (hd : decode (.command w) = .ok i) :
    step s = exec i { s with hostQueue := es, cmd := w } := by
  simp only [step, fetch, hq, hidle, hd]

theorem step_illegalCommand {w : Word} {e : DecodeError} {es : List HostEvent}
    (hidle : s.phase = .idle) (hq : s.hostQueue = .command w :: es)
    (hd : decode (.command w) = .error e) :
    step s = .next (illegalCommand { s with hostQueue := es, cmd := w }) := by
  simp only [step, fetch, hq, hidle, hd]

theorem step_uop {bytes : List Byte} {i : Instr} {es : List HostEvent}
    (hq : s.hostQueue = .uop bytes :: es) (hd : decode (.uop bytes) = .ok i) :
    step s = exec i { s with hostQueue := es } := by
  simp only [step, fetch, hq, hd]

/-- Settles O5, by the host's next action. -/
theorem stepRunsDecodedInstruction : Obligations.StepRunsDecodedInstruction :=
  fun _ _ _ => ⟨fun _ => step_command, fun _ => step_uop⟩

/-- Settles O6: with an empty queue there is nothing to fetch. -/
theorem idleStepKeepsState : Obligations.IdleStepKeepsState := by
  intro s hq
  simp only [step, fetch, hq]

theorem step_busy {e : HostEvent} {es : List HostEvent} (hbusy : s.phase ≠ .idle)
    (hq : s.hostQueue = e :: es) (he : ∀ bytes, e ≠ .uop bytes) : step s = .refused .hostBusy := by
  obtain ⟨hnil, -⟩ | ⟨_, _, -, hidle, -⟩ | ⟨_, _, _, -, hidle, -⟩ | ⟨bytes, es', huop, -⟩ |
    ⟨-, hstep⟩ :=
    step_cases s
  · simp [hq] at hnil
  · exact absurd hidle hbusy
  · exact absurd hidle hbusy
  · exact absurd (List.cons.inj (hq.symm.trans huop)).1 (he bytes)
  · exact hstep

/-- Settles O7: the step looks at PHASE, and WRITE at the bytes supplied, before anything else. -/
theorem hostOutsideContractIsRefused : Obligations.HostOutsideContractIsRefused :=
  ⟨fun _ _ _ hbusy hq => step_busy hbusy hq (by simp), fun _ _ _ _ hbusy hq => step_busy hbusy hq (by simp),
    fun _ _ hshort => if_neg (by simpa [State.dinReady] using hshort)⟩

/-! ### Illegal words -/

/-- Completion leaves PHASE when it is Idle already (R300). -/
theorem State.answer_of_idle (h : s.phase = .idle) (e : ErrCode) (c : BitVec 24) :
    s.answer e c = { s with result := resultWord e c } := by
  rw [State.answer, ← h]

/-- CONFIG's bits above the level field are zero exactly when `imm24` is below 16 (R82). -/
theorem extractLsb'_eq_zero_iff_lt {imm : BitVec 24} : imm.extractLsb' 4 20 = 0 ↔ imm.toNat < 16 := by
  rw [← BitVec.toNat_inj, BitVec.extractLsb'_toNat, Nat.shiftRight_eq_div_pow]
  have := imm.isLt
  change imm.toNat / 2 ^ 4 % 2 ^ 20 = 0 ↔ _
  omega

theorem decodeCommand_configWide {w : Word} (hop : cmdOp w = 0x01) (himm : 16 ≤ (cmdImm w).toNat) :
    decodeCommand w = .error .mustBeZero := by
  have hwide : ¬ (cmdImm w).extractLsb' 4 20 = 0 :=
    extractLsb'_eq_zero_iff_lt.not.mpr (Nat.not_lt.mpr himm)
  unfold decodeCommand
  dsimp only
  rw [hop]
  exact if_neg hwide

/-- R85's illegal words are rejected. -/
theorem decodeCommand_of_illegalWord {w : Word} (h : IllegalWord w) :
    ∃ e, decodeCommand w = .error e := by
  obtain hop | ⟨hop, himm⟩ | ⟨hop, himm⟩ := h
  · refine ⟨.illegalOp, ?_⟩
    have hop' : (cmdOp w).toNat = 0 ∨ 6 ≤ (cmdOp w).toNat := hop.imp_left fun h => by rw [h]; rfl
    unfold decodeCommand
    dsimp only
    split
    case h_6 => rfl
    all_goals omega
  · exact ⟨_, decodeCommand_configWide hop himm⟩
  · refine ⟨.mustBeZero, ?_⟩
    obtain hop | hop | hop := hop <;>
    · unfold decodeCommand
      dsimp only
      rw [hop]
      exact if_neg himm

/-- Settles O4: IllegalCommand is not sticky, so it enters RESULT only. -/
theorem illegalCommandWritesResultOnly : Obligations.IllegalCommandWritesResultOnly := by
  intro s w es hidle hq hw
  obtain ⟨e, he⟩ := decodeCommand_of_illegalWord hw
  rw [step_illegalCommand hidle hq he]
  exact congrArg Host.Outcome.next
    (State.answer_of_idle (s := { s with hostQueue := es, cmd := w }) hidle _ _)

/-! ### CONFIG and RESET -/

theorem levelOf_of_le {lv : BitVec 4} (h : lv.toNat ≤ 9) :
    levelOf lv = some (if lv = 0 then 6 else lv) := by
  unfold levelOf
  split
  · rfl
  · exact if_pos h

theorem levelOf_of_gt {lv : BitVec 4} (h : 9 < lv.toNat) : levelOf lv = none := by
  have hne : lv ≠ 0 := by
    rintro rfl
    simp at h
  unfold levelOf
  rw [if_neg hne]
  exact if_neg (Nat.not_le.mpr h)

/-- Settles O10, by whether the field selects a level. -/
theorem configSetsLevelOrRejects : Obligations.ConfigSetsLevelOrRejects := by
  refine ⟨fun w => decodeCommand_configWide, fun s lv => ⟨?_, fun hbad => ?_⟩⟩
  · rintro hgood level rfl
    show execConfig lv s = _
    rw [execConfig, levelOf_of_le hgood]
    rfl
  · show execConfig lv s = _
    rw [execConfig, levelOf_of_gt hbad]
    rfl

theorem exec_reset (h : s.sstate ≠ .unconfigured) :
    exec .reset s = .next (s.restart.answer .noError 0) := by
  show execReset s = _
  unfold execReset
  split
  · next hs => exact absurd hs h
  all_goals rfl

theorem exec_reset_unconfigured (h : s.sstate = .unconfigured) :
    exec .reset s = .next (s.failWith .notConfigured 0) := by
  show execReset s = _
  rw [execReset, h]

/-- Settles O11, by whether CORE is configured. -/
theorem resetRestartsConfiguredStream : Obligations.ResetRestartsConfiguredStream :=
  fun _ => ⟨exec_reset, exec_reset_unconfigured⟩

/-! ### WRITE, FLUSH and CLOSE at a check -/

/-- FLUSH and CLOSE end at the error a check finds, and so does a WRITE, whose bytes are discarded
(R350). -/
theorem exec_of_check {e : ErrCode} (h : s.check = some e) :
    exec .flush s = .next (s.failWith e 0) ∧ exec .close s = .next (s.failWith e 0) ∧
    ∀ n : BitVec 24, n.toNat ≤ s.dinIn.length →
      exec (.write n) s = .next ((s.discardDin n).failWrite n e) := by
  refine ⟨?_, ?_, fun n hn => ?_⟩
  · show execFlush s = _
    rw [execFlush, h]
  · show execClose s = _
    rw [execClose, h]
  · have hready : s.dinReady n = true := decide_eq_true hn
    show execWrite n s = _
    rw [execWrite, if_pos hready, h]

/-- The count of a failed WRITE is within the bytes it was given (R305). -/
theorem State.freeCount_le (s : State) (n : BitVec 24) : (s.freeCount n).toNat ≤ n.toNat := by
  have hmod : Config.freeCount s.draws % (n.toNat + 1) < n.toNat + 1 := Nat.mod_lt _ (Nat.succ_pos _)
  rw [State.freeCount, BitVec.toNat_ofNat]
  exact (Nat.mod_le _ _).trans (Nat.lt_succ_iff.mp hmod)

/-- A RESULT word is its error and its count (R86). -/
theorem resultWord_eq_add (e : ErrCode) (c : BitVec 24) :
    resultWord e c = resultWord e 0 + c.setWidth 32 := by
  have hlt : c.toNat < 2 ^ 32 := c.isLt.trans (by decide)
  have hadd (d : BitVec 24) :
      (resultWord e d).toNat = (e.code ++ (0 : BitVec 4)).toNat <<< 24 + d.toNat := by
    rw [resultWord, BitVec.toNat_append, Nat.shiftLeft_add_eq_or_of_lt d.isLt]
  refine BitVec.eq_of_toNat_eq ?_
  rw [BitVec.toNat_add, BitVec.toNat_setWidth, Nat.mod_eq_of_lt hlt, hadd 0]
  change _ = (_ + 0 + _) % _
  rw [Nat.add_zero, ← hadd c, Nat.mod_eq_of_lt (resultWord e c).isLt]

theorem resultWord_noError (c : BitVec 24) : resultWord .noError c = c.setWidth 32 := by
  rw [resultWord_eq_add]
  exact BitVec.zero_add _

/-- A WRITE that ends at a check changes RESULT, PHASE, the DIN port and the model's draws, and ERR when
the error is sticky (R305, R350, R351). -/
theorem exec_write_of_check {e : ErrCode} (h : s.check = some e) {n : BitVec 24}
    (hn : n.toNat ≤ s.dinIn.length) :
    ∃ (t : State) (c : BitVec 24), exec (.write n) s = .next t ∧ c.toNat ≤ n.toNat ∧
      t.result = resultWord e c ∧ t.dinIn = s.dinIn.drop n.toNat ∧
      t = { s.raise e with result := t.result, phase := .idle, dinIn := t.dinIn,
                           din := (s.dinIn.take n.toNat).getLastD s.din, writeIn := [],
                           draws := t.draws } :=
  have ⟨_, _, hwrite⟩ := exec_of_check h
  ⟨_, _, hwrite n hn, State.freeCount_le (s.discardDin n) n, rfl, rfl, rfl⟩

/-- Settles O12: NotConfigured is not sticky. -/
theorem unconfiguredCommandsAnswerNotConfigured :
    Obligations.UnconfiguredCommandsAnswerNotConfigured := by
  intro s hs
  have hcheck : s.check = some .notConfigured := State.check_eq_some.mpr (.inl ⟨hs, rfl⟩)
  obtain ⟨hflush, hclose, -⟩ := exec_of_check hcheck
  refine ⟨hflush, hclose, exec_reset_unconfigured hs, fun n hn => ?_⟩
  obtain ⟨t, c, hexec, hc, hresult, hdin, hframe⟩ := exec_write_of_check hcheck hn
  exact ⟨t, c, hexec, hc, hresult.trans (resultWord_eq_add _ c), hdin, hframe⟩

/-- Settles O13: ERR raised again is as it was. -/
theorem stickyErrorIsAnswered : Obligations.StickyErrorIsAnswered := by
  intro s hs herr
  have hcheck : s.check = some s.err := State.check_eq_some.mpr (.inr (.inl ⟨hs, herr, rfl⟩))
  obtain ⟨hflush, hclose, -⟩ := exec_of_check hcheck
  have hfail : s.failWith s.err 0 = { s with result := resultWord s.err 0, phase := .idle } :=
    congrArg (State.answer · s.err 0) s.raise_own_err
  refine ⟨hfail ▸ hflush, hfail ▸ hclose, fun n hn => ?_⟩
  obtain ⟨t, c, hexec, hc, hresult, hdin, hframe⟩ := exec_write_of_check hcheck hn
  rw [s.raise_own_err] at hframe
  exact ⟨t, c, hexec, hc, hresult, hdin, hframe⟩

/-- Settles O14: WriteAfterClose is sticky. -/
theorem closedStreamRejectsCommands : Obligations.ClosedStreamRejectsCommands := by
  intro s hs herr
  have hcheck : s.check = some .writeAfterClose :=
    State.check_eq_some.mpr (.inr (.inr ⟨hs, herr, rfl⟩))
  obtain ⟨hflush, hclose, -⟩ := exec_of_check hcheck
  refine ⟨hflush, hclose, fun n hn => ?_⟩
  obtain ⟨t, c, hexec, hc, hresult, hdin, hframe⟩ := exec_write_of_check hcheck hn
  exact ⟨t, c, hexec, hc, hresult.trans (resultWord_eq_add _ c), hdin, hframe⟩

/-! ### Power-on -/

/-- Settles O56, by computation. -/
theorem powerOnState : Obligations.PowerOnState := by
  unfold Obligations.PowerOnState
  decide

end Sys2Proof.Machine
end

section
/-! PROOFS. PHASE inside a command (10_state.md R23): no rule reads it, so what a command does is the same
from every value of it, and its end makes it Idle (49_stream_commands.md R300; log 1). -/

namespace Sys2Proof.Machine

variable {s t u : State} {op f : State → Result} {o o' : Result}

/-! ### Outcomes with PHASE set aside -/

/-- Sets PHASE in the state a fault holds. -/
def Fault.setPhase (p : Phase) : Fault → Fault
  | .unalignedWrite e => .unalignedWrite (e.setPhase p)
  | .invariantViolation w e => .invariantViolation w (e.setPhase p)
  | .codeLengthOverflow n e => .codeLengthOverflow n (e.setPhase p)

/-- Sets PHASE in the state of an outcome. -/
def setOutcomePhase (p : Phase) : Result → Result
  | .next s => .next (s.setPhase p)
  | .fault r => .fault (r.setPhase p)
  | .refused r => .refused r

/-- Two outcomes that differ in PHASE only. -/
def EqUpToPhase (o o' : Result) : Prop := setOutcomePhase .idle o = setOutcomePhase .idle o'

theorem EqUpToPhase.refl (o : Result) : EqUpToPhase o o := rfl

theorem eqUpToPhase_next (s : State) (p : Phase) : EqUpToPhase (.next (s.setPhase p)) (.next s) := rfl

/-- Outcomes that differ in PHASE only are of one kind. -/
theorem EqUpToPhase.cases (h : EqUpToPhase o o') :
    (∃ s t : State, o = .next s ∧ o' = .next t ∧ s.setPhase .idle = t.setPhase .idle) ∨
    (∃ r r' : Fault, o = .fault r ∧ o' = .fault r' ∧ r.setPhase .idle = r'.setPhase .idle) ∨
    (∃ r, o = .refused r ∧ o' = .refused r) := by
  unfold EqUpToPhase at h
  cases o <;> cases o' <;> simp_all [setOutcomePhase]

/-- A sequence goes on alike from states that differ in PHASE only. -/
theorem EqUpToPhase.andThen (h : EqUpToPhase o o')
    (hf : ∀ (s : State) (p : Phase), EqUpToPhase (f (s.setPhase p)) (f s)) :
    EqUpToPhase (Machine.andThen o f) (Machine.andThen o' f) := by
  obtain ⟨s, t, rfl, rfl, hst⟩ | ⟨r, r', rfl, rfl, hr⟩ | ⟨r, rfl, rfl⟩ := h.cases
  · exact (hf s .idle).symm.trans ((congrArg (fun u => setOutcomePhase .idle (f u)) hst).trans (hf t .idle))
  · exact congrArg Host.Outcome.fault hr
  · rfl

theorem Fault.inCommand_setPhase {c : State → BitVec 24} (hc : ∀ s, c (s.setPhase .idle) = c s)
    (r : Fault) : (r.setPhase .idle).inCommand c = r.inCommand c := by
  cases r <;> simp only [Fault.setPhase, Fault.inCommand, hc] <;> rfl

/-- The end of a command makes PHASE Idle. -/
theorem EqUpToPhase.endCommand {finish : State → State} {count : State → BitVec 24}
    (h : EqUpToPhase o o') (hf : ∀ s, finish (s.setPhase .idle) = finish s)
    (hc : ∀ s, count (s.setPhase .idle) = count s) :
    Machine.endCommand finish count o = Machine.endCommand finish count o' := by
  obtain ⟨s, t, rfl, rfl, hst⟩ | ⟨r, r', rfl, rfl, hr⟩ | ⟨r, rfl, rfl⟩ := h.cases
  · rw [endCommand_next, endCommand_next, ← hf s, hst, hf]
  · rw [endCommand_fault, endCommand_fault, ← Fault.inCommand_setPhase hc r, hr,
      Fault.inCommand_setPhase hc]
  · rfl

/-! ### The units -/

/-- The operation does the same from every PHASE and leaves it. -/
def PhaseBlind (op : State → Result) : Prop :=
  ∀ (s : State) (p : Phase), setOutcomePhase s.phase (op (s.setPhase p)) = op s

/-- A unit run at a step of the serialisation does what it does at any PHASE. -/
theorem PhaseBlind.of_atStep (h : PhaseBlind op) {q : SerStep} (he : atStep q op s = .next t)
    (p : Phase) : op (s.setPhase p) = .next (t.setPhase p) := by
  have hp := h (s.setPhase p) (.serialize q)
  rw [State.setPhase_setPhase] at hp
  exact hp.symm.trans (congrArg (setOutcomePhase p) he)

theorem execRle1Finish_phaseBlind : PhaseBlind execRle1Finish := by
  intro s p
  unfold execRle1Finish
  rw [State.block_setPhase]
  cases s.block.commit s.block.pending <;> rfl

/-- A branch on what does not look at PHASE. -/
theorem setOutcomePhase_ite {c c' : Prop} [Decidable c] [Decidable c'] {p : Phase} {x x' y y' : Result}
    (hc : c' ↔ c) (hx : setOutcomePhase p x' = x) (hy : setOutcomePhase p y' = y) :
    setOutcomePhase p (if c' then x' else y') = if c then x else y := by
  rw [← hx, ← hy, ← apply_ite (setOutcomePhase p)]
  simp only [hc]

theorem execBwtSort_phaseBlind : PhaseBlind execBwtSort :=
  fun _ _ => setOutcomePhase_ite .rfl rfl (setOutcomePhase_ite .rfl rfl rfl)

theorem execSymAnalyze_phaseBlind : PhaseBlind execSymAnalyze := fun _ _ => rfl

theorem execMtfRun_phaseBlind : PhaseBlind execMtfRun := by
  refine fun s p => setOutcomePhase_ite .rfl rfl ?_
  rw [State.setPhase_alpha, State.setPhase_bwtOut]
  cases mtfGo s.alpha s.bwtOut <;> rfl

theorem execRle2Run_phaseBlind : PhaseBlind execRle2Run :=
  fun _ _ => setOutcomePhase_ite .rfl rfl rfl

theorem execHuffBuild_phaseBlind : PhaseBlind execHuffBuild := by
  refine fun s p => setOutcomePhase_ite .rfl rfl ?_
  have ha : (s.setPhase p).alphabetSize = s.alphabetSize := rfl
  rw [State.setPhase_tieOrder, State.setPhase_freq, ha]
  cases huffLengths s.tieOrder (s.freq.take s.alphabetSize) with
  | none => rfl
  | some lens => exact setOutcomePhase_ite .rfl rfl rfl

theorem execHuffCodes_phaseBlind : PhaseBlind execHuffCodes :=
  fun _ _ => setOutcomePhase_ite .rfl rfl rfl

theorem execSelMtf_phaseBlind : PhaseBlind execSelMtf := by
  refine fun s p => setOutcomePhase_ite .rfl rfl ?_
  rw [State.setPhase_sel, State.setPhase_nsel, State.setPhase_ntrees]
  cases mtfGo (List.range s.ntrees.toNat) (s.sel.take s.nsel.toNat) <;> rfl

/-! ### BLK_SERIALIZE -/

/-- The working registers of R33 to R41. -/
def State.work (s : State) :=
  (s.bwtOut, s.ptr, s.present, s.alpha, s.mtfList, s.ranks, s.sym, s.freq, s.nsel, s.ntrees, s.len,
    s.code, s.sel, s.selRank)

theorem sameWork_iff : SameWork s t ↔ s.work = t.work := by
  simp only [SameWork, State.work, Prod.mk.injEq]

/-- Emission and completion leave the working registers of the transform (R271 to R282). -/
theorem execBlkSerialize_work (h : execBlkSerialize s = .next t) :
    ∃ u, blkTransform s = .next u ∧ u.work = t.work := by
  obtain ⟨-, u, fs, hu, -, v, rfl, ⟨-, rfl⟩ | ⟨-, rfl⟩⟩ := execBlkSerialize_next h
  · exact ⟨u, hu, rfl⟩
  · exact ⟨u, hu, rfl⟩

/-- Settles O41: the transform runs the units one after another, each with PHASE at its step, which none
of them reads. -/
theorem serializeRunsUnitsInOrder : Obligations.SerializeRunsUnitsInOrder := by
  intro s t h
  obtain ⟨u, hu, hwork⟩ := execBlkSerialize_work h
  obtain ⟨s1, s2, s3, s4, s5, s6, s7, h1, h2, h3, h4, h5, h6, h7, h8⟩ := blkTransform_next hu
  exact ⟨_, _, _, _, _, _, _, _, execRle1Finish_phaseBlind.of_atStep h1 s.phase,
    execBwtSort_phaseBlind.of_atStep h2 _, execSymAnalyze_phaseBlind.of_atStep h3 _,
    execMtfRun_phaseBlind.of_atStep h4 _, execRle2Run_phaseBlind.of_atStep h5 _,
    execHuffBuild_phaseBlind.of_atStep h6 _, execHuffCodes_phaseBlind.of_atStep h7 _,
    execSelMtf_phaseBlind.of_atStep h8 _, sameWork_iff.mpr hwork⟩

/-- BLK_SERIALIZE sets PHASE before it does anything, and sets it back at the end. -/
theorem execBlkSerialize_setPhase (s : State) (p : Phase) :
    EqUpToPhase (execBlkSerialize (s.setPhase p)) (execBlkSerialize s) := by
  have htransform : blkTransform (s.setPhase p) = blkTransform s := rfl
  have hempty : (s.setPhase p).blockEmpty = s.blockEmpty := rfl
  simp only [execBlkSerialize, hempty, htransform]
  split
  · rfl
  · cases blkTransform s with
    | next t => cases h : atStep .emit blkEmit t <;> simp only [andThen_next, h] <;> rfl
    | fault r => rfl
    | refused r => rfl

end Sys2Proof.Machine
end

section
/-! PROOFS. A block of few byte values is serialised to its end (47_huffman.md R249,
48_block_serializer.md R270, R282). -/

namespace Sys2Proof.Machine

variable {s t u : State}

/-- The reduced alphabet has one entry for each byte value of the block (42_symbol_set.md R160). -/
theorem alphaOf_presentOf_length_le (data : List Byte) :
    (alphaOf (presentOf data)).length ≤ data.dedup.length := by
  have hnodup : (alphaOf (presentOf data)).Nodup :=
    (alphaOf_ascending _).imp fun hlt heq => by simp [heq] at hlt
  refine (hnodup.subperm fun x hx => ?_).length_le
  exact List.mem_dedup.mpr ((mem_alphaOf_presentOf data x).mp hx)

theorem Counted.m_le_of_fewValues {k : Nat} (h : Counted s u) (hne : s.committed ≠ [])
    (hfew : s.fewValues k) : u.m ≤ k := by
  have hm : u.m ≤ (bwtBytes s.committed).dedup.length := by
    rw [State.m, h.alpha]
    exact alphaOf_presentOf_length_le _
  exact (hm.trans_eq (bwtBytes_perm hne).dedup.length_eq).trans hfew

/-- With at most 19 byte values no code is too long, so the transform ends (R249). -/
theorem blkTransform_of_fewValues (h : s.BlockBounded) (hne : s.blockEmpty = false)
    (hfew : s.fewValues 19) :
    ∃ t, blkTransform s = .next t ∧ t.output = s.output ∧ Emittable t := by
  obtain ⟨u, hu, htransform⟩ := exists_counted h hne
  have hm : u.m ≤ 19 := hu.m_le_of_fewValues (h.committed_ne_nil hne) hfew
  obtain ⟨w, hw⟩ : ∃ w, atStep .huffBuild execHuffBuild u = .next w :=
    huffBuildCompletesForSmallAlphabets _ hm hu.freq hu.sym
  obtain ⟨v, hv, hout, hbuilt⟩ | ⟨longest, e, hover, -⟩ := hu.huffBuild
  · obtain ⟨t, ht, hout', hemit⟩ := hbuilt.codes_and_selectors
    refine ⟨t, ?_, hout'.trans hout, hemit⟩
    rw [htransform, blkCode, hv, andThen_next, ht]
  · cases hw.symm.trans hover

/-- What the transform of a block that is serialised leaves: nothing is sent, and emission has all it
reads. -/
theorem blkTransform_emittable (h : s.BlockBounded) (hne : s.blockEmpty = false)
    (hu : blkTransform s = .next u) : u.output = s.output ∧ Emittable u := by
  obtain ⟨t, ht, hout, hemit⟩ | ⟨longest, e, hover, -⟩ := blkTransform_cases h hne
  · cases hu.symm.trans ht
    exact ⟨hout, hemit⟩
  · cases hu.symm.trans hover

/-- A completed serialisation leaves an empty block (R282). -/
theorem execBlkSerialize_empties (h : execBlkSerialize s = .next t) (herr : t.err = .noError) :
    t.blkBuf = [] ∧ t.runLen = 0 ∧ t.bcrc = 0 := by
  obtain ⟨-, u, fs, -, -, v, rfl, ⟨-, rfl⟩ | ⟨hv, rfl⟩⟩ := execBlkSerialize_next h
  · exact ⟨rfl, rfl, rfl⟩
  · exact absurd herr hv

/-- A completed serialisation sends the fields of the block, and combines the stream CRC (R271 to
R282). -/
theorem execBlkSerialize_completed (hs : s.BlockBounded) (h : execBlkSerialize s = .next t)
    (herr : t.err = .noError) :
    ∃ u fs, blkTransform s = .next u ∧ u.bcrc = s.bcrc ∧
      blockFields (u.setPhase (.serialize .emit)) = some fs ∧
      s.writer.Extends t.writer (fs.flatMap Field.bits) ∧ u.work = t.work ∧
      t.scrc = s.scrc.rotateLeft 1 ^^^ s.bcrc := by
  obtain ⟨hne, u, fs, hu, hfs, v, rfl, ⟨hok, rfl⟩ | ⟨hfail, rfl⟩⟩ := execBlkSerialize_next h
  · obtain ⟨hout, -⟩ := blkTransform_emittable hs hne hu
    obtain ⟨hwriter, hscrc, hbcrc⟩ : u.writer = s.writer ∧ u.scrc = s.scrc ∧ u.bcrc = s.bcrc := by
      simpa only [State.output, Prod.mk.injEq] using hout
    have hsent : (u.writer.writeBitList (fs.flatMap Field.bits)).err = .noError := by
      rw [← Writer.writeFields_eq]
      exact hok
    have hx := Writer.writeBitList_ok _ hsent
    rw [← Writer.writeFields_eq] at hx
    refine ⟨u, fs, hu, hbcrc, hfs, hwriter ▸ hx, rfl, ?_⟩
    · rw [← hscrc, ← hbcrc]
      rfl
  · exact absurd herr hfail

/-- Fields written to a sink that never fails. -/
theorem State.writeFields_extends_healthy (herr : s.err = .noError) (hsink : s.sinkHealthy)
    (fs : List Field) : s.writer.Extends (s.writeFields fs).writer (fs.flatMap Field.bits) := by
  rw [State.writeFields, State.writer_setWriter, Writer.writeFields_eq]
  exact Writer.writeBitList_extends_healthy _ herr hsink

/-- Settles O42: the transform ends, and a sink that never fails takes every bit. -/
theorem serializeCompletesBlock : Obligations.SerializeCompletesBlock := by
  intro s hs hne hfew herr hsink
  obtain ⟨u, hu, hout, hemit⟩ := blkTransform_of_fewValues hs hne hfew
  obtain ⟨fs, hfs⟩ := hemit.blockFields
  have hwriter : u.writer = s.writer := congrArg Prod.fst hout
  have hok : ((u.setPhase (.serialize .emit)).writeFields fs).err = .noError :=
    (State.writeFields_extends_healthy ((congrArg Writer.err hwriter).trans herr)
      (fun j => (congrArg (·.answerAt j) hwriter).trans (hsink j)) fs).err
  have hexec := execBlkSerialize_of_transform hne hu hfs rfl
  rw [if_pos hok] at hexec
  obtain ⟨-, -, -, -, -, -, -, hscrc⟩ := execBlkSerialize_completed hs hexec hok
  exact ⟨_, hexec, execBlkSerialize_sameButBlock hexec, hok, hscrc, rfl, rfl, rfl⟩

end Sys2Proof.Machine
end

section
/-! PROOFS. The bits of a serialised block are the block layout of the wire format, field by field
(30_encoding.md R93 to R97, 48_block_serializer.md R271 to R281), and its length is R284's sum. -/

namespace Sys2Proof.Machine

variable {s t u : State}

/-! ### Bits of a number -/

/-- `n` bits are those of a value when they are so one by one. -/
theorem lowBits_eq_map {n v : Nat} {f : Nat → Bool} (h : ∀ i < n, v.testBit (n - 1 - i) = f i) :
    lowBits n v = (List.range n).map f :=
  List.map_congr_left fun i hi => h i (List.mem_range.mp hi)

/-! ### Fields 5 and 6 (R94, R275, R276) -/

/-- Bit `j` of a range of PRESENT. -/
theorem range_getLsbD (present : BitVec 256) (i : Nat) {j : Nat} (hj : j < 16) :
    (present.extractLsb' (16 * i) 16).getLsbD j = present.getLsbD (16 * i + j) := by
  rw [BitVec.getLsbD_extractLsb', decide_eq_true hj, Bool.true_and]

theorem rangeUsed_eq (present : BitVec 256) (i : Nat) : rangeUsed present i = rangePresent present i := by
  rw [Bool.eq_iff_iff, rangeUsed, rangePresent, bne_iff_ne, ne_eq, List.any_eq_true]
  constructor
  · intro hne
    by_contra! hnone
    refine hne (BitVec.eq_of_getLsbD_eq fun j hj => ?_)
    rw [range_getLsbD present i hj]
    simpa using hnone j (List.mem_range.mpr hj)
  · rintro ⟨j, hj, hset⟩ hzero
    rw [← range_getLsbD present i (List.mem_range.mp hj), hzero] at hset
    simp at hset

theorem rangeWord_bits (present : BitVec 256) (i : Nat) :
    lowBits 16 (rangeWord present i).toNat =
      (List.range 16).map fun j => present.getLsbD (16 * i + j) := by
  refine lowBits_eq_map fun j hj => ?_
  show (rangeWord present i).getLsbD (16 - 1 - j) = _
  have hback : 16 - 1 - (16 - 1 - j) = j := by omega
  rw [rangeWord, BitVec.getLsbD_reverse, BitVec.getMsbD, hback, decide_eq_true (by omega),
    Bool.true_and, range_getLsbD present i hj]

/-- The loop of R275 sets the bit of each used range. -/
theorem foldl_setBit_getLsbD (f : Nat → Bool) (l : List Nat) (u : BitVec 16) (k : Nat) :
    (l.foldl (fun u i => if f i then u ||| ((1 : BitVec 16) <<< (15 - i)) else u) u).getLsbD k =
      (u.getLsbD k || l.any fun i => f i && 15 - i == k) := by
  induction l generalizing u with
  | nil => simp
  | cons i l ih =>
    rw [List.foldl_cons, ih, List.any_cons, ← Bool.or_assoc]
    congr 1
    cases f i with
    | false => simp
    | true =>
      have hbit : ((1 : BitVec 16) <<< (15 - i)).getLsbD k = (15 - i == k) := by
        change ((1#16) <<< (15 - i)).getLsbD k = _
        rw [← BitVec.twoPow_eq, BitVec.getLsbD_twoPow, decide_eq_true (by omega), Bool.true_and,
          Bool.beq_eq_decide_eq]
      rw [if_pos rfl, BitVec.getLsbD_or, hbit, Bool.true_and]

theorem rangeBitmap_bits (present : BitVec 256) :
    lowBits 16 (rangeBitmap present).toNat = (List.range 16).map (rangePresent present) := by
  refine lowBits_eq_map fun i hi => ?_
  show (rangeBitmap present).getLsbD (16 - 1 - i) = _
  have hzero : (0 : BitVec 16).getLsbD (16 - 1 - i) = false := BitVec.getLsbD_zero
  rw [rangeBitmap, foldl_setBit_getLsbD, ← rangeUsed_eq, hzero, Bool.false_or,
    Bool.eq_iff_iff, List.any_eq_true]
  constructor
  · rintro ⟨j, hj, hset⟩
    rw [Bool.and_eq_true, beq_iff_eq] at hset
    have hij : j = i := by have := List.mem_range.mp hj; omega
    exact hij ▸ hset.1
  · exact fun hset => ⟨i, List.mem_range.mpr hi, by simp [hset]⟩

theorem flatMap_filter_eq {α β : Type} (p : α → Bool) (f : α → List β) (l : List α) :
    (l.filter p).flatMap f = l.flatMap fun x => if p x then f x else [] := by
  induction l with
  | nil => rfl
  | cons x l ih => cases h : p x <;> simp [h, ih]

theorem rangeFields_bits (present : BitVec 256) :
    (rangeFields present).flatMap Field.bits = rangeBits present := by
  have hfield (v : BitVec 16) : (fieldOf 16 v.toNat).bits = lowBits 16 v.toNat :=
    fieldOf_bits _ (by decide)
  simp only [rangeFields, List.flatMap_cons, List.flatMap_map, hfield, rangeBitmap_bits,
    rangeWord_bits, flatMap_filter_eq, rangeUsed_eq, rangeBits]

/-! ### Field 9 (R95, R279) -/

/-- `r` ones above a zero. -/
theorem testBit_selector {r j : Nat} (hj : j ≤ r) :
    ((2 ^ r - 1) * 2).testBit j = decide (1 ≤ j) := by
  cases j with
  | zero => simp
  | succ j => simp [Nat.testBit_succ, Nat.lt_of_succ_le hj]

theorem selectorField_bits {r : Nat} (h : r < 64) : (selectorField r).bits = selectorBits r := by
  rw [selectorField, fieldOf_bits _ h, lowBits_eq_map (f := fun i => decide (i < r)) fun i hi => ?_]
  · rw [selectorBits, List.range_succ, List.map_append]
    congr 1
    · exact List.eq_replicate_iff.mpr ⟨by simp, by simp⟩
    · simp
  · rw [testBit_selector (by omega), decide_eq_decide]
    omega

/-- The first `n` entries of a list that has them are those of the indexes below `n`. -/
theorem take_eq_map_getD {α : Type} (d : α) {l : List α} {n : Nat} (h : n ≤ l.length) :
    l.take n = (List.range n).map fun i => l.getD i d := by
  refine List.ext_getElem (by simp [h]) fun i hi _ => ?_
  rw [List.length_take_of_le h] at hi
  simp [List.getD_eq_getElem?_getD, List.getElem?_eq_getElem (hi.trans_le h)]

theorem selectorFields_bits {fs : List Field} (hrank : ∀ r ∈ s.selRank, r < 64)
    (h : selectorFields s = some fs) :
    fs.flatMap Field.bits =
      (List.range s.nsel.toNat).flatMap fun g => selectorBits (s.selRank.getD g 0) := by
  unfold selectorFields at h
  split at h
  · cases h
  · next hn =>
    cases h
    rw [List.flatMap_map, ← List.flatMap_map (fun g => s.selRank.getD g 0) selectorBits,
      ← take_eq_map_getD 0 (Nat.not_lt.mp hn)]
    exact List.flatMap_congr fun r hr => selectorField_bits (hrank r (List.mem_of_mem_take hr))

/-! ### Field 10 (R96, R280) -/

theorem lengthFields_bits (cur l : Nat) :
    (lengthFields cur l).flatMap Field.bits =
      (List.replicate (l - cur) [true, false]).flatten ++
        (List.replicate (cur - l) [true, true]).flatten ++ [false] := by
  have hup : (fieldOf 2 0b10).bits = [true, false] := by decide
  have hdown : (fieldOf 2 0b11).bits = [true, true] := by decide
  have hend : (fieldOf 1 0).bits = [false] := by decide
  simp only [lengthFields, List.flatMap_append, List.flatMap_replicate, List.flatMap_singleton, hup,
    hdown, hend]

theorem lengthsFields_bits (cur : Nat) (lens : List Nat) :
    (lengthsFields cur lens).flatMap Field.bits = lengthBits cur lens := by
  induction lens generalizing cur with
  | nil => rfl
  | cons l lens ih => rw [lengthsFields, lengthBits, List.flatMap_append, lengthFields_bits, ih]

theorem treeFields_bits (lens : List Nat) : (treeFields lens).flatMap Field.bits = treeBits lens := by
  rw [treeFields, treeBits, ← minLength_eq_min?, List.flatMap_cons, lengthsFields_bits,
    fieldOf_bits _ (by decide)]

/-! ### Field 11 (R97, R281) -/

/-- What an optional function makes of a list is read entry by entry. -/
theorem flatMap_of_mapM_eq_some {α β γ : Type} {f : α → Option β} {g : β → List γ}
    {k : α → List γ}
    (hk : ∀ x b, f x = some b → g b = k x) {l : List α} {r : List β} (h : l.mapM f = some r) :
    r.flatMap g = l.flatMap k := by
  induction l generalizing r with
  | nil => cases h; rfl
  | cons x xs ih =>
    simp only [List.mapM_cons, Option.bind_eq_bind, Option.bind_eq_some_iff, Option.pure_def,
      Option.some.injEq] at h
    obtain ⟨b, hb, bs, hbs, rfl⟩ := h
    rw [List.flatMap_cons, List.flatMap_cons, hk x b hb, ih hbs]

theorem symbolField_bits (hlen : ∀ lens ∈ s.len, ∀ l ∈ lens, l ≤ 64) {y k : Nat} {f : Field}
    (h : symbolField s y k = some f) : f.bits = symbolBits s y k := by
  unfold symbolField at h
  split at h
  · next g hg =>
    unfold codeField at h
    split at h
    · next lens codes hlens hcodes =>
      split at h
      · next l c hl hc =>
        cases h
        rw [fieldOf_bits _ (hlen lens (List.mem_of_getElem? hlens) l (List.mem_of_getElem? hl))]
        unfold Config.group at hg
        simp only [symbolBits, List.getD_eq_getElem?_getD, hg, hlens, hcodes, hl, hc,
          Option.getD_some]
      · cases h
    · cases h
  · cases h

/-! ### The block -/

theorem headFields_bits (s : State) :
    (headFields s).flatMap Field.bits =
      lowBits 48 0x314159265359 ++ lowBits 32 s.bcrc.toNat ++ [false] ++ lowBits 24 s.ptr.toNat := by
  have hflag : (fieldOf 1 0).bits = [false] := by decide
  simp only [headFields, List.flatMap_cons, List.flatMap_nil, hflag,
    fieldOf_bits _ (show 48 ≤ 64 by decide),
    fieldOf_bits _ (show 32 ≤ 64 by decide), fieldOf_bits _ (show 24 ≤ 64 by decide), List.append_nil,
    List.append_assoc]

/-- The fields of a block are its layout on the wire, when every value fits a write of the bit writer. -/
theorem blockFields_bits {fs : List Field} (h : blockFields s = some fs)
    (hrank : ∀ r ∈ s.selRank, r < 64) (hlen : ∀ lens ∈ s.len, ∀ l ∈ lens, l ≤ 64) :
    fs.flatMap Field.bits = blockBits s s.bcrc := by
  unfold blockFields at h
  split at h
  · next selectors symbols hsel hsym =>
    cases h
    have hsymbols : symbols.flatMap Field.bits = s.sym.zipIdx.flatMap fun p => symbolBits s p.1 p.2 :=
      flatMap_of_mapM_eq_some (fun p f hf => symbolField_bits hlen hf) hsym
    have hcounts : (countFields s).flatMap Field.bits =
        lowBits 3 s.ntrees.toNat ++ lowBits 15 s.nsel.toNat := by
      simp only [countFields, List.flatMap_cons, List.flatMap_nil, List.append_nil,
        fieldOf_bits _ (show 3 ≤ 64 by decide), fieldOf_bits _ (show 15 ≤ 64 by decide)]
    simp only [List.flatMap_append, List.flatMap_assoc, headFields_bits, rangeFields_bits, hcounts,
      selectorFields_bits hrank hsel, treeFields_bits, hsymbols, blockBits, List.append_assoc]
  · cases h

/-! ### What the transform bounds -/

/-- No code length is above 20 bits after HUFF_BUILD (R249). -/
theorem execHuffBuild_len_le (h : execHuffBuild s = .next t) :
    ∀ lens ∈ t.len, ∀ l ∈ lens, l ≤ 20 := by
  unfold execHuffBuild at h
  dsimp only at h
  split at h
  · exact absurd h (faultInvariant_ne_next _ _ _)
  · split at h
    · exact absurd h (faultInvariant_ne_next _ _ _)
    · next lens _ =>
      split at h
      · cases h
      · next hshort =>
        cases h
        intro table htable l hl
        rw [List.eq_of_mem_replicate htable] at hl
        exact (le_maxLength hl).trans (Nat.not_lt.mp hshort)

/-- The ranks of the selectors are below the number of trees (R251). -/
theorem execSelMtf_selRank_lt (h : execSelMtf s = .next t) : ∀ r ∈ t.selRank, r < t.ntrees.toNat := by
  unfold execSelMtf at h
  split at h
  · exact absurd h (faultInvariant_ne_next _ _ _)
  · split at h
    · next rs l hgo =>
      cases h
      obtain ⟨-, -, hlt⟩ := mtfGo_eq_some hgo
      simpa using hlt
    · exact absurd h (faultInvariant_ne_next _ _ _)

theorem execHuffCodes_len (h : execHuffCodes s = .next t) : t.len = s.len := by
  unfold execHuffCodes at h
  split at h
  · exact absurd h (faultInvariant_ne_next _ _ _)
  · cases h; rfl

theorem execSelMtf_len (h : execSelMtf s = .next t) : t.len = s.len := by
  unfold execSelMtf at h
  split at h
  · exact absurd h (faultInvariant_ne_next _ _ _)
  · split at h
    · cases h; rfl
    · exact absurd h (faultInvariant_ne_next _ _ _)

/-- Every length and every selector code of a transformed block fits a write of the bit writer. -/
theorem blkTransform_bounds (h : blkTransform s = .next t) :
    (∀ r ∈ t.selRank, r < 64) ∧ ∀ lens ∈ t.len, ∀ l ∈ lens, l ≤ 64 := by
  obtain ⟨_, _, _, _, _, s6, s7, -, -, -, -, -, h6, h7, h8⟩ := blkTransform_next h
  have hlen7 : s7.len = s6.len := execHuffCodes_len (s := s6.setPhase (.serialize .huffCodes)) h7
  have hlen : t.len = s6.len := (execSelMtf_len h8).trans hlen7
  refine ⟨fun r hr => ?_, fun lens hlens l hl => ?_⟩
  · have hlt := execSelMtf_selRank_lt h8 r hr
    have := t.ntrees.isLt
    omega
  · have := execHuffBuild_len_le h6 lens (hlen ▸ hlens) l hl
    omega

/-! ### BLK_SERIALIZE -/

theorem blockBits_of_work (h : s.work = t.work) (bcrc : Word) : blockBits s bcrc = blockBits t bcrc := by
  simp only [State.work, Prod.mk.injEq] at h
  obtain ⟨-, hptr, hpresent, -, -, -, hsym, -, hnsel, hntrees, hlen, hcode, hsel, hselRank⟩ := h
  unfold blockBits symbolBits
  rw [hptr, hpresent, hsym, hnsel, hntrees, hlen, hcode, hsel, hselRank]

/-- Settles O43: what emission writes is the layout, and the working registers stay. -/
theorem serializeSendsBlockLayout : Obligations.SerializeSendsBlockLayout := by
  intro s t hs herr h hok
  obtain ⟨u, fs, hu, hbcrc, hfs, hx, hwork, hscrc⟩ := execBlkSerialize_completed hs h hok
  obtain ⟨hrank, hlen⟩ := blkTransform_bounds hu
  have hbits : fs.flatMap Field.bits = blockBits u u.bcrc := blockFields_bits hfs hrank hlen
  refine ⟨?_, hscrc, execBlkSerialize_empties h hok⟩
  rw [← State.writer_stream, hx.stream, hbits, hbcrc, blockBits_of_work hwork, State.writer_stream]

/-! ### The length of a block (R284) -/

theorem rangeBits_length (present : BitVec 256) :
    (rangeBits present).length =
      16 + 16 * ((List.range 16).filter (rangePresent present)).length := by
  rw [rangeBits, ← flatMap_filter_eq, List.length_append, List.length_flatMap]
  simp [Nat.mul_comm]

theorem lengthBits_length (cur : Nat) (lens : List Nat) :
    (lengthBits cur lens).length = deltaSum cur lens := by
  induction lens generalizing cur with
  | nil => rfl
  | cons l lens ih =>
    simp only [lengthBits, deltaSum, List.length_append, ih, List.length_flatten, List.map_replicate,
      List.sum_replicate, List.length_cons, List.length_nil, smul_eq_mul]
    omega

theorem blockBits_length (s : State) (bcrc : Word) :
    (blockBits s bcrc).length = 48 + 32 + 1 + 24 +
      (16 + 16 * ((List.range 16).filter (rangePresent s.present)).length) + 3 + 15 +
      ((List.range s.nsel.toNat).map fun g => s.selRank.getD g 0 + 1).sum +
      (s.len.map fun lens => 5 + deltaSum ((lens.min?).getD 0) lens).sum +
      (s.sym.zipIdx.map fun p =>
        (s.len.getD (s.sel.getD (p.2 / 50) 0) []).getD p.1 0).sum := by
  simp only [blockBits, List.length_append, lowBits_length, rangeBits_length, List.length_flatMap,
    selectorBits, treeBits, lengthBits_length, symbolBits, List.length_replicate, List.length_cons,
    List.length_nil]

/-- Settles O44: the length of the layout, field by field. -/
theorem serializedBlockLength : Obligations.SerializedBlockLength := by
  intro s t hs herr h hok
  obtain ⟨hstream, -⟩ := serializeSendsBlockLayout s t hs herr h hok
  rw [hstream, List.length_append, blockBits_length]
  simp only [Nat.add_assoc]

end Sys2Proof.Machine
end

section
/-! PROOFS. STREAM_HEADER and STREAM_FOOTER: the bits each sends, and the bytes when no bit is pending
(30_encoding.md R92, R98, 49_stream_commands.md R302, R308). -/

namespace Sys2Proof.Machine

variable {s t : State}

/-! ### Bytes and their bits -/

theorem byteBits_injective {x y : Byte} (h : byteBits x = byteBits y) : x = y := by
  refine BitVec.eq_of_getLsbD_eq fun i hi => ?_
  have hbit := congrArg (·[7 - i]?) h
  have hback : 7 - (7 - i) = i := by omega
  have hlt : 7 - i < 8 := by omega
  simpa [byteBits, List.getElem?_range hlt, hback] using hbit

/-- Bytes are told apart by their bits, so a beginning of the bits is a beginning of the bytes. -/
theorem prefix_of_bitsOf_prefix {l m : List Byte} (h : bitsOf l <+: bitsOf m) : l <+: m := by
  induction l generalizing m with
  | nil => exact List.nil_prefix
  | cons x xs ih =>
    cases m with
    | nil => exact absurd h.length_le (by simp [bitsOf_length])
    | cons y ys =>
      obtain ⟨r, hr⟩ := h
      simp only [bitsOf, List.flatMap_cons, List.append_assoc] at hr
      obtain ⟨hxy, hrest⟩ := List.append_inj hr (by rw [byteBits_length, byteBits_length])
      rw [byteBits_injective hxy, List.prefix_cons_inj]
      exact ih ⟨r, hrest⟩

theorem eq_of_bitsOf_eq {l m : List Byte} (h : bitsOf l = bitsOf m) : l = m :=
  (prefix_of_bitsOf_prefix ⟨[], by simp [h]⟩).eq_of_length (by
    have := congrArg List.length h
    simpa [bitsOf_length] using this)

/-- With no bit pending, whole bytes written to a sink that accepts them are delivered. -/
theorem Writer.writeBitList_bytes {w : Writer} {d : List Byte} (herr : w.err = .noError)
    (hcnt : w.cnt = 0) (hok : w.accepts d.length) :
    w.Extends (w.writeBitList (bitsOf d)) (bitsOf d) ∧ (w.writeBitList (bitsOf d)).cnt = 0 ∧
      (w.writeBitList (bitsOf d)).bytes = w.bytes ++ d := by
  have hlen : w.cnt.toNat + (bitsOf d).length = 8 * d.length := by
    rw [hcnt, bitsOf_length]
    exact Nat.zero_add _
  have hx := Writer.writeBitList_extends (bitsOf d) herr (by
    rwa [hlen, Nat.mul_div_cancel_left _ (by decide)])
  have hzero : (w.writeBitList (bitsOf d)).cnt = 0 :=
    BitVec.eq_of_toNat_eq (hx.cnt.trans (by rw [hlen, Nat.mul_mod_right]; rfl))
  obtain ⟨e, he⟩ := w.bytes_prefix_writeBitList (bitsOf d)
  have hbits := hx.delivered_bits he.symm
  rw [hzero, hcnt, pendingBits_zero, pendingBits_zero, List.append_nil, List.nil_append] at hbits
  exact ⟨hx, hzero, by rw [← he, eq_of_bitsOf_eq hbits]⟩

/-- With no bit pending, whole bytes written to a sink that fails the one of index `j` are delivered up to
it. -/
theorem Writer.writeBitList_bytes_fail {w : Writer} {d : List Byte} {j : Nat} (herr : w.err = .noError)
    (hcnt : w.cnt = 0) (hj : j < d.length) (hok : w.accepts j) (hfail : w.answerAt j = .fail) :
    (w.writeBitList (bitsOf d)).err = .sinkIOError ∧
      (w.writeBitList (bitsOf d)).bytes = w.bytes ++ d.take j := by
  obtain ⟨e, hio, hbytes, hlen, hbits⟩ := Writer.writeBitList_fail (l := bitsOf d) herr (by
    rw [hcnt, bitsOf_length]
    change j < (0 + _) / 8
    omega) hok hfail
  rw [hcnt, pendingBits_zero, List.nil_append] at hbits
  have he : e <+: d := (List.prefix_append e _).trans (prefix_of_bitsOf_prefix hbits)
  rw [hbytes, ← hlen, ← List.prefix_iff_eq_take.mp he]
  exact ⟨hio, rfl⟩

/-- A frame of the bit writer and what is in it are the whole state. -/
theorem SameButWriter.eq_of_writer (h : SameButWriter s t) (hw : t.writer = s.writer) : t = s := by
  simp only [State.writer, Writer.mk.injEq] at hw
  obtain ⟨hacc, hcnt, herr, hdout, hscript, -, hbytes, hdraws⟩ := hw
  unfold SameButWriter at h
  rw [h, hacc, hcnt, herr, hdout, hscript, hbytes, hdraws]

theorem State.writer_err (s : State) : s.writer.err = s.err := rfl
theorem State.writer_cnt (s : State) : s.writer.cnt = s.bwCnt := rfl
theorem State.writer_bytes (s : State) : s.writer.bytes = s.sinkBytes := rfl

/-! ### STREAM_HEADER -/

theorem streamHeaderFields_bits (level : BitVec 4) :
    (streamHeaderFields level).flatMap Field.bits = headerBits level := by
  have h16 := fieldOf_bits 0x425A (show 16 ≤ 64 by decide)
  have h8 (v : Nat) := fieldOf_bits v (show 8 ≤ 64 by decide)
  simp only [streamHeaderFields, headerBits, List.flatMap_cons, List.flatMap_nil, List.append_nil,
    List.append_assoc, h16, h8]

theorem headerBits_eq_bitsOf (level : BitVec 4) :
    headerBits level = bitsOf [0x42, 0x5A, 0x68, 0x30 + level.setWidth 8] := by
  revert level
  decide

theorem headerBits_length (level : BitVec 4) : (headerBits level).length = 32 := by
  rw [headerBits_eq_bitsOf, bitsOf_length]
  rfl

theorem exec_streamHeader (s : State) : exec .streamHeader s = .next s.streamHeader := rfl

/-- STREAM_HEADER writes the header bits (R302). -/
theorem State.streamHeader_writer (s : State) :
    s.streamHeader.writer = s.writer.writeBitList (headerBits s.level) := by
  rw [← streamHeaderFields_bits, ← Writer.writeFields_eq]
  unfold State.streamHeader
  generalize streamHeaderFields s.level = fs
  dsimp only
  split <;> rfl

/-- A header sent without error: only the bit writer and SSTATE differ. -/
theorem State.streamHeader_sent (h : s.streamHeader.err = .noError) :
    s.streamHeader.sstate = .headerWritten ∧
      SameButWriter { s with sstate := .headerWritten } s.streamHeader ∧
      s.writer.Extends s.streamHeader.writer (headerBits s.level) := by
  have hs : s.streamHeader.sstate = .headerWritten := s.streamHeader_sstate.trans (if_pos h)
  have hframe := s.streamHeader_sameButWriter
  rw [hs] at hframe
  refine ⟨hs, hframe, ?_⟩
  have hok := (State.writer_err _).trans h
  rw [State.streamHeader_writer] at hok ⊢
  exact Writer.writeBitList_ok _ hok

/-- A header that fails: only the bit writer differs. -/
theorem State.streamHeader_failed (h : s.streamHeader.err ≠ .noError) :
    SameButWriter s s.streamHeader := by
  have hframe := s.streamHeader_sameButWriter
  rwa [s.streamHeader_sstate.trans (if_neg h)] at hframe

theorem State.streamHeader_of_err (herr : s.err ≠ .noError) : s.streamHeader = s := by
  have hw : s.streamHeader.writer = s.writer :=
    s.streamHeader_writer.trans (Writer.writeBitList_of_err (w := s.writer) _ herr)
  have hfailed : s.streamHeader.err ≠ .noError := by
    rwa [← State.writer_err, hw, State.writer_err]
  exact (State.streamHeader_failed hfailed).eq_of_writer hw

/-- The header is whole bytes, so the pending bits are as many after it. -/
theorem Writer.Extends.header_cnt {w v : Writer} {level : BitVec 4}
    (h : w.Extends v (headerBits level)) : v.cnt = w.cnt := by
  refine BitVec.eq_of_toNat_eq ?_
  have := w.cnt.isLt
  rw [h.cnt, headerBits_length]
  omega

theorem State.streamHeader_bwCnt (h : s.streamHeader.err = .noError) :
    s.streamHeader.bwCnt = s.bwCnt := by
  obtain ⟨-, -, hx⟩ := State.streamHeader_sent h
  rw [← State.writer_cnt, hx.header_cnt, State.writer_cnt]

theorem State.streamHeader_stream (h : s.streamHeader.err = .noError) :
    s.streamHeader.stream = s.stream ++ headerBits s.level := by
  obtain ⟨-, -, hx⟩ := State.streamHeader_sent h
  rw [← State.writer_stream, hx.stream, State.writer_stream]

theorem State.streamHeader_healthy (herr : s.err = .noError) (hsink : s.sinkHealthy) :
    s.streamHeader.err = .noError := by
  rw [← State.writer_err, State.streamHeader_writer]
  exact (Writer.writeBitList_extends_healthy (w := s.writer) _ herr hsink).err

/-- Settles O46: the header is four bytes, of which the sink takes all or those before the one it fails. -/
theorem streamHeaderSendsFourBytes : Obligations.StreamHeaderSendsFourBytes := by
  refine fun s => ⟨fun herr => by rw [exec_streamHeader, State.streamHeader_of_err herr],
    fun herr hsink => ?_, fun herr hcnt => ⟨fun hok => ?_, fun j hj hfail => ?_⟩⟩
  · have hsent := State.streamHeader_healthy herr hsink
    obtain ⟨-, hframe, -⟩ := State.streamHeader_sent hsent
    exact ⟨_, exec_streamHeader s, hframe, hsent, State.streamHeader_stream hsent,
      State.streamHeader_bwCnt hsent⟩
  · obtain ⟨hx, -, hbytes⟩ := Writer.writeBitList_bytes (w := s.writer)
      (d := [0x42, 0x5A, 0x68, 0x30 + s.level.setWidth 8]) herr hcnt hok
    rw [← headerBits_eq_bitsOf, ← State.streamHeader_writer, State.writer_bytes] at hbytes
    have hsent := hx.err
    rw [← headerBits_eq_bitsOf, ← State.streamHeader_writer, State.writer_err] at hsent
    exact ⟨_, exec_streamHeader s, (State.streamHeader_sent hsent).1, hbytes⟩
  · obtain ⟨hio, hbytes⟩ := Writer.writeBitList_bytes_fail (w := s.writer)
      (d := [0x42, 0x5A, 0x68, 0x30 + s.level.setWidth 8]) herr hcnt hj hfail.1 hfail.2
    rw [← headerBits_eq_bitsOf, ← State.streamHeader_writer] at hio hbytes
    rw [State.writer_err] at hio
    rw [State.writer_bytes] at hbytes
    have hfailed : s.streamHeader.err ≠ .noError := hio.trans_ne (by decide)
    exact ⟨_, exec_streamHeader s, State.streamHeader_failed hfailed, hio, hbytes⟩

/-! ### STREAM_FOOTER -/

/-- BW_PAD writes zero bits up to the byte boundary, of which there may be none (R124). -/
theorem Writer.pad_eq (w : Writer) :
    w.pad = w.writeBitList (List.replicate ((8 - w.cnt.toNat) % 8) false) := by
  by_cases herr : w.err = .noError
  · by_cases hcnt : w.cnt = 0
    · have hnone : (8 - w.cnt.toNat) % 8 = 0 := by rw [hcnt]; rfl
      rw [hnone, Writer.pad, if_neg (not_not.mpr herr), if_pos hcnt]
      rfl
    · have hsome : (8 - w.cnt.toNat) % 8 = 8 - w.cnt.toNat := by
        have : w.cnt.toNat ≠ 0 := fun hz => hcnt (BitVec.eq_of_toNat_eq hz)
        omega
      rw [hsome, Writer.pad, if_neg (not_not.mpr herr), if_neg hcnt, Writer.writeBits, msbFirst_zero]
  · rw [Writer.pad_of_err herr, Writer.writeBitList_of_err _ herr]

theorem exec_streamFooter (s : State) : exec .streamFooter s = .next s.streamFooter := rfl

theorem streamFooterFields_bits (scrc : Word) :
    (streamFooterFields scrc).flatMap Field.bits =
      lowBits 48 0x177245385090 ++ lowBits 32 scrc.toNat := by
  simp only [streamFooterFields, List.flatMap_cons, List.flatMap_nil, List.append_nil,
    fieldOf_bits _ (show 48 ≤ 64 by decide), fieldOf_bits _ (show 32 ≤ 64 by decide)]

/-- The end magic and SCRC are whole bytes, so the padding is that of the bits pending before them. -/
theorem Writer.pad_after_footer (w : Writer) (scrc : Word) :
    (w.writeFields (streamFooterFields scrc)).pad = w.writeBitList (footerBits scrc w.cnt) := by
  rw [Writer.writeFields_eq, streamFooterFields_bits, footerBits]
  generalize hl : lowBits 48 0x177245385090 ++ lowBits 32 scrc.toNat = l
  rw [Writer.writeBitList_append, Writer.pad_eq]
  have hlen : l.length = 80 := by rw [← hl, List.length_append, lowBits_length, lowBits_length]
  by_cases hok : (w.writeBitList l).err = .noError
  · have hcnt := (Writer.writeBitList_ok l hok).cnt
    have hpad : (8 - (w.writeBitList l).cnt.toNat) % 8 = (8 - w.cnt.toNat) % 8 := by
      have := w.cnt.isLt
      rw [hcnt, hlen]
      omega
    rw [hpad]
  · rw [Writer.writeBitList_of_err _ hok, Writer.writeBitList_of_err _ hok]

/-- STREAM_FOOTER writes the footer bits (R308). -/
theorem State.streamFooter_eq (s : State) :
    s.streamFooter = s.setWriter (s.writer.writeBitList (footerBits s.scrc s.bwCnt)) := by
  have h := s.writer.pad_after_footer s.scrc
  unfold State.streamFooter
  generalize streamFooterFields s.scrc = fs at h ⊢
  exact congrArg s.setWriter h

theorem State.streamFooter_writer (s : State) :
    s.streamFooter.writer = s.writer.writeBitList (footerBits s.scrc s.bwCnt) := by
  rw [State.streamFooter_eq, State.writer_setWriter]

theorem footerBits_length (scrc : Word) (cnt : BitVec 3) :
    (footerBits scrc cnt).length = 80 + (8 - cnt.toNat) % 8 := by
  rw [footerBits, List.length_append, List.length_append, lowBits_length, lowBits_length,
    List.length_replicate]

/-- A footer sent without error ends on a byte boundary (R308). -/
theorem State.streamFooter_sent (h : s.streamFooter.err = .noError) :
    s.streamFooter.stream = s.stream ++ footerBits s.scrc s.bwCnt ∧ s.streamFooter.bwCnt = 0 := by
  rw [State.streamFooter_eq] at h ⊢
  have hx := Writer.writeBitList_ok _ h
  refine ⟨hx.stream, BitVec.eq_of_toNat_eq (hx.cnt.trans ?_)⟩
  have : s.writer.cnt.toNat < 8 := s.writer.cnt.isLt
  rw [footerBits_length]
  change (s.writer.cnt.toNat + (80 + (8 - s.writer.cnt.toNat) % 8)) % 8 = 0
  omega

theorem State.streamFooter_healthy (herr : s.err = .noError) (hsink : s.sinkHealthy) :
    s.streamFooter.err = .noError := by
  rw [State.streamFooter_eq]
  exact (Writer.writeBitList_extends_healthy (w := s.writer) _ herr hsink).err

theorem State.streamFooter_of_err (herr : s.err ≠ .noError) : s.streamFooter = s := by
  rw [State.streamFooter_eq, Writer.writeBitList_of_err (w := s.writer) _ herr,
    State.setWriter_writer]

/-- The only error a footer ends in is the sink's. -/
theorem State.streamFooter_err (herr : s.err = .noError) :
    s.streamFooter.err = .noError ∨ s.streamFooter.err = .sinkIOError := by
  rw [State.streamFooter_eq]
  exact (Writer.writeBitList_err s.writer _).imp_left (·.trans herr)

/-- Settles O47: the footer and its padding are one list of bits. -/
theorem streamFooterSendsCrcAndPads : Obligations.StreamFooterSendsCrcAndPads := by
  refine fun s => ⟨fun herr => by rw [exec_streamFooter, State.streamFooter_of_err herr],
    fun herr => ⟨_, exec_streamFooter s, s.streamFooter_sameButWriter, State.streamFooter_err herr⟩,
    fun herr hsink => ?_⟩
  have hsent := State.streamFooter_healthy herr hsink
  exact ⟨_, exec_streamFooter s, s.streamFooter_sameButWriter, hsent, State.streamFooter_sent hsent⟩

end Sys2Proof.Machine
end

section
/-! PROOFS. FLUSH and CLOSE of an open stream, part by part (49_stream_commands.md R306, R307). -/

namespace Sys2Proof.Machine

variable {s t u : State}

/-! ### The open block -/

theorem State.blockEmpty_of_fresh (hbuf : s.blkBuf = []) (hrun : s.runLen = 0) :
    s.blockEmpty = true := by
  simp [State.blockEmpty, hbuf, hrun]

theorem serializeOpen_of_empty (h : s.blockEmpty = true) : serializeOpen s = .next s := if_pos h

theorem serializeOpen_of_nonempty (h : s.blockEmpty = false) : serializeOpen s = execBlkSerialize s :=
  if_neg (by simp [h])

/-! ### FLUSH -/

/-- FLUSH past its checks (R306, R350). -/
theorem exec_flush (h : s.streamOpen) :
    exec .flush s = endCommand (fun t => t.finish 0) noCount (serializeOpen s) := by
  show execFlush s = _
  rw [execFlush, State.check_eq_none.mpr h]

/-- A command of no count answers the error that ERR holds (R300). -/
theorem State.finish_eq (t : State) :
    t.finish 0 = { t with result := resultWord t.err 0, phase := .idle } := rfl

/-- Settles O48, by whether the block is empty and how its serialisation ends. -/
theorem flushSerialisesOpenBlock : Obligations.FlushSerialisesOpenBlock := by
  intro s hopen
  have hflush (hne : s.blockEmpty = false) :
      exec .flush s = endCommand (fun t => t.finish 0) noCount (execBlkSerialize s) := by
    rw [exec_flush hopen, serializeOpen_of_nonempty hne]
  have hnext (hne : s.blockEmpty = false) (t : State) (ht : execBlkSerialize s = .next t) :
      exec .flush s = .next (t.finish 0) := by
    rw [hflush hne, ht, endCommand_next]
  refine ⟨fun hbuf hrun => ?_, hnext, fun hne r hr => ?_, fun longest e =>
    congrArg (Fault.codeLengthOverflow longest)
      (show e.answer .codeLengthOverflow 0 = _ from rfl), fun hs hne hfew hsink => ?_⟩
  · rw [exec_flush hopen, serializeOpen_of_empty (State.blockEmpty_of_fresh hbuf hrun),
      endCommand_next, State.finish_eq, hopen.2]
    rfl
  · rw [hflush hne, show execBlkSerialize s = .fault r from hr]
    rfl
  · obtain ⟨t, ht, hframe, herr, hscrc, hbuf, hrun, -⟩ :=
      serializeCompletesBlock s hs hne hfew hopen.2 hsink
    refine ⟨_, hnext hne t ht, herr, ?_, hbuf, hrun, hscrc, hframe.sstate⟩
    rw [State.finish_eq, herr]
    rfl

/-! ### CLOSE -/

/-- CLOSE past its checks (R307, R350). -/
theorem exec_close (h : s.streamOpen) :
    exec .close s = endCommand (fun t => t.finish 0) noCount (closeBody s) := by
  show execClose s = _
  rw [execClose, State.check_eq_none.mpr h]

/-- The footer of CLOSE and SSTATE after it, unless an error was raised before (R307). -/
def closeFooter (s : State) : Result :=
  if s.err ≠ .noError then .next s
  else
    let u := (s.setPhase .footer).streamFooter
    .next (if u.err = .noError then { u with sstate := .closed } else u)

/-- CLOSE after the header: the open block and the footer. -/
def closeOpened (s : State) : Result := andThen (serializeOpen s) closeFooter

theorem closeBody_eq (s : State) :
    closeBody s =
      if s.openStream.err ≠ .noError then .next s.openStream else closeOpened s.openStream := rfl

theorem openStream_of_headerWritten (h : s.sstate = .headerWritten) : s.openStream = s := by
  rw [State.openStream, h]

theorem State.writeFields_setPhase (s : State) (fs : List Field) (p : Phase) :
    (s.setPhase p).writeFields fs = (s.writeFields fs).setPhase p := rfl

theorem State.pad_setPhase (s : State) (p : Phase) : (s.setPhase p).pad = s.pad.setPhase p := rfl

theorem State.streamHeader_setPhase (s : State) (p : Phase) :
    (s.setPhase p).streamHeader = s.streamHeader.setPhase p := by
  unfold State.streamHeader
  rw [State.setPhase_level, State.writeFields_setPhase]
  generalize s.writeFields (streamHeaderFields s.level) = t
  dsimp only
  rw [State.setPhase_err]
  split <;> rfl

theorem openStream_of_unopened (h : s.sstate = .unopened) :
    s.openStream = s.streamHeader.setPhase .header := by
  rw [State.openStream, h]
  exact s.streamHeader_setPhase .header

theorem State.streamFooter_setPhase (s : State) (p : Phase) :
    (s.setPhase p).streamFooter = s.streamFooter.setPhase p := by
  rw [State.streamFooter, State.setPhase_scrc, State.writeFields_setPhase, State.pad_setPhase,
    State.streamFooter]

/-- What CLOSE does after the header does not depend on PHASE. -/
theorem closeFooter_setPhase (s : State) (p : Phase) :
    EqUpToPhase (closeFooter (s.setPhase p)) (closeFooter s) := by
  unfold closeFooter
  rw [State.setPhase_setPhase, State.setPhase_err]
  split
  · rfl
  · rfl

theorem serializeOpen_setPhase (s : State) (p : Phase) :
    EqUpToPhase (serializeOpen (s.setPhase p)) (serializeOpen s) := by
  cases hne : s.blockEmpty with
  | true => rw [serializeOpen_of_empty hne, serializeOpen_of_empty (s := s.setPhase p) hne]; rfl
  | false =>
    rw [serializeOpen_of_nonempty hne, serializeOpen_of_nonempty (s := s.setPhase p) hne]
    exact execBlkSerialize_setPhase s p

theorem closeOpened_setPhase (s : State) (p : Phase) :
    EqUpToPhase (closeOpened (s.setPhase p)) (closeOpened s) :=
  (serializeOpen_setPhase s p).andThen closeFooter_setPhase

/-- The end of a command other than WRITE, whatever PHASE it is in. -/
theorem EqUpToPhase.endCommand_finish {o o' : Result} (h : EqUpToPhase o o') :
    Machine.endCommand (fun t => t.finish 0) noCount o =
      Machine.endCommand (fun t => t.finish 0) noCount o' :=
  h.endCommand (fun _ => rfl) fun _ => rfl

/-- CLOSE of a stream with its header. -/
theorem exec_close_of_headerWritten (hs : s.sstate = .headerWritten) (herr : s.err = .noError) :
    exec .close s = endCommand (fun t => t.finish 0) noCount (closeOpened s) := by
  rw [exec_close ⟨.inr hs, herr⟩, closeBody_eq, openStream_of_headerWritten hs,
    if_neg (not_not.mpr herr)]

/-- CLOSE of a stream without its header: the header, and then the CLOSE of a stream that has it, unless
the header fails (R307). -/
theorem exec_close_of_unopened (hs : s.sstate = .unopened) (herr : s.err = .noError) :
    exec .close s =
      if s.streamHeader.err = .noError then exec .close s.streamHeader
      else .next (s.streamHeader.finish 0) := by
  rw [exec_close ⟨.inl hs, herr⟩, closeBody_eq, openStream_of_unopened hs, State.setPhase_err]
  by_cases hsent : s.streamHeader.err = .noError
  · rw [if_neg (not_not.mpr hsent), if_pos hsent,
      exec_close_of_headerWritten (State.streamHeader_sent hsent).1 hsent]
    exact (closeOpened_setPhase _ _).endCommand_finish
  · rw [if_pos hsent, if_neg hsent, endCommand_next]
    generalize s.streamHeader = h
    rfl

/-- SSTATE and the completion after a footer, of the state `u` the footer leaves (R307, R351). -/
theorem finish_after_footer (hs : u.sstate = .headerWritten) :
    (if (u.setPhase .footer).err = .noError then { u.setPhase .footer with sstate := .closed }
      else u.setPhase .footer).finish 0 =
      { u with sstate := if u.err = .noError then .closed else .headerWritten,
               result := resultWord u.err 0, phase := .idle } := by
  rw [State.setPhase_err]
  split
  · rfl
  · rw [← hs]
    rfl

/-- The end of CLOSE: the footer and SSTATE (R307, R308, R351). -/
theorem endCommand_closeFooter (hs : s.sstate = .headerWritten) (herr : s.err = .noError) :
    endCommand (fun t => t.finish 0) noCount (closeFooter s) =
      .next { s.streamFooter with
              sstate := if s.streamFooter.err = .noError then .closed else .headerWritten,
              result := resultWord s.streamFooter.err 0, phase := .idle } := by
  have hus := s.streamFooter_sameButWriter.sameButBlock.sstate.trans hs
  rw [closeFooter, if_neg (not_not.mpr herr), State.streamFooter_setPhase, endCommand_next,
    finish_after_footer hus]

/-- A CLOSE that the sink's failure of the open block ends. -/
theorem endCommand_closeFooter_of_err (herr : s.err ≠ .noError) :
    endCommand (fun t => t.finish 0) noCount (closeFooter s) = .next (s.finish 0) := by
  rw [closeFooter, if_pos herr, endCommand_next]

/-- CLOSE with an open block: it is serialised, and the footer follows, or its fault ends CLOSE. -/
theorem exec_close_of_nonempty (hs : s.sstate = .headerWritten) (herr : s.err = .noError)
    (hne : s.blockEmpty = false) :
    exec .close s = endCommand (fun t => t.finish 0) noCount
      (andThen (execBlkSerialize s) closeFooter) := by
  rw [exec_close_of_headerWritten hs herr, closeOpened, serializeOpen_of_nonempty hne]

/-- CLOSE with no open block is the footer. -/
theorem exec_close_of_empty (hs : s.sstate = .headerWritten) (herr : s.err = .noError)
    (hempty : s.blockEmpty = true) :
    exec .close s =
      .next { s.streamFooter with
              sstate := if s.streamFooter.err = .noError then .closed else .headerWritten,
              result := resultWord s.streamFooter.err 0, phase := .idle } := by
  rw [exec_close_of_headerWritten hs herr, closeOpened, serializeOpen_of_empty hempty, andThen_next,
    endCommand_closeFooter hs herr]

/-- CLOSE with an open block that is serialised. -/
theorem exec_close_of_serialized (hs : s.sstate = .headerWritten) (herr : s.err = .noError)
    (ht : execBlkSerialize s = .next t) (hok : t.err = .noError) :
    exec .close s =
      .next { t.streamFooter with
              sstate := if t.streamFooter.err = .noError then .closed else .headerWritten,
              result := resultWord t.streamFooter.err 0, phase := .idle } := by
  have hts : t.sstate = .headerWritten := (execBlkSerialize_sameButBlock ht).sstate.trans hs
  rw [exec_close_of_nonempty hs herr (execBlkSerialize_next ht).1, ht, andThen_next,
    endCommand_closeFooter hts hok]

theorem SameButWriter.exists_setWriter (h : SameButWriter s t) :
    ∃ w : Writer, w.rest = s.sinkRest ∧ t = s.setWriter w :=
  ⟨{ t.writer with rest := s.sinkRest }, rfl, h⟩

/-- What a command sets at its end is the same on both sides of a frame of the bit writer. -/
theorem SameButWriter.ended (h : SameButWriter s t) (q : SState) (r : Word) :
    SameButWriter { s with sstate := q, result := r, phase := .idle }
      { t with sstate := q, result := r, phase := .idle } := by
  obtain ⟨w, hw, rfl⟩ := h.exists_setWriter
  exact sameButWriter_setWriter { s with sstate := q, result := r, phase := .idle } w hw

theorem SameButWriter.scrc (h : SameButWriter s t) : t.scrc = s.scrc := by
  unfold SameButWriter at h; rw [h]

theorem SameButWriter.blockEmpty (h : SameButWriter s t) : t.blockEmpty = s.blockEmpty := by
  unfold SameButWriter at h; rw [h]; rfl

/-- Settles O50, by SSTATE, whether the block is empty, and how its serialisation ends. -/
theorem closeSerialisesAndFinishes : Obligations.CloseSerialisesAndFinishes := by
  refine ⟨fun s h hs herr hh => ?_, fun s hs herr => ⟨fun hbuf hrun u hu => ?_, fun hne t ht => ?_,
    fun hne r hr => ?_⟩, fun s hs herr hb hne hfew hsink => ?_⟩
  · rw [exec_streamHeader, Host.Outcome.next.injEq] at hh
    subst hh
    rw [exec_close_of_unopened hs herr]
    exact ⟨fun hsent => if_pos hsent, fun hfailed => if_neg hfailed⟩
  · rw [exec_streamFooter, Host.Outcome.next.injEq] at hu
    subst hu
    exact exec_close_of_empty hs herr (State.blockEmpty_of_fresh hbuf hrun)
  · have ht' : execBlkSerialize s = .next t := ht
    refine ⟨fun hfail => ?_, fun hok u hu => ?_⟩
    · rw [exec_close_of_nonempty hs herr hne, ht', andThen_next, endCommand_closeFooter_of_err hfail,
        State.finish_eq]
    · rw [exec_streamFooter, Host.Outcome.next.injEq] at hu
      subst hu
      exact exec_close_of_serialized hs herr ht' hok
  · have hr' : execBlkSerialize s = .fault r := hr
    rw [exec_close_of_nonempty hs herr hne, hr', andThen_fault, endCommand_fault]
    rfl
  · obtain ⟨t, ht, hframe, hok, hscrc, -⟩ := serializeCompletesBlock s hb hne hfew herr hsink
    obtain ⟨_, _, -, -, -, hx, -⟩ := execBlkSerialize_completed hb ht hok
    have hsent := State.streamFooter_healthy hok fun j => (hx.answers j).trans (hsink _)
    obtain ⟨hstream, hcnt⟩ := State.streamFooter_sent hsent
    have hclose := exec_close_of_serialized hs herr ht hok
    have hfoot := t.streamFooter_sameButWriter
    generalize t.streamFooter = u at hsent hstream hcnt hclose hfoot
    rw [hsent, if_pos rfl] at hclose
    exact ⟨t, _, ht, hclose, hfoot.ended .closed 0, hsent, hcnt, hscrc ▸ hstream⟩

/-! ### The empty stream -/

theorem SameButWriter.trans (h : SameButWriter s t) (h' : SameButWriter t u) : SameButWriter s u := by
  unfold SameButWriter at *
  conv_lhs => rw [h', h]

theorem footerBits_zero :
    footerBits 0 0 = bitsOf [0x17, 0x72, 0x45, 0x38, 0x50, 0x90, 0, 0, 0, 0] := by
  decide

/-- The header and the footer of an empty stream are 14 bytes, and a sink that accepts them gets them. -/
theorem emptyStream_sent (herr : s.err = .noError) (hcnt : s.bwCnt = 0) (hscrc : s.scrc = 0)
    (hok : s.sinkAccepts 14) :
    s.streamHeader.err = .noError ∧ s.streamHeader.streamFooter.err = .noError ∧
      s.streamHeader.streamFooter.sinkBytes = s.sinkBytes ++
        [0x42, 0x5A, 0x68, 0x30 + s.level.setWidth 8, 0x17, 0x72, 0x45, 0x38, 0x50, 0x90, 0, 0, 0, 0] := by
  obtain ⟨hx, -, hbytes⟩ := Writer.writeBitList_bytes (w := s.writer)
    (d := [0x42, 0x5A, 0x68, 0x30 + s.level.setWidth 8] ++
      [0x17, 0x72, 0x45, 0x38, 0x50, 0x90, 0, 0, 0, 0]) herr hcnt (by exact hok)
  have hend := hx.err
  rw [bitsOf_append, ← headerBits_eq_bitsOf, ← footerBits_zero, Writer.writeBitList_append,
    ← State.streamHeader_writer] at hbytes hend
  have hsent := Writer.err_of_writeBitList hend
  rw [State.writer_err] at hsent
  obtain ⟨-, hframe, -⟩ := State.streamHeader_sent hsent
  have hscrc' : s.streamHeader.scrc = 0 := hframe.scrc.trans hscrc
  have hcnt' : s.streamHeader.bwCnt = 0 := (State.streamHeader_bwCnt hsent).trans hcnt
  have hfooter := s.streamHeader.streamFooter_writer
  rw [hscrc', hcnt'] at hfooter
  rw [← hfooter, State.writer_err] at hend
  rw [← hfooter, State.writer_bytes, State.writer_bytes] at hbytes
  exact ⟨hsent, hend, hbytes⟩

/-- Settles O49: the header, and the footer of a stream CRC of 0. -/
theorem closeOfEmptyStreamSendsFourteenBytes : Obligations.CloseOfEmptyStreamSendsFourteenBytes := by
  intro s hs herr hbuf hrun hcnt hscrc hok
  obtain ⟨hheader, hfooter, hbytes⟩ := emptyStream_sent herr hcnt hscrc hok
  obtain ⟨hhs, hframe, -⟩ := State.streamHeader_sent hheader
  have hempty : s.streamHeader.blockEmpty = true :=
    hframe.blockEmpty.trans (State.blockEmpty_of_fresh hbuf hrun)
  have hclose := exec_close_of_unopened hs herr
  rw [if_pos hheader, exec_close_of_empty hhs hheader hempty, hfooter, if_pos rfl] at hclose
  have hsent := hframe.trans s.streamHeader.streamFooter_sameButWriter
  obtain ⟨-, hcnt'⟩ := State.streamFooter_sent hfooter
  generalize s.streamHeader.streamFooter = u at hclose hsent hfooter hcnt' hbytes
  exact ⟨_, hclose, hsent.ended .closed 0, hfooter, hcnt', hbytes⟩

end Sys2Proof.Machine
end

section
/-! PROOFS. WRITE past its checks: the header, the passes of the block cycle, and what it answers
(49_stream_commands.md R302 to R305; log 27). -/

namespace Sys2Proof.Machine

variable {s t u : State} {n : BitVec 24} {fuel : Nat}

/-! ### The header -/

/-- WRITE past its checks (R303, R350). -/
theorem exec_write (h : s.streamOpen) (hn : n.toNat ≤ s.dinIn.length) :
    exec (.write n) s =
      endCommand (finishWrite n) (fun t => t.freeCount n) (writeBody (s.takeDin n)) := by
  have hready : s.dinReady n = true := decide_eq_true hn
  show execWrite n s = _
  rw [execWrite, if_pos hready, State.check_eq_none.mpr h]

theorem writeBody_eq (s : State) :
    writeBody s =
      if s.openStream.err ≠ .noError then .next s.openStream
      else blockCycle (s.openStream.writeIn.length + 1) s.openStream := rfl

/-- Each pass of the block cycle sets PHASE. -/
theorem blockCycle_setPhase (fuel : Nat) (s : State) (p : Phase) :
    blockCycle (fuel + 1) (s.setPhase p) = blockCycle (fuel + 1) s := rfl

/-- The end of a WRITE, whatever PHASE it is in. -/
theorem EqUpToPhase.endCommand_finishWrite {o o' : Result} (h : EqUpToPhase o o') (n : BitVec 24) :
    Machine.endCommand (finishWrite n) (fun t => t.freeCount n) o =
      Machine.endCommand (finishWrite n) (fun t => t.freeCount n) o' :=
  h.endCommand (fun _ => rfl) fun _ => rfl

theorem State.writeFields_takeDin (s : State) (fs : List Field) (n : BitVec 24) :
    (s.takeDin n).writeFields fs = (s.writeFields fs).takeDin n := rfl

theorem State.streamHeader_takeDin (s : State) (n : BitVec 24) :
    (s.takeDin n).streamHeader = s.streamHeader.takeDin n := by
  unfold State.streamHeader
  rw [State.takeDin_level, State.writeFields_takeDin]
  generalize s.writeFields (streamHeaderFields s.level) = t
  dsimp only
  rw [State.takeDin_err]
  split <;> rfl

theorem State.takeDin_writeIn_length (hn : n.toNat ≤ s.dinIn.length) :
    (s.takeDin n).writeIn.length = n.toNat :=
  List.length_take_of_le hn

/-- A WRITE of a stream with its header is the block cycle. -/
theorem exec_write_of_headerWritten (hs : s.sstate = .headerWritten) (herr : s.err = .noError)
    (hn : n.toNat ≤ s.dinIn.length) :
    exec (.write n) s =
      endCommand (finishWrite n) (fun t => t.freeCount n)
        (blockCycle (n.toNat + 1) (s.takeDin n)) := by
  have hopen : (s.takeDin n).openStream = s.takeDin n := openStream_of_headerWritten hs
  have hgo : ¬ (s.takeDin n).err ≠ .noError := not_not.mpr herr
  rw [exec_write ⟨.inr hs, herr⟩ hn, writeBody_eq, hopen, if_neg hgo, State.takeDin_writeIn_length hn]

theorem SameButWriter.dinPort {q : SState} (h : SameButWriter { s with sstate := q } t) :
    t.dinIn = s.dinIn ∧ t.din = s.din := by
  unfold SameButWriter at h; rw [h]; exact ⟨rfl, rfl⟩

/-- A WRITE of a stream without its header: the header, and then the WRITE of a stream that has it, unless
the header fails (R303). -/
theorem exec_write_of_unopened (hs : s.sstate = .unopened) (herr : s.err = .noError)
    (hn : n.toNat ≤ s.dinIn.length) :
    exec (.write n) s =
      if s.streamHeader.err = .noError then exec (.write n) s.streamHeader
      else .next (finishWrite n (s.streamHeader.takeDin n)) := by
  have hopen : (s.takeDin n).openStream = (s.streamHeader.takeDin n).setPhase .header := by
    rw [openStream_of_unopened (s := s.takeDin n) hs, State.streamHeader_takeDin]
  rw [exec_write ⟨.inl hs, herr⟩ hn, writeBody_eq, hopen, State.setPhase_err, State.takeDin_err]
  by_cases hsent : s.streamHeader.err = .noError
  · obtain ⟨hhs, hframe, -⟩ := State.streamHeader_sent hsent
    obtain ⟨hdin, -⟩ := hframe.dinPort
    have hn' : n.toNat ≤ s.streamHeader.dinIn.length := hn.trans_eq (congrArg _ hdin.symm)
    rw [if_neg (not_not.mpr hsent), if_pos hsent, blockCycle_setPhase, State.setPhase_writeIn,
      exec_write_of_headerWritten hhs hsent hn',
      State.takeDin_writeIn_length hn']
  · rw [if_pos hsent, if_neg hsent]
    exact (eqUpToPhase_next _ _).endCommand_finishWrite n

/-! ### A pass of the block cycle -/

/-- What RLE1_ACCEPT does when it answers a next state. -/
theorem acceptsPrefix_of_next (h : execRle1Accept s = .next t) : ∃ taken, AcceptsPrefix s t taken := by
  unfold execRle1Accept at h
  split at h
  · next a ha =>
    cases h
    obtain ⟨taken, hinput, haccepts, hstop⟩ := Block.acceptAll_eq_some ha
    exact ⟨taken, hinput, haccepts, by simp [hinput], hstop, rfl⟩
  · exact absurd h (faultInvariant_ne_next _ _ _)

/-- An operation that does not depend on PHASE answers its next state from any PHASE. -/
theorem PhaseBlind.next_setPhase {op : State → Result} (hop : PhaseBlind op) (h : op s = .next t)
    (p : Phase) : op (s.setPhase p) = .next (t.setPhase p) := by
  have hblind := hop (s.setPhase p) s.phase
  rw [State.setPhase_setPhase, State.setPhase_phase_self, h] at hblind
  exact hblind.symm

theorem execRle1Accept_phaseBlind : PhaseBlind execRle1Accept := by
  intro s p
  unfold execRle1Accept
  rw [State.block_setPhase, State.setPhase_cap, State.setPhase_writeIn]
  cases s.block.acceptAll s.cap.toNat s.writeIn <;> rfl

/-- The serialisation of a block that RLE1_ACCEPT has filled (R303). -/
def serializeFull (s : State) : Result :=
  if s.blkFull then execBlkSerialize { s with blkFull := false } else .next s

/-- What a pass ends with: an error, or no byte left over, ends the cycle (R303). -/
def cycleOn (fuel : Nat) (s : State) : Result :=
  if s.err ≠ .noError then .next s else if s.writeIn = [] then .next s else blockCycle fuel s

theorem blockCycle_succ (fuel : Nat) (s : State) :
    blockCycle (fuel + 1) s =
      andThen (execRle1Accept (s.setPhase .accept)) fun t => andThen (serializeFull t) (cycleOn fuel) :=
  rfl

theorem serializeFull_setPhase (s : State) (p : Phase) :
    EqUpToPhase (serializeFull (s.setPhase p)) (serializeFull s) := by
  unfold serializeFull
  rw [State.setPhase_blkFull]
  split
  · exact execBlkSerialize_setPhase { s with blkFull := false } p
  · rfl

theorem cycleOn_setPhase (fuel : Nat) (s : State) (p : Phase) :
    EqUpToPhase (cycleOn fuel (s.setPhase p)) (cycleOn fuel s) := by
  unfold cycleOn
  rw [State.setPhase_err, State.setPhase_writeIn]
  split
  · rfl
  · split
    · rfl
    · cases fuel <;> rfl

/-- A pass, from what RLE1_ACCEPT leaves. -/
theorem blockCycle_pass (h : execRle1Accept s = .next t) (fuel : Nat) :
    EqUpToPhase (blockCycle (fuel + 1) s) (andThen (serializeFull t) (cycleOn fuel)) := by
  rw [blockCycle_succ, execRle1Accept_phaseBlind.next_setPhase h .accept, andThen_next]
  exact (serializeFull_setPhase t .accept).andThen (cycleOn_setPhase fuel)

/-! ### What a WRITE answers (R305) -/

/-- What the block cycle leaves alone: SSTATE and the DIN port. -/
def State.aside (s : State) : SState × List Byte × Byte := (s.sstate, s.dinIn, s.din)

theorem SameButBlock.aside (h : SameButBlock s t) : t.aside = s.aside := by
  unfold SameButBlock at h; rw [h]; rfl

/-- The block cycle leaves SSTATE and the DIN port, and no input unless an error ended it (R303). -/
theorem blockCycle_leaves (h : blockCycle fuel s = .next t) :
    t.aside = s.aside ∧ (t.err = .noError → t.writeIn = []) := by
  induction fuel generalizing s with
  | zero => exact absurd h (faultInvariant_ne_next _ _ _)
  | succ fuel ih =>
    obtain ⟨u, hu, v, hv, hend⟩ := blockCycle_next h
    have haccepted : u.aside = s.aside := by
      obtain ⟨b, full, rest, ret, rfl⟩ := execRle1Accept_eq_next hu
      rfl
    have hpass : v.aside = s.aside := by
      rcases hv with ⟨-, hser⟩ | ⟨-, rfl⟩
      · exact (execBlkSerialize_sameButBlock hser).aside.trans haccepted
      · exact haccepted
    rcases hend with ⟨herr, rfl⟩ | ⟨-, hin, rfl⟩ | ⟨-, -, hrest⟩
    · exact ⟨hpass, fun hok => absurd hok herr⟩
    · exact ⟨hpass, fun _ => hin⟩
    · obtain ⟨haside, hin⟩ := ih hrest
      exact ⟨haside.trans hpass, hin⟩

theorem State.openStream_dinPort (s : State) :
    s.openStream.dinIn = s.dinIn ∧ s.openStream.din = s.din := by
  unfold State.openStream
  split
  case h_2 => exact (State.streamHeader_sameButWriter (s.setPhase .header)).dinPort
  all_goals exact ⟨rfl, rfl⟩

theorem writeBody_leaves (h : writeBody s = .next t) :
    t.dinIn = s.dinIn ∧ t.din = s.din ∧ (t.err = .noError → t.writeIn = []) := by
  obtain ⟨hdinIn, hdin⟩ := s.openStream_dinPort
  rw [writeBody_eq] at h
  split at h
  · next herr =>
    obtain rfl := Host.Outcome.next.inj h
    exact ⟨hdinIn, hdin, fun hok => absurd hok herr⟩
  · obtain ⟨haside, hin⟩ := blockCycle_leaves h
    simp only [State.aside, Prod.mk.injEq] at haside
    obtain ⟨-, hdinIn', hdin'⟩ := haside
    exact ⟨hdinIn'.trans hdinIn, hdin'.trans hdin, hin⟩

theorem finishWrite_of_noError (h : s.err = .noError) (n : BitVec 24) :
    finishWrite n s = { s with result := n.setWidth 32, phase := .idle } := by
  rw [finishWrite, if_pos h, State.finish, State.answer, h, resultWord_noError]

theorem finishWrite_of_err (h : s.err ≠ .noError) (n : BitVec 24) :
    finishWrite n s = { s with result := resultWord s.err (s.freeCount n), phase := .idle,
                               writeIn := [], draws := s.draws + 1 } := by
  rw [finishWrite, if_neg h, State.failWrite, State.failWith, State.raise_own_err]
  rfl

/-- The error a WRITE answers that a check of R350 ended is the one in ERR, NotConfigured apart. -/
theorem raise_err_of_check {e : ErrCode} (h : s.check = some e) :
    e = if s.sstate = .unconfigured then .notConfigured else (s.raise e).err := by
  obtain ⟨hs, rfl⟩ | ⟨hs, -, rfl⟩ | ⟨hs, -, rfl⟩ := State.check_eq_some.mp h
  · rw [if_pos hs]
  · rw [if_neg hs, State.raise_own_err]
  · rw [if_neg (by simp [hs])]
    rfl

/-- Settles O53: a WRITE turned away by a check discards its bytes; else the block cycle takes them, and
its end writes RESULT. -/
theorem writeResultCount : Obligations.WriteResultCount := by
  intro s t n h
  obtain ⟨-, ⟨e, hcheck, rfl⟩ | ⟨hcheck, u, hu, rfl⟩⟩ := execWrite_next h
  · have hclosed : ¬ s.streamOpen := fun ho => by simp [State.check_eq_none.mpr ho] at hcheck
    refine ⟨rfl, rfl, rfl, fun ho => absurd ho hclosed, fun _ =>
      ⟨(s.discardDin n).freeCount n, State.freeCount_le _ n, ?_⟩⟩
    exact congrArg (resultWord · _) (raise_err_of_check hcheck)
  · have hopen := State.check_eq_none.mp hcheck
    have hconf : s.sstate ≠ .unconfigured := by
      obtain ⟨hs | hs, -⟩ := hopen <;> simp [hs]
    obtain ⟨hdinIn, hdin, hin⟩ := writeBody_leaves hu
    by_cases herr : u.err = .noError
    · rw [finishWrite_of_noError herr]
      exact ⟨hdinIn, hin herr, hdin, fun _ _ => rfl, fun hno => absurd ⟨hopen, herr⟩ hno⟩
    · rw [finishWrite_of_err herr]
      refine ⟨hdinIn, rfl, hdin, fun _ hok => absurd hok herr, fun _ =>
        ⟨u.freeCount n, u.freeCount_le n, ?_⟩⟩
      rw [if_neg hconf]

end Sys2Proof.Machine
end

section
/-! PROOFS. A WRITE whose bytes fit the open block (43_rle1_block.md R174 to R178, 49_stream_commands.md
R303), and the partition of such a WRITE (70_reset_and_hazards.md R376). -/

namespace Sys2Proof.Machine

variable {s t a : State} {n : BitVec 24} {cap : Nat} {x : Byte} {l m : List Byte} {b b' c d : Block}

/-! ### Bytes that fit the block -/

theorem Block.pending_length_le (b : Block) : b.pending.length ≤ 1 := by
  unfold Block.pending
  split <;> simp

/-- An accepted byte takes at most two bytes of the block's room (R175, R176, R177). -/
theorem Block.accept_eff_le (h : b.accept cap x = .taken b') : b'.eff ≤ b.eff + 2 := by
  have hbuf : b'.buf.length ≤ b.eff + 1 := by
    rw [Block.eff_eq]
    obtain ⟨-, -, rfl⟩ | ⟨-, -, -, -, rfl⟩ | ⟨-, -, -, rfl⟩ := Block.accept_taken.mp h
    · show b.buf.length ≤ _
      omega
    · rw [Block.fold_buf, List.length_append, List.length_singleton]
      omega
    · rw [Block.fold_buf, List.length_append, List.length_append, List.length_singleton]
      omega
  have hpending := b'.pending_length_le
  rw [Block.eff_eq b']
  omega

/-- Bytes with room for two bytes each are all accepted. -/
theorem Block.exists_accepts (hcap : cap ≤ Config.capMax) (h : b.eff + 2 * l.length ≤ cap) :
    ∃ c, Block.Accepts cap b l c ∧ c.eff ≤ b.eff + 2 * l.length := by
  induction l generalizing b with
  | nil => exact ⟨b, .nil b, le_rfl⟩
  | cons x xs ih =>
    rw [List.length_cons] at h ⊢
    cases hx : b.accept cap x with
    | taken b' =>
      have heff := Block.accept_eff_le hx
      obtain ⟨c, hc, hceff⟩ := ih (b := b') (by omega)
      exact ⟨c, .cons hx hc, by omega⟩
    | full =>
      have := Block.accept_full hx
      omega
    | outside => exact absurd hx (Block.accept_ne_outside hcap)

theorem Block.Accepts.append (h : Block.Accepts cap b l c) (h' : Block.Accepts cap c m d) :
    Block.Accepts cap b (l ++ m) d := by
  induction h with
  | nil b => exact h'
  | cons hx _ ih => exact .cons hx (ih h')

/-- The loop of R174 over bytes that are all accepted. -/
theorem Block.Accepts.acceptAll (h : Block.Accepts cap b l c) :
    b.acceptAll cap l = some { block := c, full := c.eff == cap, rest := [] } := by
  induction h with
  | nil b => rfl
  | cons hx _ ih => rw [Block.acceptAll, hx]; exact ih

/-! ### A WRITE that fills no block -/

theorem serializeFull_of_not_full (h : s.blkFull = false) : serializeFull s = .next s := by
  rw [serializeFull, h, if_neg Bool.false_ne_true]

theorem cycleOn_of_done (herr : s.err = .noError) (hin : s.writeIn = []) (fuel : Nat) :
    cycleOn fuel s = .next s := by
  rw [cycleOn, if_neg (not_not.mpr herr), if_pos hin]

/-- A WRITE to a stream with its header, from what RLE1_ACCEPT leaves of its bytes. -/
theorem exec_write_pass (hs : s.sstate = .headerWritten) (herr : s.err = .noError)
    (hn : n.toNat ≤ s.dinIn.length) (ha : execRle1Accept (s.takeDin n) = .next a) :
    exec (.write n) s = endCommand (finishWrite n) (fun t => t.freeCount n)
      (andThen (serializeFull a) (cycleOn n.toNat)) :=
  (exec_write_of_headerWritten hs herr hn).trans ((blockCycle_pass ha n.toNat).endCommand_finishWrite n)

/-- A WRITE whose bytes are taken without filling the block is done. -/
theorem exec_write_of_accepted (hs : s.sstate = .headerWritten) (herr : s.err = .noError)
    (hn : n.toNat ≤ s.dinIn.length) (ha : execRle1Accept (s.takeDin n) = .next a)
    (herr' : a.err = .noError) (hfull : a.blkFull = false) (hin : a.writeIn = []) :
    exec (.write n) s = .next { a with result := n.setWidth 32, phase := .idle } := by
  rw [exec_write_pass hs herr hn ha, serializeFull_of_not_full hfull, andThen_next,
    cycleOn_of_done herr' hin, endCommand_next, finishWrite_of_noError herr']

/-- The state after a WRITE that fills no block and leaves the open block `c`. -/
def State.wrote (s : State) (n : BitVec 24) (c : Block) : State :=
  { (s.takeDin n).setBlock c with
    blkFull := false, writeIn := [], uopRet := BitVec.ofNat 32 n.toNat, result := n.setWidth 32,
    phase := .idle }

theorem exec_write_fits (hs : s.sstate = .headerWritten) (herr : s.err = .noError)
    (hn : n.toNat ≤ s.dinIn.length)
    (hc : Block.Accepts s.cap.toNat s.block (s.dinIn.take n.toNat) c) (hroom : c.eff < s.cap.toNat) :
    exec (.write n) s = .next (s.wrote n c) := by
  have haccept : execRle1Accept (s.takeDin n) = .next
      { (s.takeDin n).setBlock c with
        blkFull := false, writeIn := [], uopRet := BitVec.ofNat 32 n.toNat } := by
    have hall : (s.takeDin n).block.acceptAll (s.takeDin n).cap.toNat (s.takeDin n).writeIn =
        some { block := c, full := false, rest := [] } := by
      rw [← beq_false_of_ne hroom.ne]
      exact hc.acceptAll
    rw [execRle1Accept, hall, State.takeDin_writeIn_length hn]
    rfl
  exact exec_write_of_accepted hs herr hn haccept herr rfl rfl

theorem State.writer_draws (s : State) : s.writer.draws = s.draws := rfl

/-- A WRITE to an open stream with a sink that does not fail is the WRITE to a stream that has its
header. -/
theorem exists_opened (hopen : s.streamOpen) (hsink : s.sinkHealthy) :
    ∃ h, h.sstate = .headerWritten ∧ h.err = .noError ∧ h.draws = s.draws ∧
      SameButWriter { s with sstate := .headerWritten } h ∧
      h.stream = s.stream ++ (if s.sstate = .unopened then headerBits s.level else []) ∧
      ∀ n : BitVec 24, n.toNat ≤ s.dinIn.length → exec (.write n) s = exec (.write n) h := by
  obtain ⟨hs | hs, herr⟩ := hopen
  · have hsent := State.streamHeader_healthy herr hsink
    obtain ⟨hhs, hframe, hx⟩ := State.streamHeader_sent hsent
    refine ⟨s.streamHeader, hhs, hsent, ?_, hframe, ?_, fun n hn => ?_⟩
    · rw [← State.writer_draws, hx.draws, State.writer_draws]
    · rw [if_pos hs, State.streamHeader_stream hsent]
    · rw [exec_write_of_unopened hs herr hn, if_pos hsent]
  · refine ⟨s, hs, herr, rfl, ?_, ?_, fun _ _ => rfl⟩
    · rw [SameButWriter, ← hs]
    · rw [if_neg (by simp [hs]), List.append_nil]

/-- Settles O51: every byte is accepted into a block with room for it, so that no block is serialised. -/
theorem writeThatFitsAcceptsEveryByte : Obligations.WriteThatFitsAcceptsEveryByte := by
  intro s n hopen hb hn hroom hsink
  have hlen : (s.dinIn.take n.toNat).length = n.toNat := List.length_take_of_le hn
  obtain ⟨c, hc, hceff⟩ := Block.exists_accepts (b := s.block) (l := s.dinIn.take n.toNat) hb.cap
    (by rw [hlen, State.block_eff]; exact hroom.le)
  rw [hlen, State.block_eff] at hceff
  obtain ⟨h, hs, herr, hdraws, hframe, hstream, hexec⟩ := exists_opened hopen hsink
  obtain ⟨⟨acc, cnt, err, dout, script, rest, bytes, draws⟩, hrest, rfl⟩ := hframe.exists_setWriter
  obtain rfl : err = s.err := herr.trans hopen.2.symm
  obtain rfl : draws = s.draws := hdraws
  obtain rfl : rest = s.sinkRest := hrest
  refine ⟨_, (hexec n hn).trans (exec_write_fits hs herr hn hc (hceff.trans_lt hroom)), rfl, herr, rfl,
    rfl, hc.bcrc, fun d hd => ?_, hstream, rfl⟩
  exact (State.holdsCode_iff.mp hd).accepts hc

/-! ### The partition of a WRITE (R376) -/

theorem lastByte_append (x : Byte) (l m : List Byte) : lastByte x (l ++ m) = lastByte (lastByte x l) m := by
  cases m <;> simp [lastByte, List.getLastD_eq_getLast?]

theorem State.wrote_wrote {k total : BitVec 24} (htotal : total.toNat = n.toNat + k.toNat) :
    (s.wrote n c).wrote k d =
      { s.wrote total d with
        result := k.setWidth 32, uopRet := BitVec.ofNat 32 k.toNat } := by
  have hdin : lastByte s.din (s.dinIn.take total.toNat) =
      lastByte (lastByte s.din (s.dinIn.take n.toNat)) ((s.dinIn.drop n.toNat).take k.toNat) := by
    rw [htotal, List.take_add, lastByte_append]
  have hdinIn : s.dinIn.drop total.toNat = (s.dinIn.drop n.toNat).drop k.toNat := by
    rw [htotal, List.drop_drop]
  simp only [State.wrote, State.takeDin, State.setBlock, hdin, hdinIn]

/-- Settles O54: the bytes of both parts are accepted one after another, and no block fills. -/
theorem writePartitionKeepsOpenBlock : Obligations.WritePartitionKeepsOpenBlock := by
  intro s n k total hopen hb htotal hlen hroom hsink
  obtain ⟨h, hs, herr, -, hframe, -, hexec⟩ := exists_opened hopen hsink
  obtain ⟨w, -, rfl⟩ := hframe.exists_setWriter
  have hn : (s.dinIn.take n.toNat).length = n.toNat := List.length_take_of_le (by omega)
  have hk : ((s.dinIn.drop n.toNat).take k.toNat).length = k.toNat :=
    List.length_take_of_le (by rw [List.length_drop]; omega)
  have hsplit : s.dinIn.take total.toNat =
      s.dinIn.take n.toNat ++ (s.dinIn.drop n.toNat).take k.toNat := by rw [htotal, List.take_add]
  obtain ⟨c, hc, hceff⟩ := Block.exists_accepts (b := s.block) (l := s.dinIn.take n.toNat) hb.cap
    (by rw [hn, State.block_eff]; omega)
  rw [hn, State.block_eff] at hceff
  obtain ⟨d, hd, hdeff⟩ :=
    Block.exists_accepts (b := c) (l := (s.dinIn.drop n.toNat).take k.toNat) hb.cap
      (by rw [hk]; omega)
  rw [hk] at hdeff
  refine ⟨_, _, _, (hexec n (by omega)).trans (exec_write_fits hs herr (c := c) ?_ hc ?_),
    exec_write_fits hs herr (c := d) ?_ hd ?_,
    (hexec total hlen).trans (exec_write_fits hs herr (c := d) hlen ?_ ?_), State.wrote_wrote htotal⟩
  · show n.toNat ≤ s.dinIn.length
    omega
  · show c.eff < s.cap.toNat
    omega
  · show k.toNat ≤ (s.dinIn.drop n.toNat).length
    rw [List.length_drop]
    omega
  · show d.eff < s.cap.toNat
    omega
  · show Block.Accepts s.cap.toNat s.block (s.dinIn.take total.toNat) d
    rw [hsplit]
    exact hc.append hd
  · show d.eff < s.cap.toNat
    omega

end Sys2Proof.Machine
end

section
/-! PROOFS. The block cycle of WRITE (49_stream_commands.md R303, R304): a pass into an empty block takes
at least one byte, so that the passes end, and no fuel of as many passes changes what they do. -/

namespace Sys2Proof.Machine

variable {s a b t u v : State} {n k : BitVec 24} {fuel f g : Nat} {o : Result}

/-! ### One pass -/

theorem execRle1Accept_err (h : execRle1Accept s = .next a) : a.err = s.err := by
  obtain ⟨b, full, rest, ret, rfl⟩ := execRle1Accept_eq_next h
  rfl

theorem execRle1Accept_aside (h : execRle1Accept s = .next a) : a.aside = s.aside := by
  obtain ⟨b, full, rest, ret, rfl⟩ := execRle1Accept_eq_next h
  rfl

theorem serializeFull_of_full (h : s.blkFull = true) :
    serializeFull s = execBlkSerialize { s with blkFull := false } := by
  rw [serializeFull, if_pos h]

theorem serializeFull_aside (h : serializeFull a = .next v) : v.aside = a.aside := by
  cases hfull : a.blkFull
  · rw [serializeFull_of_not_full hfull] at h
    rw [Host.Outcome.next.inj h]
  · rw [serializeFull_of_full hfull] at h
    exact (execBlkSerialize_sameButBlock h).aside

theorem serializeFull_writeIn (h : serializeFull a = .next v) : v.writeIn = a.writeIn := by
  cases hfull : a.blkFull
  · rw [serializeFull_of_not_full hfull] at h
    rw [Host.Outcome.next.inj h]
  · rw [serializeFull_of_full hfull] at h
    have hframe := execBlkSerialize_sameButBlock h
    exact State.control_writeIn (s := { a with blkFull := false }) hframe.control

/-- A pass after which the cycle goes on leaves an empty block, and has taken a byte when the block was
empty before it (R304). -/
theorem pass_goes_on (ha : execRle1Accept s = .next a) (hv : serializeFull a = .next v)
    (herr : v.err = .noError) (hin : v.writeIn ≠ []) :
    v.blockEmpty = true ∧ v.writeIn.length ≤ s.writeIn.length ∧
      (s.blockEmpty = true → v.writeIn.length < s.writeIn.length) := by
  obtain ⟨taken, h⟩ := acceptsPrefix_of_next ha
  rw [serializeFull_writeIn hv] at hin ⊢
  rw [serializeFull_of_full (h.blkFull_iff.mpr (.inl hin))] at hv
  obtain ⟨hbuf, hrun, -⟩ := execBlkSerialize_empties hv herr
  have hlen : s.writeIn.length = taken.length + a.writeIn.length := by
    rw [h.input, List.length_append]
  refine ⟨State.blockEmpty_of_fresh hbuf hrun, by omega, fun hempty => ?_⟩
  have htaken : taken ≠ [] := by
    rintro rfl
    have hblock : a.block = s.block := Block.accepts_nil_iff.mp h.accepts
    have hne : a.blockEmpty = false := (execBlkSerialize_next hv).1
    have hsame : a.blockEmpty = s.blockEmpty :=
      congrArg (fun b : Block => b.buf.isEmpty && b.runLen == 0) hblock
    simp [hsame, hempty] at hne
  have := List.length_pos_iff.mpr htaken
  omega

/-! ### The passes do not depend on their fuel -/

theorem andThen_congr {f g : State → Result} (h : ∀ s, o = .next s → f s = g s) :
    andThen o f = andThen o g := by
  cases o with
  | next s => exact h s rfl
  | fault r => rfl
  | refused r => rfl

theorem cycleOn_congr (h : v.err = .noError → v.writeIn ≠ [] → blockCycle f v = blockCycle g v) :
    cycleOn f v = cycleOn g v := by
  unfold cycleOn
  by_cases herr : v.err = .noError
  · by_cases hin : v.writeIn = []
    · simp [hin]
    · rw [h herr hin]
  · simp [herr]

/-- From an empty block, as many passes as bytes are enough, and more change nothing (R304). -/
theorem blockCycle_fuel (hempty : s.blockEmpty = true) (hf : 0 < f) (hg : 0 < g)
    (hfin : s.writeIn.length ≤ f) (hgin : s.writeIn.length ≤ g) : blockCycle f s = blockCycle g s := by
  induction f generalizing s g with
  | zero => omega
  | succ f ih =>
    obtain ⟨g, rfl⟩ : ∃ g', g = g' + 1 := ⟨g - 1, by omega⟩
    rw [blockCycle_succ, blockCycle_succ]
    refine andThen_congr fun t ht => andThen_congr fun v hv => cycleOn_congr fun herr hin => ?_
    obtain ⟨hempty', -, hless⟩ := pass_goes_on ht hv herr hin
    have hlt : v.writeIn.length < s.writeIn.length := hless hempty
    have hpos := List.length_pos_iff.mpr hin
    exact ih hempty' (by omega) (by omega) (by omega) (by omega)

/-! ### The passes end (R304) -/

/-- The outcome is a next state, or CodeLengthOverflow on a code of more than 20 bits. -/
def Ends (o : Result) : Prop :=
  (∃ t, o = .next t) ∨
  ∃ longest e, o = .fault (.codeLengthOverflow longest e) ∧ 20 < longest ∧ e.err = .codeLengthOverflow

theorem Ends.andThen {f : State → Result} (h : Ends o) (hf : ∀ s, o = .next s → Ends (f s)) :
    Ends (Machine.andThen o f) := by
  obtain ⟨s, rfl⟩ | ⟨longest, e, rfl, h⟩ := h
  · exact hf s rfl
  · exact .inr ⟨longest, e, rfl, h⟩

theorem Ends.endCommand {finish : State → State} {count : State → BitVec 24} (h : Ends o) :
    Ends (Machine.endCommand finish count o) := by
  obtain ⟨s, rfl⟩ | ⟨longest, e, rfl, hlong, herr⟩ := h
  · exact .inl ⟨_, rfl⟩
  · exact .inr ⟨longest, _, rfl, hlong, herr⟩

theorem State.roomNeeded_le (s : State) (x : Byte) : s.roomNeeded x ≤ 2 := by
  unfold State.roomNeeded
  split_ifs <;> omega

theorem State.eff_of_blockEmpty (h : s.blockEmpty = true) : s.eff = 0 := by
  obtain ⟨hbuf, hrun⟩ : s.blkBuf = [] ∧ s.runLen = 0 := by simpa [State.blockEmpty] using h
  simp [State.eff, State.blkLen, hbuf, hrun, lengthPending, Config.rle1Lit]

/-- A block that has filled is not empty. -/
theorem AcceptsPrefix.nonempty_of_full {taken : List Byte} (h : AcceptsPrefix s a taken)
    (ha : a.BlockBounded) (hcap : 2 ≤ a.cap.toNat) (hfull : a.blkFull = true) :
    a.blockEmpty = false := by
  rw [← Bool.not_eq_true]
  intro hempty
  have heff := State.eff_of_blockEmpty hempty
  obtain hin | hexact := h.blkFull_iff.mp hfull
  · obtain ⟨x, xs, hx⟩ := List.exists_cons_of_ne_nil hin
    have hroom := h.refused ha hx
    have := a.roomNeeded_le x
    omega
  · omega

/-- A filled block of a stream without error is serialised, or has a long code. -/
theorem serializeFull_ends {taken : List Byte} (h : AcceptsPrefix s a taken) (ha : a.BlockBounded)
    (hcap : 2 ≤ a.cap.toNat) (herr : a.err = .noError) : Ends (serializeFull a) := by
  cases hfull : a.blkFull
  · exact .inl ⟨a, serializeFull_of_not_full hfull⟩
  · rw [serializeFull_of_full hfull]
    obtain ⟨t, ht, -⟩ | ⟨longest, e, he, hlong, herr, -⟩ :=
      serializeFaultsOnlyOnLongCodes { a with blkFull := false } (ha.of_extent rfl)
        (h.nonempty_of_full ha hcap hfull) herr
    · exact .inl ⟨t, ht⟩
    · exact .inr ⟨longest, e, he, hlong, herr⟩

theorem serializeFull_keeps (h : serializeFull a = .next v) (ha : a.BlockBounded) :
    v.BlockBounded ∧ v.cap = a.cap := by
  cases hfull : a.blkFull
  · rw [serializeFull_of_not_full hfull] at h
    obtain rfl := Host.Outcome.next.inj h
    exact ⟨ha, rfl⟩
  · rw [serializeFull_of_full hfull] at h
    have hcontrol := (execBlkSerialize_sameButBlock h).control
    simp only [State.control, Prod.mk.injEq] at hcontrol
    obtain ⟨-, -, hcap, -⟩ := hcontrol
    exact ⟨execBlkSerialize_keepsBlockBounded h (ha.of_extent rfl), hcap⟩

theorem blockCycle_ends (hs : s.BlockBounded) (hcap : 2 ≤ s.cap.toNat) (herr : s.err = .noError)
    (hfuel : s.writeIn.length < fuel ∨ (s.blockEmpty = true ∧ s.writeIn.length ≤ fuel ∧ 0 < fuel)) :
    Ends (blockCycle fuel s) := by
  induction fuel generalizing s with
  | zero => omega
  | succ fuel ih =>
    rw [blockCycle_succ]
    obtain ⟨a, taken, ha, hbounded, hprefix⟩ :=
      exec_rle1Accept (s := s.setPhase .accept) (hs.of_extent rfl)
    have hacap : 2 ≤ a.cap.toNat := by rw [hprefix.cap]; exact hcap
    have haerr : a.err = .noError := (execRle1Accept_err ha).trans herr
    refine Ends.andThen (.inl ⟨a, ha⟩) fun a' ha' => ?_
    obtain rfl := Host.Outcome.next.inj (ha.symm.trans ha')
    refine (serializeFull_ends hprefix hbounded hacap haerr).andThen fun v hv => ?_
    obtain ⟨hvbounded, hvcap⟩ := serializeFull_keeps hv hbounded
    by_cases hverr : v.err = .noError
    · by_cases hin : v.writeIn = []
      · exact .inl ⟨v, cycleOn_of_done hverr hin fuel⟩
      · obtain ⟨hempty, hle, hless⟩ := pass_goes_on ha hv hverr hin
        have hle : v.writeIn.length ≤ s.writeIn.length := hle
        have hless : s.blockEmpty = true → v.writeIn.length < s.writeIn.length := hless
        have hpos := List.length_pos_iff.mpr hin
        have hfuel' : v.writeIn.length ≤ fuel := by
          obtain h | ⟨h, h', -⟩ := hfuel
          · omega
          · have := hless h
            omega
        rw [cycleOn, if_neg (not_not.mpr hverr), if_neg hin]
        exact ih hvbounded (hvcap ▸ hacap) hverr (.inr ⟨hempty, hfuel', by omega⟩)
    · rw [cycleOn, if_pos hverr]
      exact .inl ⟨v, rfl⟩

/-- The capacity of a settled, configured CORE has room for two bytes (R25). -/
theorem State.Settled.two_le_cap (h : s.Settled) (hopen : s.streamOpen) : 2 ≤ s.cap.toNat := by
  obtain ⟨hlow, -, hcap⟩ := h.level (State.streamOpen_configured hopen)
  omega

theorem exec_write_ends (hs : s.sstate = .headerWritten) (herr : s.err = .noError)
    (hb : s.BlockBounded) (hcap : 2 ≤ s.cap.toNat) (hn : n.toNat ≤ s.dinIn.length) :
    Ends (exec (.write n) s) := by
  rw [exec_write_of_headerWritten hs herr hn]
  refine (blockCycle_ends (s := s.takeDin n) (hb.of_extent rfl) hcap herr (.inl ?_)).endCommand
  rw [State.takeDin_writeIn_length hn]
  omega

/-! ### The rest of the bytes as a WRITE of their own (R303) -/

theorem Fault.inCommand_inCommand (c : State → BitVec 24) (k : BitVec 24) (r : Fault) :
    (r.inCommand c).inCommand (fun _ => k) = r.inCommand fun _ => k := by
  cases r <;> rfl

/-- The count in a fault of a WRITE is some value in 0..n (R305; log 8). -/
theorem Fault.inCommand_freeCount (n : BitVec 24) (r : Fault) :
    ∃ c : BitVec 24, c.toNat ≤ n.toNat ∧
      r.inCommand (fun t => t.freeCount n) = r.inCommand fun _ => c := by
  cases r with
  | unalignedWrite e => exact ⟨e.freeCount n, e.freeCount_le n, rfl⟩
  | invariantViolation w e => exact ⟨e.freeCount n, e.freeCount_le n, rfl⟩
  | codeLengthOverflow longest e => exact ⟨e.freeCount n, e.freeCount_le n, rfl⟩

/-- The state from which a WRITE of the unconsumed input does the same. -/
def State.putBack (s : State) : State := { s with writeIn := [], dinIn := s.writeIn ++ s.dinIn }

theorem State.putBack_takeDin (hk : k.toNat = s.writeIn.length) (hdin : lastByte s.din s.writeIn = s.din) :
    s.putBack.takeDin k = s := by
  have htake : (s.writeIn ++ s.dinIn).take k.toNat = s.writeIn := by rw [hk, List.take_left]
  have hdrop : (s.writeIn ++ s.dinIn).drop k.toNat = s.dinIn := by rw [hk, List.drop_left]
  simp only [State.takeDin, State.putBack, htake, hdrop, hdin]

theorem lastByte_suffix (x : Byte) (l m : List Byte) :
    lastByte (lastByte x (l ++ m)) m = lastByte x (l ++ m) := by
  cases m with
  | nil => rfl
  | cons y ys => simp [lastByte, List.getLastD_eq_getLast?, List.getLast?_cons]

/-- The bytes that a pass left over, as a WRITE of their own. -/
theorem exec_write_putBack (hs : s.sstate = .headerWritten) (herr : s.err = .noError)
    (hk : k.toNat = s.writeIn.length) (hdin : lastByte s.din s.writeIn = s.din) :
    exec (.write k) s.putBack =
      endCommand (finishWrite k) (fun t => t.freeCount k) (blockCycle (k.toNat + 1) s) := by
  have hlen : k.toNat ≤ s.putBack.dinIn.length := by
    show k.toNat ≤ (s.writeIn ++ s.dinIn).length
    rw [List.length_append]
    omega
  rw [exec_write_of_headerWritten (s := s.putBack) hs herr hlen, State.putBack_takeDin hk hdin]

/-! ### The WRITE of an open stream -/

theorem State.cap_of_extent (h : t.extent = s.extent) : t.cap = s.cap := by
  simp only [State.extent, Prod.mk.injEq] at h
  exact h.2.2

/-- A WRITE of an open stream ends, the header included (R303, R304). -/
theorem exec_write_ends_of_open (hopen : s.streamOpen) (hb : s.BlockBounded)
    (hcap : 2 ≤ s.cap.toNat) (hn : n.toNat ≤ s.dinIn.length) : Ends (exec (.write n) s) := by
  obtain ⟨hs | hs, herr⟩ := hopen
  · rw [exec_write_of_unopened hs herr hn]
    split
    · next hsent =>
      obtain ⟨hhs, hframe, -⟩ := State.streamHeader_sent hsent
      obtain ⟨hdin, -⟩ := hframe.dinPort
      have hextent := s.streamHeader_extent
      have hhcap : 2 ≤ s.streamHeader.cap.toNat := by rw [State.cap_of_extent hextent]; exact hcap
      exact exec_write_ends hhs hsent (hb.of_extent hextent) hhcap
        (hn.trans_eq (congrArg _ hdin.symm))
    · exact .inl ⟨_, rfl⟩
  · exact exec_write_ends hs herr hb hcap hn

/-- A WRITE whose pass ends in a serialisation that the sink fails. -/
theorem exec_write_of_sinkFailure (hs : s.sstate = .headerWritten) (herr : s.err = .noError)
    (hn : n.toNat ≤ s.dinIn.length) (ha : execRle1Accept (s.takeDin n) = .next a)
    (hb : serializeFull a = .next b) (hfail : b.err ≠ .noError) :
    exec (.write n) s = .next (finishWrite n b) := by
  rw [exec_write_pass hs herr hn ha, hb, andThen_next, cycleOn, if_pos hfail, endCommand_next]

/-- A WRITE whose pass ends in a serialisation that takes the last byte. -/
theorem exec_write_of_serialized (hs : s.sstate = .headerWritten) (herr : s.err = .noError)
    (hn : n.toNat ≤ s.dinIn.length) (ha : execRle1Accept (s.takeDin n) = .next a)
    (hb : serializeFull a = .next b) (hok : b.err = .noError) (hin : b.writeIn = []) :
    exec (.write n) s = .next { b with result := n.setWidth 32, phase := .idle } := by
  rw [exec_write_pass hs herr hn ha, hb, andThen_next, cycleOn_of_done hok hin, endCommand_next,
    finishWrite_of_noError hok]

/-- A WRITE whose pass leaves bytes over is the block cycle over them, as the WRITE of these bytes alone
is. -/
theorem exec_write_of_refused (hs : s.sstate = .headerWritten) (herr : s.err = .noError)
    (hn : n.toNat ≤ s.dinIn.length) (ha : execRle1Accept (s.takeDin n) = .next a)
    (hb : serializeFull a = .next b) (hok : b.err = .noError) (hk : k.toNat = b.writeIn.length)
    (hk0 : k ≠ 0) :
    ∃ o, exec (.write n) s = endCommand (finishWrite n) (fun t => t.freeCount n) o ∧
      exec (.write k) b.putBack = endCommand (finishWrite k) (fun t => t.freeCount k) o := by
  have hin : b.writeIn ≠ [] := by
    intro hnil
    rw [hnil] at hk
    exact hk0 (BitVec.eq_of_toNat_eq hk)
  obtain ⟨hempty, hle, -⟩ := pass_goes_on ha hb hok hin
  have hle : b.writeIn.length ≤ n.toNat := hle.trans_eq (State.takeDin_writeIn_length hn)
  have hpos := List.length_pos_iff.mpr hin
  have haside := (serializeFull_aside hb).trans (execRle1Accept_aside ha)
  refine ⟨blockCycle (k.toNat + 1) b, ?_, exec_write_putBack ?_ hok hk ?_⟩
  · rw [exec_write_pass hs herr hn ha, hb, andThen_next, cycleOn, if_neg (not_not.mpr hok), if_neg hin,
      blockCycle_fuel hempty (g := k.toNat + 1) (by omega) (by omega) hle (by omega)]
  · exact (congrArg Prod.fst haside).trans hs
  · obtain ⟨taken, hprefix⟩ := acceptsPrefix_of_next ha
    have hdin : b.din = lastByte s.din (taken ++ b.writeIn) := by
      rw [serializeFull_writeIn hb, ← hprefix.input]
      exact congrArg (fun p => p.2.2) haside
    rw [hdin, lastByte_suffix]

/-- Two WRITEs that end the same block cycle differ in RESULT only (R305). -/
theorem endCommand_write_next
    (h : endCommand (finishWrite k) (fun t => t.freeCount k) o = .next u) (n : BitVec 24) :
    (u.err = .noError → endCommand (finishWrite n) (fun t => t.freeCount n) o =
      .next { u with result := n.setWidth 32 }) ∧
    (u.err ≠ .noError → ∃ c : BitVec 24, c.toNat ≤ n.toNat ∧
      endCommand (finishWrite n) (fun t => t.freeCount n) o =
        .next { u with result := resultWord u.err c }) := by
  obtain ⟨v, rfl, rfl⟩ := endCommand_eq_next.mp h
  rw [endCommand_next]
  by_cases herr : v.err = .noError
  · rw [finishWrite_of_noError herr, finishWrite_of_noError herr]
    exact ⟨fun _ => rfl, fun hne => absurd herr hne⟩
  · rw [finishWrite_of_err herr, finishWrite_of_err herr]
    exact ⟨fun hok => absurd hok herr, fun _ => ⟨v.freeCount n, v.freeCount_le n, rfl⟩⟩

theorem endCommand_write_fault {r : Fault}
    (h : endCommand (finishWrite k) (fun t => t.freeCount k) o = .fault r) (n : BitVec 24) :
    ∃ c : BitVec 24, c.toNat ≤ n.toNat ∧
      endCommand (finishWrite n) (fun t => t.freeCount n) o = .fault (r.inCommand fun _ => c) := by
  cases o with
  | next v => cases h
  | refused r => cases h
  | fault r' =>
    obtain rfl := Host.Outcome.fault.inj h
    obtain ⟨c, hc, heq⟩ := r'.inCommand_freeCount n
    exact ⟨c, hc, by rw [endCommand_fault, heq, Fault.inCommand_inCommand]⟩

/-- Settles O52, by one pass of the cycle and the passes that follow it. -/
theorem writeBlockCycleEnds : Obligations.WriteBlockCycleEnds := by
  refine ⟨fun s n hs hb hopen hn => exec_write_ends_of_open hopen hb (hs.two_le_cap hopen) hn,
    fun s h n hs herr hn hh hsent => ?_, fun s a n hs herr hn ha => ?_⟩
  · rw [exec_streamHeader, Host.Outcome.next.injEq] at hh
    subst hh
    rw [exec_write_of_unopened hs herr hn, if_pos hsent]
  have ha' : execRle1Accept (s.takeDin n) = .next a := ha
  refine ⟨fun hfull => ?_, fun hfull b hb => ?_, fun hfull r hr => ?_⟩
  · obtain ⟨taken, hprefix⟩ := acceptsPrefix_of_next ha'
    have hin : a.writeIn = [] := by
      by_contra hne
      rw [hprefix.blkFull_iff.mpr (.inl hne)] at hfull
      cases hfull
    exact ⟨hin, exec_write_of_accepted hs herr hn ha' ((execRle1Accept_err ha').trans herr) hfull hin⟩
  · have hb' : serializeFull a = .next b := (serializeFull_of_full hfull).trans hb
    have hin := serializeFull_writeIn hb'
    refine ⟨fun hfail => ?_, fun hok => ?_⟩
    · refine ⟨b.freeCount n, b.draws + 1, b.freeCount_le n, ?_⟩
      rw [exec_write_of_sinkFailure hs herr hn ha' hb' hfail, finishWrite_of_err hfail]
    · obtain ⟨hbuf, hrun, hcrc⟩ := execBlkSerialize_empties hb hok
      refine ⟨hbuf, hrun, hcrc, ?_, hin, fun hnil => ?_, fun k hk hk0 => ?_⟩
      · have hcontrol := (execBlkSerialize_sameButBlock hb).control
        exact congrArg (fun c => c.2.2.2.1) hcontrol
      · exact exec_write_of_serialized hs herr hn ha' hb' hok (hin.trans hnil)
      · obtain ⟨o, hwrite, hrest⟩ :=
          exec_write_of_refused hs herr hn ha' hb' hok (hk.trans (congrArg _ hin.symm)) hk0
        have hput : b.putBack = { b with writeIn := [], dinIn := a.writeIn ++ b.dinIn } := by
          rw [State.putBack, hin]
        rw [← hput, hwrite, hrest]
        exact ⟨fun u hu => endCommand_write_next hu n, fun r hr => endCommand_write_fault hr n⟩
  · have hr' : serializeFull a = .fault r := (serializeFull_of_full hfull).trans hr
    obtain ⟨c, hc, heq⟩ := r.inCommand_freeCount n
    refine ⟨c, hc, ?_⟩
    rw [exec_write_pass hs herr hn ha', hr', andThen_fault, endCommand_fault, heq]

end Sys2Proof.Machine
end

section
/-! PROOFS. Where SSTATE stands after each command (49_stream_commands.md R310). -/

namespace Sys2Proof.Machine

variable {s t : State} {n : BitVec 24}

theorem exec_config_sstate {lv : BitVec 4} (h : exec (.config lv) s = .next t) :
    t.sstate = if lv.toNat ≤ 9 then .unopened else s.sstate := by
  have h : execConfig lv s = .next t := h
  by_cases hlv : lv.toNat ≤ 9
  · rw [execConfig, levelOf_of_le hlv] at h
    rw [if_pos hlv, ← Host.Outcome.next.inj h]
    rfl
  · rw [execConfig, levelOf_of_gt (not_le.mp hlv)] at h
    rw [if_neg hlv, ← Host.Outcome.next.inj h]
    rfl

theorem exec_reset_sstate (h : exec .reset s = .next t) :
    t.sstate = if s.sstate = .unconfigured then .unconfigured else .unopened := by
  by_cases hs : s.sstate = .unconfigured
  · rw [exec_reset_unconfigured hs] at h
    rw [if_pos hs, ← Host.Outcome.next.inj h]
    exact hs
  · rw [exec_reset hs] at h
    rw [if_neg hs, ← Host.Outcome.next.inj h]
    rfl

/-! ### WRITE -/

theorem finishWrite_sstate (n : BitVec 24) (s : State) : (finishWrite n s).sstate = s.sstate := by
  unfold finishWrite
  split <;> rfl

theorem finishWrite_err (n : BitVec 24) (s : State) : (finishWrite n s).err = s.err := by
  by_cases herr : s.err = .noError
  · rw [finishWrite_of_noError herr]
  · rw [finishWrite_of_err herr]

/-- A WRITE to a stream that has its header leaves SSTATE, whatever error ends it. -/
theorem exec_write_sstate (hs : s.sstate = .headerWritten) (herr : s.err = .noError)
    (hn : n.toNat ≤ s.dinIn.length) (h : exec (.write n) s = .next t) : t.sstate = .headerWritten := by
  rw [exec_write_of_headerWritten hs herr hn] at h
  obtain ⟨u, hu, rfl⟩ := endCommand_eq_next.mp h
  obtain ⟨haside, -⟩ := blockCycle_leaves hu
  rw [finishWrite_sstate]
  exact (congrArg Prod.fst haside).trans hs

/-- A WRITE to a stream without its header: SSTATE says whether the header was sent (R302). -/
theorem exec_write_sstate_of_unopened (hs : s.sstate = .unopened) (herr : s.err = .noError)
    (hn : n.toNat ≤ s.dinIn.length) (h : exec (.write n) s = .next t) :
    t.sstate = (if s.streamHeader.err = .noError then .headerWritten else .unopened) ∧
      (t.err = .noError → s.streamHeader.err = .noError) := by
  rw [exec_write_of_unopened hs herr hn] at h
  by_cases hsent : s.streamHeader.err = .noError
  · obtain ⟨hhs, hframe, -⟩ := State.streamHeader_sent hsent
    obtain ⟨hdin, -⟩ := hframe.dinPort
    rw [if_pos hsent] at h ⊢
    exact ⟨exec_write_sstate hhs hsent (hn.trans_eq (congrArg _ hdin.symm)) h, fun _ => hsent⟩
  · rw [if_neg hsent, Host.Outcome.next.injEq] at h
    rw [if_neg hsent, ← h, finishWrite_sstate, finishWrite_err, State.takeDin_sstate, State.takeDin_err,
      State.streamHeader_sstate, if_neg hsent]
    exact ⟨hs, fun hok => absurd hok hsent⟩

/-! ### FLUSH and CLOSE -/

theorem serializeOpen_sstate (h : serializeOpen s = .next t) : t.sstate = s.sstate := by
  unfold serializeOpen at h
  split at h
  · rw [Host.Outcome.next.inj h]
  · exact (execBlkSerialize_sameButBlock h).sstate

theorem exec_flush_sstate (h : exec .flush s = .next t) : t.sstate = s.sstate := by
  obtain ⟨e, -, rfl⟩ | ⟨-, u, hu, rfl⟩ := execFlush_next h
  · rfl
  · have hser := serializeOpen_sstate hu
    exact hser

/-- CLOSE of a stream that has its header. -/
theorem exec_close_sstate (hs : s.sstate = .headerWritten) (herr : s.err = .noError)
    (h : exec .close s = .next t) :
    t.sstate = if t.err = .noError then .closed else .headerWritten := by
  rw [exec_close_of_headerWritten hs herr] at h
  obtain ⟨v, hv, rfl⟩ := endCommand_eq_next.mp h
  obtain ⟨u, hu, hfoot⟩ := andThen_eq_next.mp hv
  have hus : u.sstate = .headerWritten := (serializeOpen_sstate hu).trans hs
  have hend : endCommand (fun t => t.finish 0) noCount (closeFooter u) = .next (v.finish 0) := by
    rw [hfoot, endCommand_next]
  by_cases huerr : u.err = .noError
  · rw [endCommand_closeFooter hus huerr, Host.Outcome.next.injEq] at hend
    rw [← hend]
  · rw [endCommand_closeFooter_of_err huerr, Host.Outcome.next.injEq] at hend
    rw [← hend]
    exact hus.trans (if_neg huerr).symm

theorem State.finish_sstate (s : State) (c : BitVec 24) : (s.finish c).sstate = s.sstate := rfl

theorem State.finish_err (s : State) (c : BitVec 24) : (s.finish c).err = s.err := rfl

/-- CLOSE of a stream without its header. -/
theorem exec_close_sstate_of_unopened (hs : s.sstate = .unopened) (herr : s.err = .noError)
    (h : exec .close s = .next t) :
    (t.err = .noError → t.sstate = .closed) ∧
      (t.err ≠ .noError →
        t.sstate = if s.streamHeader.err = .noError then .headerWritten else .unopened) := by
  rw [exec_close_of_unopened hs herr] at h
  by_cases hsent : s.streamHeader.err = .noError
  · obtain ⟨hhs, -⟩ := State.streamHeader_sent hsent
    rw [if_pos hsent] at h ⊢
    have hend := exec_close_sstate hhs hsent h
    exact ⟨fun hok => hend.trans (if_pos hok), fun hfail => hend.trans (if_neg hfail)⟩
  · rw [if_neg hsent, Host.Outcome.next.injEq] at h
    rw [if_neg hsent, ← h, State.finish_sstate, State.finish_err, State.streamHeader_sstate,
      if_neg hsent]
    exact ⟨fun hok => absurd hok hsent, fun _ => hs⟩

/-! ### The table of R310 -/

/-- A command that a check of R350 ends. -/
theorem exec_sstate_of_closed (hclosed : ¬ s.streamOpen) :
    (∀ t n, exec (.write n) s = .next t → t.sstate = s.sstate) ∧
      ∀ t, exec .close s = .next t → t.sstate = s.sstate := by
  have hcheck : s.check ≠ none := fun h => hclosed (State.check_eq_none.mp h)
  refine ⟨fun t n h => ?_, fun t h => ?_⟩
  · obtain ⟨-, ⟨e, -, rfl⟩ | ⟨hnone, -⟩⟩ := execWrite_next h
    · rfl
    · exact absurd hnone hcheck
  · obtain ⟨e, -, rfl⟩ | ⟨hnone, -⟩ := execClose_next h
    · rfl
    · exact absurd hnone hcheck

theorem dinIn_of_exec_write (h : exec (.write n) s = .next t) : n.toNat ≤ s.dinIn.length := by
  obtain ⟨hready, -⟩ := execWrite_next h
  exact of_decide_eq_true hready

/-- Settles O15, command by command; WRITE and CLOSE by whether the stream has its header. -/
theorem streamStateTransitions : Obligations.StreamStateTransitions := by
  refine fun s t => ⟨fun lv => exec_config_sstate, fun n h => ?_, exec_flush_sstate, fun h => ?_,
    exec_reset_sstate⟩
  · have hn := dinIn_of_exec_write h
    refine ⟨fun hopen hok => ?_, fun hopen hs => exec_write_sstate hs hopen.2 hn h,
      fun hopen hs u hu => ?_, fun hclosed => (exec_sstate_of_closed hclosed).1 t n h⟩
    · obtain ⟨hs | hs, herr⟩ := hopen
      · obtain ⟨hsstate, hsent⟩ := exec_write_sstate_of_unopened hs herr hn h
        rw [hsstate, if_pos (hsent hok)]
      · exact exec_write_sstate hs herr hn h
    · rw [exec_streamHeader, Host.Outcome.next.injEq] at hu
      rw [← hu]
      exact (exec_write_sstate_of_unopened hs hopen.2 hn h).1
  · refine ⟨fun hopen hok => ?_, fun hopen hfail hs => ?_, fun hopen hfail hs u hu => ?_,
      fun hclosed => (exec_sstate_of_closed hclosed).2 t h⟩
    · obtain ⟨hs | hs, herr⟩ := hopen
      · exact (exec_close_sstate_of_unopened hs herr h).1 hok
      · exact (exec_close_sstate hs herr h).trans (if_pos hok)
    · exact (exec_close_sstate hs hopen.2 h).trans (if_neg hfail)
    · rw [exec_streamHeader, Host.Outcome.next.injEq] at hu
      rw [← hu]
      exact (exec_close_sstate_of_unopened hs hopen.2 h).2 hfail

end Sys2Proof.Machine
end

section
/-! PROOFS. A byte given to the sink is final, and DOUT holds the last byte delivered
(20_memory.md R64, 70_reset_and_hazards.md R378). -/

namespace Sys2Proof.Machine

variable {s t u : State} {w v x : Writer} {n : BitVec 24}

/-! ### What an operation sends -/

/-- From `w` to `v` bytes were only added, and while no error stands they were all delivered. -/
structure Writer.Sends (w v : Writer) : Prop where
  bytes : w.bytes <+: v.bytes
  err : v.err = .noError → w.err = .noError
  delivers : v.err = .noError → ∃ d, w.Delivers v d

theorem Writer.Sends.refl (w : Writer) : w.Sends w := ⟨List.prefix_rfl, id, fun _ => ⟨[], .refl w⟩⟩

theorem Writer.Sends.trans (h : w.Sends v) (h' : v.Sends x) : w.Sends x where
  bytes := h.bytes.trans h'.bytes
  err hok := h.err (h'.err hok)
  delivers hok := by
    obtain ⟨e, he⟩ := h'.delivers hok
    obtain ⟨d, hd⟩ := h.delivers (h'.err hok)
    exact ⟨d ++ e, hd.trans he⟩

theorem Writer.writeBitList_sends (w : Writer) (l : List Bool) : w.Sends (w.writeBitList l) :=
  ⟨w.bytes_prefix_writeBitList l, Writer.err_of_writeBitList, Writer.writeBitList_delivers l⟩

theorem Writer.writeFields_sends (w : Writer) (fs : List Field) : w.Sends (w.writeFields fs) := by
  rw [Writer.writeFields_eq]
  exact w.writeBitList_sends _

theorem Writer.pad_sends (w : Writer) : w.Sends w.pad := by
  rw [Writer.pad_eq]
  exact w.writeBitList_sends _

theorem Writer.rawByte_sends (w : Writer) (b : Byte) : w.Sends (w.rawByte b) := by
  by_cases herr : w.err = .noError
  · rw [Writer.rawByte, if_neg (not_not.mpr herr)]
    rcases w.answerAt_cases 0 with ha | ha
    · rw [Writer.offer_ok b ha]
      exact ⟨List.prefix_append _ _, fun _ => herr, fun _ => ⟨[b], rfl, rfl⟩⟩
    · rw [Writer.offer_fail b ha]
      exact ⟨List.prefix_rfl, (nomatch ·), (nomatch ·)⟩
  · rw [Writer.rawByte, if_pos herr]
    exact .refl w

theorem Writer.rawBytes_sends (w : Writer) (d : List Byte) : w.Sends (d.foldl Writer.rawByte w) := by
  induction d generalizing w with
  | nil => exact .refl w
  | cons b d ih => exact (w.rawByte_sends b).trans (ih _)

/-! ### The transform sends nothing (R270) -/

theorem execRle1Accept_writer (h : execRle1Accept s = .next t) : t.writer = s.writer := by
  obtain ⟨b, full, rest, ret, rfl⟩ := execRle1Accept_eq_next h
  rfl

theorem execRle1Finish_writer (h : execRle1Finish s = .next t) : t.writer = s.writer := by
  unfold execRle1Finish at h
  split at h
  · cases h; rfl
  · exact absurd h (faultInvariant_ne_next _ _ _)

theorem execBwtSort_writer (h : execBwtSort s = .next t) : t.writer = s.writer := by
  unfold execBwtSort at h
  split at h
  · exact absurd h (faultInvariant_ne_next _ _ _)
  · split at h
    · exact absurd h (faultInvariant_ne_next _ _ _)
    · cases h; rfl

theorem execSymAnalyze_writer (h : execSymAnalyze s = .next t) : t.writer = s.writer := by
  cases h; rfl

theorem execMtfRun_writer (h : execMtfRun s = .next t) : t.writer = s.writer := by
  unfold execMtfRun at h
  split at h
  · exact absurd h (faultInvariant_ne_next _ _ _)
  · split at h
    · cases h; rfl
    · exact absurd h (faultInvariant_ne_next _ _ _)

theorem execRle2Run_writer (h : execRle2Run s = .next t) : t.writer = s.writer := by
  unfold execRle2Run at h
  dsimp only at h
  split at h
  · exact absurd h (faultInvariant_ne_next _ _ _)
  · cases h; rfl

theorem execHuffBuild_writer (h : execHuffBuild s = .next t) : t.writer = s.writer := by
  unfold execHuffBuild at h
  dsimp only at h
  split at h
  · exact absurd h (faultInvariant_ne_next _ _ _)
  · split at h
    · exact absurd h (faultInvariant_ne_next _ _ _)
    · split at h <;> cases h
      rfl

theorem execHuffCodes_writer (h : execHuffCodes s = .next t) : t.writer = s.writer := by
  unfold execHuffCodes at h
  split at h
  · exact absurd h (faultInvariant_ne_next _ _ _)
  · cases h; rfl

theorem execSelMtf_writer (h : execSelMtf s = .next t) : t.writer = s.writer := by
  unfold execSelMtf at h
  split at h
  · exact absurd h (faultInvariant_ne_next _ _ _)
  · split at h
    · cases h; rfl
    · exact absurd h (faultInvariant_ne_next _ _ _)

theorem atStep_writer {p : SerStep} {uop : State → Result}
    (frame : ∀ {s t : State}, uop s = .next t → t.writer = s.writer) (h : atStep p uop s = .next t) :
    t.writer = s.writer :=
  frame (s := s.setPhase (.serialize p)) h

theorem blkTransform_writer (h : blkTransform s = .next t) : t.writer = s.writer := by
  obtain ⟨s1, s2, s3, s4, s5, s6, s7, h1, h2, h3, h4, h5, h6, h7, h8⟩ := blkTransform_next h
  calc t.writer
    _ = s7.writer := atStep_writer execSelMtf_writer h8
    _ = s6.writer := atStep_writer execHuffCodes_writer h7
    _ = s5.writer := atStep_writer execHuffBuild_writer h6
    _ = s4.writer := atStep_writer execRle2Run_writer h5
    _ = s3.writer := atStep_writer execMtfRun_writer h4
    _ = s2.writer := atStep_writer execSymAnalyze_writer h3
    _ = s1.writer := atStep_writer execBwtSort_writer h2
    _ = s.writer := atStep_writer execRle1Finish_writer h1

/-! ### What the parts of a command send -/

/-- The operation on the state sends. -/
def State.Sends (s t : State) : Prop := s.writer.Sends t.writer

theorem State.Sends.trans (h : s.Sends u) (h' : u.Sends t) : s.Sends t := Writer.Sends.trans h h'

theorem State.Sends.of_writer (h : t.writer = s.writer) : s.Sends t := by
  rw [State.Sends, h]
  exact .refl s.writer

theorem execBlkSerialize_sends (h : execBlkSerialize s = .next t) : s.Sends t := by
  obtain ⟨-, u, fs, hu, -, v, hv, hend⟩ := execBlkSerialize_next h
  have hvw : v.writer = s.writer.writeFields fs := by
    rw [hv, ← blkTransform_writer hu]
    rfl
  have htw : t.writer = v.writer := by
    rcases hend with ⟨-, rfl⟩ | ⟨-, rfl⟩ <;> rfl
  rw [State.Sends, htw, hvw]
  exact s.writer.writeFields_sends fs

theorem State.streamHeader_sends (s : State) : s.Sends s.streamHeader := by
  rw [State.Sends, State.streamHeader_writer]
  exact s.writer.writeBitList_sends _

theorem State.streamFooter_sends (s : State) : s.Sends s.streamFooter := by
  rw [State.Sends, State.streamFooter_writer]
  exact s.writer.writeBitList_sends _

theorem State.openStream_sends (s : State) : s.Sends s.openStream := by
  unfold State.openStream
  split
  case h_2 => exact (s.setPhase .header).streamHeader_sends
  all_goals exact .of_writer rfl

theorem serializeOpen_sends (h : serializeOpen s = .next t) : s.Sends t := by
  unfold serializeOpen at h
  split at h
  · exact .of_writer (by rw [Host.Outcome.next.inj h])
  · exact execBlkSerialize_sends h

theorem serializeFull_sends (h : serializeFull s = .next t) : s.Sends t := by
  cases hfull : s.blkFull
  · rw [serializeFull_of_not_full hfull] at h
    exact .of_writer (by rw [Host.Outcome.next.inj h])
  · rw [serializeFull_of_full hfull] at h
    exact execBlkSerialize_sends (s := { s with blkFull := false }) h

theorem blockCycle_sends {fuel : Nat} (h : blockCycle fuel s = .next t) : s.Sends t := by
  induction fuel generalizing s with
  | zero => exact absurd h (faultInvariant_ne_next _ _ _)
  | succ fuel ih =>
    rw [blockCycle_succ] at h
    obtain ⟨u, hu, h⟩ := andThen_eq_next.mp h
    obtain ⟨v, hv, h⟩ := andThen_eq_next.mp h
    have haccepted : s.Sends u := .of_writer (execRle1Accept_writer (s := s.setPhase .accept) hu)
    refine (haccepted.trans (serializeFull_sends hv)).trans ?_
    unfold cycleOn at h
    split at h
    · exact .of_writer (by rw [Host.Outcome.next.inj h])
    · split at h
      · exact .of_writer (by rw [Host.Outcome.next.inj h])
      · exact ih h

theorem writeBody_sends (h : writeBody s = .next t) : s.Sends t := by
  refine s.openStream_sends.trans ?_
  rw [writeBody_eq] at h
  split at h
  · exact .of_writer (by rw [Host.Outcome.next.inj h])
  · exact blockCycle_sends h

theorem closeFooter_sends (h : closeFooter s = .next t) : s.Sends t := by
  unfold closeFooter at h
  split at h
  · exact .of_writer (by rw [Host.Outcome.next.inj h])
  · refine State.Sends.trans (s.setPhase .footer).streamFooter_sends ?_
    generalize (s.setPhase .footer).streamFooter = u at h
    rw [Host.Outcome.next.injEq] at h
    subst h
    refine .of_writer ?_
    split <;> rfl

theorem closeBody_sends (h : closeBody s = .next t) : s.Sends t := by
  refine s.openStream_sends.trans ?_
  rw [closeBody_eq] at h
  split at h
  · exact .of_writer (by rw [Host.Outcome.next.inj h])
  · obtain ⟨u, hu, h⟩ := andThen_eq_next.mp h
    exact (serializeOpen_sends hu).trans (closeFooter_sends h)

/-! ### What a step delivers -/

/-- From `s` to `t` bytes were only added at the sink, and without an error DOUT holds the last of
them. -/
def DeliveredKept (s t : State) : Prop :=
  s.sinkBytes <+: t.sinkBytes ∧
    (t.err = .noError → t.dout = lastByte s.dout (t.sinkBytes.drop s.sinkBytes.length))

theorem State.Sends.deliveredKept (h : s.Sends t) : DeliveredKept s t := by
  refine ⟨h.bytes, fun hok => ?_⟩
  obtain ⟨d, hbytes, hdout⟩ := h.delivers hok
  have hbytes : t.sinkBytes = s.sinkBytes ++ d := hbytes
  rw [hbytes, List.drop_left]
  exact hdout

/-- What the end of a command writes does not matter. -/
theorem DeliveredKept.of_same (h : DeliveredKept s u) (hbytes : t.sinkBytes = u.sinkBytes)
    (herr : t.err = u.err) (hdout : t.dout = u.dout) : DeliveredKept s t := by
  rw [DeliveredKept, hbytes, herr, hdout]
  exact h

/-- An operation that touches neither the sink nor DOUT. -/
theorem deliveredKept_of_quiet (hbytes : t.sinkBytes = s.sinkBytes) (hdout : t.dout = s.dout) :
    DeliveredKept s t := by
  rw [DeliveredKept, hbytes, hdout, List.drop_length]
  exact ⟨List.prefix_rfl, fun _ => rfl⟩

theorem finishWrite_deliveredKept (h : s.Sends u) (n : BitVec 24) :
    DeliveredKept s (finishWrite n u) := by
  refine h.deliveredKept.of_same ?_ (finishWrite_err n u) ?_ <;> unfold finishWrite <;> split <;> rfl

theorem exec_config_deliveredKept {lv : BitVec 4} (h : exec (.config lv) s = .next t) :
    DeliveredKept s t := by
  have h : execConfig lv s = .next t := h
  unfold execConfig at h
  split at h <;> cases h <;> exact deliveredKept_of_quiet rfl rfl

theorem exec_reset_deliveredKept (h : exec .reset s = .next t) : DeliveredKept s t := by
  by_cases hs : s.sstate = .unconfigured
  · rw [exec_reset_unconfigured hs] at h
    cases h
    exact deliveredKept_of_quiet rfl rfl
  · rw [exec_reset hs] at h
    cases h
    exact deliveredKept_of_quiet rfl rfl

theorem exec_write_deliveredKept (h : exec (.write n) s = .next t) : DeliveredKept s t := by
  obtain ⟨-, ⟨e, -, rfl⟩ | ⟨-, u, hu, rfl⟩⟩ := execWrite_next h
  · exact deliveredKept_of_quiet rfl rfl
  · exact finishWrite_deliveredKept (s := s.takeDin n) (writeBody_sends hu) n

theorem exec_flush_deliveredKept (h : exec .flush s = .next t) : DeliveredKept s t := by
  obtain ⟨e, -, rfl⟩ | ⟨-, u, hu, rfl⟩ := execFlush_next h
  · exact deliveredKept_of_quiet rfl rfl
  · exact (serializeOpen_sends hu).deliveredKept.of_same rfl rfl rfl

theorem exec_close_deliveredKept (h : exec .close s = .next t) : DeliveredKept s t := by
  obtain ⟨e, -, rfl⟩ | ⟨-, u, hu, rfl⟩ := execClose_next h
  · exact deliveredKept_of_quiet rfl rfl
  · exact (closeBody_sends hu).deliveredKept.of_same rfl rfl rfl

theorem exec_bwWriteBits_sends {w : BitVec 7} {v : BitVec 64} (h : exec (.bwWriteBits w v) s = .next t) :
    s.Sends t := by
  have h : execBwWriteBits w v s = .next t := h
  unfold execBwWriteBits at h
  split at h
  · exact absurd h (faultInvariant_ne_next _ _ _)
  · obtain rfl := Host.Outcome.next.inj h
    exact s.writer.writeBitList_sends _

theorem exec_bwRawBytes_sends {d : List Byte} (h : exec (.bwRawBytes d) s = .next t) : s.Sends t := by
  have h : execBwRawBytes d s = .next t := h
  unfold execBwRawBytes at h
  split at h
  · exact .of_writer (by rw [Host.Outcome.next.inj h])
  · split at h
    · cases h
    · obtain rfl := Host.Outcome.next.inj h
      exact s.writer.rawBytes_sends d

/-- Every instruction, the commands by the ways they end and the uops by what they send. -/
theorem exec_deliveredKept (i : Instr) (h : exec i s = .next t) : DeliveredKept s t := by
  cases i with
  | config lv => exact exec_config_deliveredKept h
  | write n => exact exec_write_deliveredKept h
  | flush => exact exec_flush_deliveredKept h
  | close => exact exec_close_deliveredKept h
  | reset => exact exec_reset_deliveredKept h
  | bwWriteBits n v => exact (exec_bwWriteBits_sends h).deliveredKept
  | bwPad =>
    obtain rfl := Host.Outcome.next.inj h
    exact State.Sends.deliveredKept s.writer.pad_sends
  | bwRawBytes d => exact (exec_bwRawBytes_sends h).deliveredKept
  | crcUpdate crc d =>
    obtain rfl := Host.Outcome.next.inj h
    exact deliveredKept_of_quiet rfl rfl
  | crcCombine a b =>
    obtain rfl := Host.Outcome.next.inj h
    exact deliveredKept_of_quiet rfl rfl
  | symAnalyze => exact (State.Sends.of_writer (execSymAnalyze_writer h)).deliveredKept
  | rle1Accept => exact (State.Sends.of_writer (execRle1Accept_writer h)).deliveredKept
  | rle1Finish => exact (State.Sends.of_writer (execRle1Finish_writer h)).deliveredKept
  | bwtSort => exact (State.Sends.of_writer (execBwtSort_writer h)).deliveredKept
  | mtfRun => exact (State.Sends.of_writer (execMtfRun_writer h)).deliveredKept
  | rle2Run => exact (State.Sends.of_writer (execRle2Run_writer h)).deliveredKept
  | huffBuild => exact (State.Sends.of_writer (execHuffBuild_writer h)).deliveredKept
  | huffCodes => exact (State.Sends.of_writer (execHuffCodes_writer h)).deliveredKept
  | selMtf => exact (State.Sends.of_writer (execSelMtf_writer h)).deliveredKept
  | blkSerialize => exact (execBlkSerialize_sends h).deliveredKept
  | streamHeader =>
    rw [exec_streamHeader, Host.Outcome.next.injEq] at h
    exact h ▸ s.streamHeader_sends.deliveredKept
  | streamFooter =>
    rw [exec_streamFooter, Host.Outcome.next.injEq] at h
    exact h ▸ s.streamFooter_sends.deliveredKept

/-- Settles O55, by the host's next action: taking it off the queue touches neither the sink nor DOUT. -/
theorem deliveredBytesAreFinal : Obligations.DeliveredBytesAreFinal := by
  intro s t he hattach
  obtain ⟨-, hstep⟩ | ⟨w, es, -, -, hcmd⟩ | ⟨l, r, es, hq, -⟩ | ⟨bytes, es, -, huop⟩ |
    ⟨-, hstep⟩ := step_cases s
  · cases hstep.symm.trans he
    exact deliveredKept_of_quiet rfl rfl
  · obtain ⟨i, -, hstep⟩ | ⟨e, -, hstep⟩ := hcmd
    · exact exec_deliveredKept (s := { s with hostQueue := es, cmd := w }) i (hstep.symm.trans he)
    · cases hstep.symm.trans he
      exact deliveredKept_of_quiet rfl rfl
  · exact absurd hq (hattach l r es)
  · obtain ⟨i, -, hstep⟩ | ⟨e, -, hstep⟩ := huop
    · exact exec_deliveredKept (s := { s with hostQueue := es }) i (hstep.symm.trans he)
    · exact absurd (hstep.symm.trans he) (faultInvariant_ne_next _ _ _)
  · cases hstep.symm.trans he

end Sys2Proof.Machine
end
